-- ==== Sys2Proof/Word.lean ====
section
/-! DEFINITION. The word types of the HCE: a byte (a symbol, a key byte, a result code), the 32-bit bus and key word,
and the 64-bit register. Every value is unsigned, bit 0 least significant (R9, R10 of spec/00_scope.md). -/

namespace Sys2Proof

/-- One byte: a symbol, a key or IV byte, DOUT, LASTERR (R16, R18). -/
abbrev Byte := BitVec 8

/-- A 32-bit word: a command word, a register of the window, a key word, AKJ and POS (R18, R22, R56). -/
abbrev Word := BitVec 32

/-- A 64-bit register: IVREG, SR, KS and BCOUT (R18). -/
abbrev DWord := BitVec 64

end Sys2Proof
end

