-- ==== Sys2Proof/Syntax.lean ====
section
/-! DEFINITION. The 18 commands of HCE-CMD version 1 (R64 of spec/30_encoding.md), one constructor for each row of
spec/opcode_table.json, with the operands its format names (R58 to R62). -/

namespace Sys2Proof

/-- CFG.MODE: 0 = BYTE (w = 32, RW = 64), 1 = TOY (w = 5, RW = 10) (R18, R19). -/
inductive Mode where
  | byte
  | toy
  deriving DecidableEq, Repr

/-- CFG.AKRULE: 0 = ADD, 1 = MUL (R25, R94). -/
inductive AkRule where
  | add
  | mul
  deriving DecidableEq, Repr

/-- A command of HCE-CMD version 1. -/
inductive Instr where
  /-- NOP, format N (R113). -/
  | nop
  /-- SOFTRST, format N (R114). -/
  | softrst
  /-- CLRERR, format N (R115). -/
  | clrerr
  /-- SETCFG, format C (R116, R61). -/
  | setcfg (mode : Mode) (rule : AkRule) (strict : Bool) (fbw : BitVec 7)
  /-- CLRKEY, format N (R76). -/
  | clrkey
  /-- LDKEYB, format B (R77). -/
  | ldkeyb (b : Byte)
  /-- BC_ENC, format N (R78). -/
  | bcEnc
  /-- CLRIV, format N (R81). -/
  | clriv
  /-- LDIVB, format B (R82). -/
  | ldivb (b : Byte)
  /-- CFB_INIT, format N (R83). -/
  | cfbInit
  /-- CFB_ENC, format D (R86, R60). All 8 DATA bits are kept, so that no bit of the word is lost (log 12). -/
  | cfbEnc (n : BitVec 4) (d : Byte)
  /-- CFB_DEC, format D (R87, R60). -/
  | cfbDec (n : BitVec 4) (d : Byte)
  /-- AKG_LOAD, format K (R98, R62). -/
  | akgLoad (k0 k1 : BitVec 5)
  /-- AKG_ENC, format B (R99). -/
  | akgEnc (b : Byte)
  /-- AKG_DEC, format B (R100). -/
  | akgDec (b : Byte)
  /-- HYB_INIT, format N (R106). -/
  | hybInit
  /-- HYB_ENC, format B (R107). -/
  | hybEnc (b : Byte)
  /-- HYB_DEC, format B (R108). -/
  | hybDec (b : Byte)
  deriving DecidableEq, Repr

end Sys2Proof
end

