-- ==== Sys2Proof/WellFormed.lean ====
section
/-! DEFINITION. Which terms of `Instr` are commands a decoder can produce. Every operand field holds any value of its
width (R61 to R63: FBW, K0 and K1 are range-checked by their commands, not by the decoder); the one check is that
format D has N at most 8 (R60, R65). -/

namespace Sys2Proof

/-- Format D: the number of data bits is legal, 0 ≤ N ≤ 8 (R60). -/
def legalBitCount (n : BitVec 4) : Bool := decide (n.toNat ≤ 8)

/-- The well-formedness check of a command. -/
def Instr.wf : Instr → Bool
  | .nop => true
  | .softrst => true
  | .clrerr => true
  | .setcfg _ _ _ _ => true
  | .clrkey => true
  | .ldkeyb _ => true
  | .bcEnc => true
  | .clriv => true
  | .ldivb _ => true
  | .cfbInit => true
  | .cfbEnc n _ => legalBitCount n
  | .cfbDec n _ => legalBitCount n
  | .akgLoad _ _ => true
  | .akgEnc _ => true
  | .akgDec _ => true
  | .hybInit => true
  | .hybEnc _ => true
  | .hybDec _ => true

/-- A well-formed command. -/
abbrev WellFormed (i : Instr) : Prop := i.wf = true

end Sys2Proof
end

