-- ==== Sys2Proof/Decode.lean ====
section
/-! DEFINITION. From command words to commands and back (spec/30_encoding.md): the formats with their must-be-zero
masks, the opcode map, the decoder of R65, the encoder, and the instruction a word of spec/opcode_table.json
stands for. -/

namespace Sys2Proof

/-! ### Formats and fields (R57 to R62) -/

/-- The five operand formats (R58 to R62). -/
inductive Format where
  | n
  | b
  | d
  | c
  | k
  deriving DecidableEq, Repr

/-- The bits that are fixed in a format: the opcode and the must-be-zero bits (R57; the mask column of R64). -/
def Format.mask : Format → Word
  | .n => 0xFFFFFFFF
  | .b => 0xFFFFFF00
  | .d => 0xFFFFF000
  | .c => 0xFFFF80F8
  | .k => 0xFFFFE0E0

/-- OPC, bits [31:24] of every command word (R57). -/
def opcField (w : Word) : BitVec 8 := w.extractLsb' 24 8

/-- BYTE or DATA, bits [7:0] of formats B and D (R59, R60). -/
def byteField (w : Word) : Byte := w.extractLsb' 0 8

/-- N, bits [11:8] of format D (R60). -/
def countField (w : Word) : BitVec 4 := w.extractLsb' 8 4

/-- FBW, bits [14:8] of format C (R61). -/
def fbwField (w : Word) : BitVec 7 := w.extractLsb' 8 7

/-- MODE, bit [0] of format C (R61, R25: 0 = BYTE, 1 = TOY). -/
def modeField (w : Word) : Mode := if w.getLsbD 0 then .toy else .byte

/-- AKRULE, bit [1] of format C (R61, R25: 0 = ADD, 1 = MUL). -/
def ruleField (w : Word) : AkRule := if w.getLsbD 1 then .mul else .add

/-- STRICT, bit [2] of format C (R61). -/
def strictField (w : Word) : Bool := w.getLsbD 2

/-- K0, bits [4:0] of format K (R62). -/
def k0Field (w : Word) : BitVec 5 := w.extractLsb' 0 5

/-- K1, bits [12:8] of format K (R62). -/
def k1Field (w : Word) : BitVec 5 := w.extractLsb' 8 5

/-! ### The opcode map (R64) -/

/-- A row of the opcode map: the opcode, its format, and the command its words carry. -/
structure OpcodeRow where
  opc    : BitVec 8
  format : Format
  build  : Word → Instr

/-- The match column of R64: the opcode in bits [31:24], every other bit 0. -/
def OpcodeRow.matchWord (r : OpcodeRow) : Word := (r.opc ++ 0#24).cast (by decide : 8 + 24 = 32)

/-- The mask column of R64. -/
def OpcodeRow.mask (r : OpcodeRow) : Word := r.format.mask

/-- A word selects a row when `(v & mask) = match` (R64). -/
def OpcodeRow.selects (r : OpcodeRow) (v : Word) : Bool := v &&& r.mask == r.matchWord

/-- The control commands (44_control.md). -/
def controlRows : List OpcodeRow :=
  [⟨0x00, .n, fun _ => .nop⟩,
   ⟨0x01, .n, fun _ => .softrst⟩,
   ⟨0x02, .n, fun _ => .clrerr⟩,
   ⟨0x03, .c, fun v => .setcfg (modeField v) (ruleField v) (strictField v) (fbwField v)⟩]

/-- The block-cipher commands (40_block_cipher.md). -/
def blockRows : List OpcodeRow :=
  [⟨0x10, .n, fun _ => .clrkey⟩,
   ⟨0x11, .b, fun v => .ldkeyb (byteField v)⟩,
   ⟨0x12, .n, fun _ => .bcEnc⟩]

/-- The CFB commands (41_cfb.md). -/
def cfbRows : List OpcodeRow :=
  [⟨0x20, .n, fun _ => .clriv⟩,
   ⟨0x21, .b, fun v => .ldivb (byteField v)⟩,
   ⟨0x22, .n, fun _ => .cfbInit⟩,
   ⟨0x23, .d, fun v => .cfbEnc (countField v) (byteField v)⟩,
   ⟨0x24, .d, fun v => .cfbDec (countField v) (byteField v)⟩]

/-- The keystream commands (42_additive.md). -/
def keystreamRows : List OpcodeRow :=
  [⟨0x30, .k, fun v => .akgLoad (k0Field v) (k1Field v)⟩,
   ⟨0x31, .b, fun v => .akgEnc (byteField v)⟩,
   ⟨0x32, .b, fun v => .akgDec (byteField v)⟩]

/-- The hybrid commands (43_hybrid.md). -/
def hybridRows : List OpcodeRow :=
  [⟨0x40, .n, fun _ => .hybInit⟩,
   ⟨0x41, .b, fun v => .hybEnc (byteField v)⟩,
   ⟨0x42, .b, fun v => .hybDec (byteField v)⟩]

/-- The assigned opcodes; every other one is reserved (R64, R66). -/
def opcodeTable : List OpcodeRow :=
  controlRows ++ blockRows ++ cfbRows ++ keystreamRows ++ hybridRows

/-- The row of an opcode (R65). -/
def rowOf (opc : BitVec 8) : Option OpcodeRow := opcodeTable.find? (fun r => r.opc == opc)

/-! ### The decoder (R65) -/

/-- Why a word is no command (R66). Each is reported to the host as ILLEGAL_COMMAND. -/
inductive DecodeError where
  /-- The opcode is not in the table of R64. -/
  | reservedOpcode
  /-- A must-be-zero operand bit is 1. -/
  | mbzBitSet
  /-- Format D with N = 9 to 15. -/
  | bitCountTooLarge
  deriving DecidableEq, Repr

/-- The steps of R65, in order: the opcode's row, its must-be-zero bits, the bit count of format D. -/
def decode (v : Word) : Except DecodeError Instr :=
  match rowOf (opcField v) with
  | none => .error .reservedOpcode
  | some row =>
    if row.selects v then
      if row.format = .d ∧ 8 < (countField v).toNat then .error .bitCountTooLarge
      else .ok (row.build v)
    else .error .mbzBitSet

/-! ### The encoder (R58 to R64) -/

/-- Format N (R58). -/
def wordN (opc : BitVec 8) : Word := (opc ++ 0#24).cast (by decide : 8 + 24 = 32)

/-- Format B (R59). -/
def wordB (opc : BitVec 8) (b : Byte) : Word :=
  (opc ++ (0#16 ++ b)).cast (by decide : 8 + (16 + 8) = 32)

/-- Format D (R60). -/
def wordD (opc : BitVec 8) (n : BitVec 4) (d : Byte) : Word :=
  (opc ++ (0#12 ++ (n ++ d))).cast (by decide : 8 + (12 + (4 + 8)) = 32)

/-- MODE as a bit (R25). -/
def Mode.bit : Mode → BitVec 1
  | .byte => 0
  | .toy => 1

/-- AKRULE as a bit (R25). -/
def AkRule.bit : AkRule → BitVec 1
  | .add => 0
  | .mul => 1

/-- The operand bits [23:0] of format C (R61), which is also the layout of CFG (R25). -/
def configBits (mode : Mode) (rule : AkRule) (strict : Bool) (fbw : BitVec 7) : BitVec 24 :=
  (0#9 ++ (fbw ++ (0#5 ++ (BitVec.ofBool strict ++ (rule.bit ++ mode.bit))))).cast
    (by decide : 9 + (7 + (5 + (1 + (1 + 1)))) = 24)

/-- Format C (R61). -/
def wordC (opc : BitVec 8) (mode : Mode) (rule : AkRule) (strict : Bool) (fbw : BitVec 7) : Word :=
  (opc ++ configBits mode rule strict fbw).cast (by decide : 8 + 24 = 32)

/-- Format K (R62). -/
def wordK (opc : BitVec 8) (k0 k1 : BitVec 5) : Word :=
  (opc ++ (0#11 ++ (k1 ++ (0#3 ++ k0)))).cast (by decide : 8 + (11 + (5 + (3 + 5))) = 32)

/-- The word of a command (R64 and the Encoding line of each command's rule). -/
def encode : Instr → Word
  | .nop => wordN 0x00
  | .softrst => wordN 0x01
  | .clrerr => wordN 0x02
  | .setcfg mode rule strict fbw => wordC 0x03 mode rule strict fbw
  | .clrkey => wordN 0x10
  | .ldkeyb b => wordB 0x11 b
  | .bcEnc => wordN 0x12
  | .clriv => wordN 0x20
  | .ldivb b => wordB 0x21 b
  | .cfbInit => wordN 0x22
  | .cfbEnc n d => wordD 0x23 n d
  | .cfbDec n d => wordD 0x24 n d
  | .akgLoad k0 k1 => wordK 0x30 k0 k1
  | .akgEnc b => wordB 0x31 b
  | .akgDec b => wordB 0x32 b
  | .hybInit => wordN 0x40
  | .hybEnc b => wordB 0x41 b
  | .hybDec b => wordB 0x42 b

/-! ### Words of the opcode table -/

/-- The 32-bit command word whose low `nbits` bits are those of `w`, the rest 0. A command word has one 32-bit unit
(R56), numbered as spec/opcode_table.json numbers it. -/
def tableWord (nbits w : Nat) : Word := BitVec.ofNat 32 (w % 2 ^ nbits)

/-- The command the decoder reads from a word of the opcode table, none where it refuses (R56, R65). No command is
longer than 32 bits. -/
def decodeTableWord (nbits w : Nat) : Option Instr :=
  if nbits ≤ 32 then (decode (tableWord nbits w)).toOption else none

end Sys2Proof
end

