-- ==== Sys2Proof/Config.lean ====
section
/-! DEFINITION. What is fixed for the machine and what the spec leaves open: the parameters of the block cipher (R7, R8 of
spec/00_scope.md), the open base address (R43), and the two free values for register contents that no run from
reset reaches (R39, R84). -/

namespace Sys2Proof.Config

/-- The named arguments the model takes: the round constant for w = 32 and for w = 5, and the two shift amounts (the
rows of R7 marked "parameter", R8). A machine holds them in `State.params`, and every function that runs the cipher
takes them as an argument (log 3). -/
structure CipherParams where
  delta32 : BitVec 32
  delta5  : BitVec 5
  shl     : Nat
  shr     : Nat
  deriving DecidableEq, Repr

/-- The defaults the spec uses: `DELTA_32` = 0x9E3779B9, `DELTA_5` = 25, SHL = 4, SHR = 5 (R7, R8; D3, D4).
PRESUMED (log 3): DELTA_32 is marked "from general knowledge, not in source" by the spec itself. -/
def specDefaults : CipherParams := ⟨0x9E3779B9, 25, 4, 5⟩

/-- The number of block-cipher rounds R (R7, R71: fixed by the source). -/
def rounds : Nat := 32

/-- `HCE_BASE`, where the platform puts the register window: an open parameter that no rule reads (R43, R49).
DESIGN CHOICE (log 8), safe: it has no value here. -/
opaque hceBase : Nat

/-- The keystream bit of a chunk position that names no bit of KS, `PHASE ≥ RW`: R84 indexes `KS[RW - 1 - PHASE]`.
A free value: nothing constrains it. DESIGN CHOICE (log 5), safe. -/
opaque keystreamBitBeyond : BitVec 64 → BitVec 7 → Bool

/-- The value of `(PHASE + 1) mod c` for c = 0, as a function of PHASE (R84). A free value: nothing constrains it.
DESIGN CHOICE (log 4), safe. -/
opaque phaseModZero : BitVec 7 → BitVec 7

end Sys2Proof.Config
end

