-- ==== Sys2Proof/Machine/State.lean ====
section
/-! DEFINITION. The state of the machine: the HCE's complete architectural state (R18 of spec/10_state.md) as the record
`Engine`, and beside it the named parameters the machine was built with (R7, log 3) and the host's side of the bus
(log 1): the inputs still to come and the responses given. All of it is plain data. -/

namespace Sys2Proof.Machine

/-- The error codes 0x01 to 0x07 of R117 (spec/60_exceptions.md). A command that succeeds reports 0x00 instead. -/
inductive ErrorCode where
  /-- 0x01: reserved opcode, must-be-zero bit set, or format D with N > 8; any command word. -/
  | illegalCommand
  /-- 0x02: KEYCNT ≠ 16; BC_ENC, CFB_INIT, HYB_INIT. -/
  | invalidKeyLength
  /-- 0x03: IVOK false; CFB_INIT, HYB_INIT. -/
  | invalidIvLength
  /-- 0x04: no session, or no stream keys; the data commands and HYB_INIT. -/
  | notInitialised
  /-- 0x05: FBW = 0 or FBW > RW of the new mode; SETCFG. -/
  | invalidFeedbackWidth
  /-- 0x06: STRICT = 1 and the symbol is not a letter; AKG_ENC, AKG_DEC, and HYB_ENC, HYB_DEC at an even position. -/
  | unsupportedCharacter
  /-- 0x07: K0 > 25 or K1 > 25; AKG_LOAD. -/
  | streamKeyRange
  deriving DecidableEq, Repr

/-- The configuration fields of R18, read back as CFG (R25). One-bit fields with named values are inductive types,
the others Bool (log 11). -/
structure Cfg where
  mode   : Mode
  akrule : AkRule
  strict : Bool
  fbw    : BitVec 7
  deriving DecidableEq, Repr

/-- The complete architectural state of the HCE: exactly the fields of R18, with exactly their widths. -/
structure Engine where
  cfg     : Cfg
  key0    : Word
  key1    : Word
  key2    : Word
  key3    : Word
  keycnt  : BitVec 5
  ivreg   : DWord
  ivcnt   : BitVec 4
  sr      : DWord
  ks      : DWord
  phase   : BitVec 7
  bcout   : DWord
  ak0     : BitVec 5
  ak1     : BitVec 5
  ka      : BitVec 5
  kb      : BitVec 5
  akj     : Word
  akv     : Bool
  pos     : Word
  cfbrdy  : Bool
  akrdy   : Bool
  hybrdy  : Bool
  dout    : Byte
  lasterr : Byte
  errseen : Bool
  deriving DecidableEq, Repr

/-- The state after a reset: every field at the "reset value" column of R18 (R132): all 0, but POS = 1 and FBW = 1. -/
def Engine.reset : Engine where
  cfg := ⟨.byte, .add, false, 1⟩
  key0 := 0
  key1 := 0
  key2 := 0
  key3 := 0
  keycnt := 0
  ivreg := 0
  ivcnt := 0
  sr := 0
  ks := 0
  phase := 0
  bcout := 0
  ak0 := 0
  ak1 := 0
  ka := 0
  kb := 0
  akj := 0
  akv := false
  pos := 1
  cfbrdy := false
  akrdy := false
  hybrdy := false
  dout := 0
  lasterr := 0
  errseen := false

/-- The width of a bus transaction (R45; the `size` signal of R138). -/
inductive BusSize where
  | bits8
  | bits16
  | bits32
  | bits64
  deriving DecidableEq, Repr

/-- A host transaction at a byte offset of the 256-byte window (R43, R44). The write data are the 32 bits of R44;
no other bit of a transaction of another size is looked at, since it is refused with BUSERR (R45). -/
inductive Transaction where
  | read (offset : BitVec 8) (size : BusSize)
  | write (offset : BitVec 8) (size : BusSize) (data : Word)
  deriving DecidableEq, Repr

/-- What reaches the HCE from outside: a host transaction, an assertion of the reset input between transactions, or a
transaction that overlaps the reset input (R44, R131). -/
inductive HostInput where
  | transaction (t : Transaction)
  | reset
  | resetOverlapping (t : Transaction)
  deriving DecidableEq, Repr

/-- How a transaction ends: a read value, a completed write, or the bus error response (R44, R45, R122). -/
inductive BusResponse where
  | readValue (v : Word)
  | writeDone
  | busErr
  deriving DecidableEq, Repr

/-- The machine and its host's side of the bus. The HCE's state is `engine`. `params` are the named arguments of R7 and R8,
which every step takes from here and none changes (log 3). `inputs` is what is still to come, next first, and
`responses` what the bus has answered, oldest first (R51, R130; log 1). -/
structure State where
  params    : Config.CipherParams
  engine    : Engine
  inputs    : List HostInput
  responses : List BusResponse
  deriving DecidableEq, Repr

/-- Why the machine stops with a fault: never. Every error of the HCE is a result code after which the machine goes on
(R118, R124, R125), a bad transaction is a bus response (R122), and no hang is possible (R130). No constructor, so
no one raises one; safe. -/
inductive Fault where
  deriving DecidableEq, Repr

/-- Why the model has no transition. -/
inductive Refusal where
  /-- An instruction whose meaning is not written yet, by its mnemonic in spec/opcode_table.json. Raised by `exec`
  only; safe. No arm raises it now. -/
  | notModelled (mnemonic : String)
  /-- A transaction that overlaps the reset input: "The model has no such overlapping transaction" (R131; `refuse`, item 17
  of spec/93_implementation_defined.md). Raised by `step` for the input `resetOverlapping`; safe (log 6). -/
  | transactionOverlapsReset
  deriving DecidableEq, Repr

/-- The machine with the parameters `p` right after reset: the HCE at its reset values (R132), idle and waiting for the
first host transaction (R133), so no input waits and no response has been given. -/
def State.resetWith (p : Config.CipherParams) : State := ⟨p, Engine.reset, [], []⟩

/-- The machine right after reset with the parameters' defaults (R7, R8; log 3). -/
def State.reset : State := State.resetWith Config.specDefaults

end Sys2Proof.Machine
end

