-- ==== Sys2Proof/Machine/Operands.lean ====
section
/-! DEFINITION. The forms data take on their way into and out of the units: the two widths a mode fixes (R19), bits in stream
order and back (R15, R60), byte lanes of a key word (R77), and letters and their indexes (R16, R93). -/

namespace Sys2Proof.Machine

/-! ### Widths (R19) -/

/-- `w(MODE)`, the block cipher's word width. -/
def wordWidth : Mode → Nat
  | .byte => 32
  | .toy => 5

/-- `RW(MODE)`, the shift register's width. -/
def registerWidth : Mode → Nat
  | .byte => 64
  | .toy => 10

/-- `x mod 2^RW(MODE)` in a 64-bit register (R80, R84). -/
def modRegister : Mode → DWord → DWord
  | .byte, x => x
  | .toy, x => (x.setWidth 10).setWidth 64

/-! ### Bits in stream order (R15, R60) -/

/-- Whether a unit encrypts or decrypts (R84, R97, R104). -/
inductive Direction where
  | enc
  | dec
  deriving DecidableEq, Repr

/-- The data bits `DATA[N-1]` down to `DATA[0]`, first bit first (R60). -/
def dataBits : Nat → Byte → List Bool
  | 0, _ => []
  | n + 1, d => d.getLsbD n :: dataBits n d

/-- A list of bits as a number of `n` bits, the first bit most significant: `out[i]` of R86, read back from the
order in which the bits were made. -/
def packBits (n : Nat) (bits : List Bool) : BitVec n :=
  bits.foldl (fun acc b => (acc <<< 1) ||| (BitVec.ofBool b).setWidth n) 0

/-! ### Byte lanes of a key word (R77) -/

/-- `x[8j+7:8j] <- b`. -/
def setByteLane (x : Word) (j : Nat) (b : Byte) : Word :=
  (x &&& ~~~((0xFF : Word) <<< (8 * j))) ||| (b.setWidth 32 <<< (8 * j))

/-! ### Letters (R16, R93) -/

/-- The case of a letter. -/
inductive LetterCase where
  | upper
  | lower
  deriving DecidableEq, Repr

/-- The tagged value of `classify`: a letter with its case and its index in [0, 26), or a passthrough symbol. -/
inductive SymbolClass where
  | letter (case : LetterCase) (index : Nat)
  | passthrough
  deriving DecidableEq, Repr

/-- The base of a case: 0x41 or 0x61 (R93). -/
def letterBase : LetterCase → Nat
  | .upper => 0x41
  | .lower => 0x61

/-- `classify(s)` (R93). -/
def classify (s : Byte) : SymbolClass :=
  if 0x41 ≤ s.toNat ∧ s.toNat ≤ 0x5A then .letter .upper (s.toNat - 0x41)
  else if 0x61 ≤ s.toNat ∧ s.toNat ≤ 0x7A then .letter .lower (s.toNat - 0x61)
  else .passthrough

/-- The symbol of a letter: `base(case) + r` (R97). -/
def letterSymbol (c : LetterCase) (r : Nat) : Byte := BitVec.ofNat 8 (letterBase c + r)

end Sys2Proof.Machine
end

