-- ==== Sys2Proof/Machine/Flags.lean ====
section
/-! DEFINITION. The flags and counts of STATUS: the length checks (R75, R79), the saturating counts (R77, R82), which
session flags a command ends (R38), and the words the host reads back that are put together from fields: STATUS, CFG,
CFBPH and AKST (R24, R25, R32, R33). -/

namespace Sys2Proof.Machine

/-! ### Checks -/

/-- `KeyOK ⇔ KEYCNT = 16` (R75). -/
def keyOk (e : Engine) : Bool := e.keycnt == 16

/-- IVOK: BYTE mode `IVCNT = 8`, TOY mode `IVCNT ≥ 1` (R79). -/
def ivOk (e : Engine) : Bool :=
  match e.cfg.mode with
  | .byte => e.ivcnt == 8
  | .toy => decide (1 ≤ e.ivcnt.toNat)

/-- `IVVAL = IVREG mod 2^RW(CFG.MODE)` (R80). -/
def ivVal (e : Engine) : DWord := modRegister e.cfg.mode e.ivreg

/-! ### Counts -/

/-- `min(KEYCNT + 1, 31)` (R77). -/
def nextKeyCount (c : BitVec 5) : BitVec 5 := BitVec.ofNat 5 (min (c.toNat + 1) 31)

/-- `min(IVCNT + 1, 15)` (R82). -/
def nextIvCount (c : BitVec 4) : BitVec 4 := BitVec.ofNat 4 (min (c.toNat + 1) 15)

/-! ### Session flags (R38) -/

/-- A key or IV write ends the CFB and the hybrid session: `CFBRDY <- 0; HYBRDY <- 0`. -/
def endCfbSessions (e : Engine) : Engine := { e with cfbrdy := false, hybrdy := false }

/-- A configuration ends every session: `CFBRDY <- 0; AKRDY <- 0; HYBRDY <- 0`. -/
def endAllSessions (e : Engine) : Engine := { e with cfbrdy := false, akrdy := false, hybrdy := false }

/-! ### Words put together from fields -/

/-- STATUS (R24): IVCNT, KEYCNT, AKV, HYBRDY, AKRDY, CFBRDY, ERRSEEN and LASTERR, from the top. -/
def statusWord (e : Engine) : Word :=
  (0#4 ++ (e.ivcnt ++ (0#3 ++ (e.keycnt ++ (0#3 ++ (BitVec.ofBool e.akv ++ (BitVec.ofBool e.hybrdy ++
    (BitVec.ofBool e.akrdy ++ (BitVec.ofBool e.cfbrdy ++ (BitVec.ofBool e.errseen ++ e.lasterr)))))))))).cast
    (by decide : 4 + (4 + (3 + (5 + (3 + (1 + (1 + (1 + (1 + (1 + 8))))))))) = 32)

/-- CFG (R25), in the layout of SETCFG's operand (R61). -/
def cfgWord (c : Cfg) : Word :=
  (0#8 ++ configBits c.mode c.akrule c.strict c.fbw).cast (by decide : 8 + 24 = 32)

/-- CFBPH (R32). -/
def cfbphWord (e : Engine) : Word := (0#25 ++ e.phase).cast (by decide : 25 + 7 = 32)

/-- AKST (R33): AK1, AK0, KB and KA, from the top. -/
def akstWord (e : Engine) : Word :=
  (0#3 ++ (e.ak1 ++ (0#3 ++ (e.ak0 ++ (0#3 ++ (e.kb ++ (0#3 ++ e.ka))))))).cast
    (by decide : 3 + (5 + (3 + (5 + (3 + (5 + (3 + 5)))))) = 32)

end Sys2Proof.Machine
end

