-- ==== Sys2Proof/Machine/Ops.lean ====
section
/-! DEFINITION. The operations every command shares: how a command ends, in success or in an error (R13, R118; the HCE's
errors are result codes and no traps, R124), the reset (R132), and reading a register of the window (R22). -/

namespace Sys2Proof.Machine

/-! ### Result codes (R117) -/

/-- The code of success, 0x00 OK. -/
def okCode : Byte := 0x00

/-- The number of an error. -/
def ErrorCode.code : ErrorCode → Byte
  | .illegalCommand => 0x01
  | .invalidKeyLength => 0x02
  | .invalidIvLength => 0x03
  | .notInitialised => 0x04
  | .invalidFeedbackWidth => 0x05
  | .unsupportedCharacter => 0x06
  | .streamKeyRange => 0x07

/-! ### How a command ends -/

/-- `raise Error(code)`: `LASTERR <- code` and `ERRSEEN <- 1`, and nothing else (R118). This is all that taking an
error is on the HCE: it saves nothing and transfers no control (R124), and there is nothing to return from (R125). -/
def raiseError (c : ErrorCode) (e : Engine) : Engine := { e with lasterr := c.code, errseen := true }

/-- `succeed`: `LASTERR <- 0`, ERRSEEN unchanged (R13, R118). -/
def succeed (e : Engine) : Engine := { e with lasterr := okCode }

/-- The engine after a command that ran on `e` and came to `r`: its new state with LASTERR cleared, or `e` with the
error recorded. So a failing command has no effect of its own (R118). -/
def conclude (e : Engine) : Except ErrorCode Engine → Engine
  | .ok e' => succeed e'
  | .error c => raiseError c e

/-- The end of every command's meaning: the machine goes on, after an error too (R118, R125). -/
def finish (s : State) (r : Except ErrorCode Engine) : Host.Outcome State Fault Refusal :=
  .next { s with engine := conclude s.engine r }

/-! ### Reset (R131, R132) -/

/-- Every field takes its reset value. Both the reset input and SOFTRST do this (R131). -/
def resetEngine (_ : Engine) : Engine := Engine.reset

/-! ### The register window (R22) -/

/-- ID: the bytes "HCE1" (R36). -/
def idWord : Word := 0x48434531

/-- The register at an offset of the window, 0 for CMD and for a reserved offset (R22, R37, R44). -/
def readRegister (e : Engine) (offset : BitVec 8) : Word :=
  match offset.toNat with
  | 0x04 => statusWord e
  | 0x08 => cfgWord e.cfg
  | 0x0C => e.dout.setWidth 32
  | 0x10 => e.sr.extractLsb' 32 32
  | 0x14 => e.sr.extractLsb' 0 32
  | 0x18 => e.ks.extractLsb' 32 32
  | 0x1C => e.ks.extractLsb' 0 32
  | 0x20 => e.bcout.extractLsb' 32 32
  | 0x24 => e.bcout.extractLsb' 0 32
  | 0x28 => e.ivreg.extractLsb' 32 32
  | 0x2C => e.ivreg.extractLsb' 0 32
  | 0x30 => e.key0
  | 0x34 => e.key1
  | 0x38 => e.key2
  | 0x3C => e.key3
  | 0x40 => cfbphWord e
  | 0x44 => akstWord e
  | 0x48 => e.akj
  | 0x4C => e.pos
  | 0x50 => idWord
  | _ => 0

end Sys2Proof.Machine
end

