-- ==== Sys2Proof/Machine/Control.lean ====
section
/-! DEFINITION. The engine control commands NOP, SOFTRST, CLRERR and SETCFG (spec/44_control.md). -/

namespace Sys2Proof.Machine

/-- NOP does nothing but succeed (R113). -/
def execNop (s : State) : Host.Outcome State Fault Refusal := finish s (.ok s.engine)

/-- SOFTRST resets every field, as the reset input does (R114, R131, R132). -/
def execSoftrst (s : State) : Host.Outcome State Fault Refusal := finish s (.ok (resetEngine s.engine))

/-- CLRERR clears ERRSEEN (R115). -/
def execClrerr (s : State) : Host.Outcome State Fault Refusal :=
  finish s (.ok { s.engine with errseen := false })

/-- SETCFG refuses FBW = 0 and FBW > RW of the new mode; otherwise it writes CFG, clears SR, KS, BCOUT and PHASE and
ends every session (R116). -/
def setcfgEffect (c : Cfg) (e : Engine) : Except ErrorCode Engine :=
  if c.fbw = 0 ∨ registerWidth c.mode < c.fbw.toNat then .error .invalidFeedbackWidth
  else .ok (endAllSessions { e with cfg := c, sr := 0, ks := 0, bcout := 0, phase := 0 })

/-- SETCFG mode, rule, strict, fbw (R116). -/
def execSetcfg (mode : Mode) (rule : AkRule) (strict : Bool) (fbw : BitVec 7) (s : State) :
    Host.Outcome State Fault Refusal :=
  finish s (setcfgEffect ⟨mode, rule, strict, fbw⟩ s.engine)

end Sys2Proof.Machine
end

