-- ==== Sys2Proof/Machine/Additive.lean ====
section
/-! DEFINITION. The additive keystream generator over the 26-letter alphabet (spec/42_additive.md): the recurrence (R94),
`ak_advance` (R95), `ak_symbol` (R97), and the commands AKG_LOAD, AKG_ENC and AKG_DEC (R98 to R100). -/

namespace Sys2Proof.Machine

/-- The recurrence `f(a, b)` on residues mod 26: addition or multiplication (R94). -/
def recurrence (rule : AkRule) (a b : Nat) : Nat :=
  match rule with
  | .add => (a + b) % 26
  | .mul => (a * b) % 26

/-- `ak_advance()`: KA takes KB, KB takes f(KB, KA), AKJ counts one letter (R95). -/
def akAdvance (e : Engine) : Engine :=
  { e with
    ka := e.kb
    kb := BitVec.ofNat 5 (recurrence e.cfg.akrule e.kb.toNat e.ka.toNat)
    akj := e.akj + 1 }

/-- A letter index moved by the keystream value: `(idx + KA) mod 26` or `(idx - KA) mod 26`, the least non-negative residue
(R97, R10). -/
def shiftIndex (dir : Direction) (idx : Nat) (k : BitVec 5) : Nat :=
  match dir with
  | .enc => (((idx : Int) + (k.toNat : Int)) % 26).toNat
  | .dec => (((idx : Int) - (k.toNat : Int)) % 26).toNat

/-- `ak_symbol(dir, s)`: a letter is moved by KA, its case kept, and the keystream advances; any other symbol passes
through and consumes no position, or is refused when STRICT = 1 (R97). -/
def akSymbol (dir : Direction) (s : Byte) (e : Engine) : Except ErrorCode (Byte × Engine) :=
  match classify s with
  | .passthrough => if e.cfg.strict then .error .unsupportedCharacter else .ok (s, e)
  | .letter c idx => .ok (letterSymbol c (shiftIndex dir idx e.ka), akAdvance e)

/-- A symbol command's end: DOUT takes the symbol that came out (R99, R100, R107, R108). -/
def putSymbol : Except ErrorCode (Byte × Engine) → Except ErrorCode Engine
  | .ok (b, e) => .ok { e with dout := b }
  | .error c => .error c

/-- The keystream at its start: `KA <- AK0; KB <- AK1; AKJ <- 0` (R98, R106). -/
def startKeystream (e : Engine) : Engine := { e with ka := e.ak0, kb := e.ak1, akj := 0 }

/-- AKG_LOAD refuses keys above 25; otherwise it stores them, restarts the keystream, and ends a hybrid session (R98). -/
def akgLoadEffect (k0 k1 : BitVec 5) (e : Engine) : Except ErrorCode Engine :=
  if 25 < k0.toNat ∨ 25 < k1.toNat then .error .streamKeyRange
  else .ok (startKeystream { e with ak0 := k0, ak1 := k1, akv := true, akrdy := true, hybrdy := false })

/-- AKG_LOAD k0, k1 (R98). -/
def execAkgLoad (k0 k1 : BitVec 5) (s : State) : Host.Outcome State Fault Refusal :=
  finish s (akgLoadEffect k0 k1 s.engine)

/-- AKG_ENC and AKG_DEC need a keystream session and put one symbol through `ak_symbol` (R99, R100). -/
def akgData (dir : Direction) (b : Byte) (e : Engine) : Except ErrorCode Engine :=
  if e.akrdy then putSymbol (akSymbol dir b e) else .error .notInitialised

/-- AKG_ENC b (R99). -/
def execAkgEnc (b : Byte) (s : State) : Host.Outcome State Fault Refusal := finish s (akgData .enc b s.engine)

/-- AKG_DEC b (R100). -/
def execAkgDec (b : Byte) (s : State) : Host.Outcome State Fault Refusal := finish s (akgData .dec b s.engine)

end Sys2Proof.Machine
end

