-- ==== Sys2Proof/Machine/BlockCipher.lean ====
section
/-! DEFINITION. The block-cipher function `E_w` (R69 to R74 of spec/40_block_cipher.md) and the commands CLRKEY, LDKEYB and
BC_ENC (R76 to R78). Arithmetic mod 2^w is the arithmetic of `BitVec w`. -/

namespace Sys2Proof.Machine

/-! ### The block-cipher function -/

/-- What the rounds carry: `sum` and the block halves `v0`, `v1` (R70, R71). -/
structure RoundState (w : Nat) where
  sum : BitVec w
  v0  : BitVec w
  v1  : BitVec w
  deriving DecidableEq, Repr

/-- The four round keys (R69). -/
structure RoundKeys (w : Nat) where
  k0 : BitVec w
  k1 : BitVec w
  k2 : BitVec w
  k3 : BitVec w
  deriving DecidableEq, Repr

/-- The value added to a block half: `((v << SHL) + ka) ^ (v + sum) ^ ((v >> SHR) + kb)`, all mod 2^w (R71, R72). -/
def roundTerm {w : Nat} (p : Config.CipherParams) (v sum ka kb : BitVec w) : BitVec w :=
  ((v <<< p.shl) + ka) ^^^ (v + sum) ^^^ ((v >>> p.shr) + kb)

/-- One round: the new sum, then v0 from v1, then v1 from the new v0 (R71, R14: sequential, not parallel). -/
def feistelRound {w : Nat} (p : Config.CipherParams) (delta : BitVec w) (k : RoundKeys w) (r : RoundState w) :
    RoundState w :=
  let sum := r.sum + delta
  let v0 := r.v0 + roundTerm p r.v1 sum k.k0 k.k1
  let v1 := r.v1 + roundTerm p v0 sum k.k2 k.k3
  ⟨sum, v0, v1⟩

/-- `n` rounds, one after the other (R71). -/
def feistelRounds {w : Nat} (p : Config.CipherParams) (delta : BitVec w) (k : RoundKeys w) :
    Nat → RoundState w → RoundState w
  | 0, r => r
  | n + 1, r => feistelRounds p delta k n (feistelRound p delta k r)

/-- `k_i = KEYi mod 2^w` (R69). -/
def roundKeys (w : Nat) (e : Engine) : RoundKeys w :=
  ⟨e.key0.setWidth w, e.key1.setWidth w, e.key2.setWidth w, e.key3.setWidth w⟩

/-- The halves of a block: v0 the upper, v1 the lower (R70), with `sum` at its start (R71). -/
def splitBlock (w : Nat) (x : DWord) : RoundState w := ⟨0, x.extractLsb' w w, x.extractLsb' 0 w⟩

/-- `{v0, v1}_w`, the joined block, in a 64-bit register (R70). -/
def joinBlock {w : Nat} (r : RoundState w) : DWord := (r.v0 ++ r.v1).setWidth 64

/-- `E_w(x)` for a width, its round constant and its round keys (R71). -/
def encryptBlock {w : Nat} (p : Config.CipherParams) (delta : BitVec w) (k : RoundKeys w) (x : DWord) : DWord :=
  joinBlock (feistelRounds p delta k Config.rounds (splitBlock w x))

/-- `E_w(x)` under the parameters of a machine and the mode and key of its engine (R71, R8). -/
def blockCipher (p : Config.CipherParams) (e : Engine) (x : DWord) : DWord :=
  match e.cfg.mode with
  | .byte => encryptBlock p p.delta32 (roundKeys 32 e) x
  | .toy => encryptBlock p p.delta5 (roundKeys 5 e) x

/-! ### Commands -/

/-- CLRKEY clears the key and ends the CFB and hybrid sessions (R76). -/
def execClrkey (s : State) : Host.Outcome State Fault Refusal :=
  finish s (.ok (endCfbSessions { s.engine with key0 := 0, key1 := 0, key2 := 0, key3 := 0, keycnt := 0 }))

/-- `KEYi[8j+7:8j] <- BYTE` with `i = KEYCNT div 4` and `j = 3 - (KEYCNT mod 4)`, while KEYCNT < 16 (R77). -/
def storeKeyByte (b : Byte) (e : Engine) : Engine :=
  let j := 3 - e.keycnt.toNat % 4
  match e.keycnt.toNat / 4 with
  | 0 => { e with key0 := setByteLane e.key0 j b }
  | 1 => { e with key1 := setByteLane e.key1 j b }
  | 2 => { e with key2 := setByteLane e.key2 j b }
  | 3 => { e with key3 := setByteLane e.key3 j b }
  | _ => e

/-- LDKEYB b appends one key byte, counts it, and ends the CFB and hybrid sessions (R77). -/
def execLdkeyb (b : Byte) (s : State) : Host.Outcome State Fault Refusal :=
  finish s (.ok (endCfbSessions { storeKeyByte b s.engine with keycnt := nextKeyCount s.engine.keycnt }))

/-- BC_ENC needs a whole key and writes `E_w(SR)` to BCOUT (R78). -/
def bcEncEffect (p : Config.CipherParams) (e : Engine) : Except ErrorCode Engine :=
  if keyOk e then .ok { e with bcout := blockCipher p e e.sr } else .error .invalidKeyLength

/-- BC_ENC (R78). -/
def execBcEnc (s : State) : Host.Outcome State Fault Refusal := finish s (bcEncEffect s.params s.engine)

end Sys2Proof.Machine
end

