-- ==== Sys2Proof/Machine/Cfb.lean ====
section
/-! DEFINITION. The feedback-shift (CFB) unit (spec/41_cfb.md): the per-bit step `cfb_bit` (R84), bit streams (R88, R89), and
the commands CLRIV, LDIVB, CFB_INIT, CFB_ENC and CFB_DEC (R81 to R83, R86, R87). -/

namespace Sys2Proof.Machine

/-! ### The per-bit step (R84) -/

/-- `KS[RW - 1 - PHASE]`, the next of the c most significant bits. Where PHASE names no bit of the register (no
state reached from reset, R39) it is a free value (log 5). -/
def keystreamBit (mode : Mode) (ks : DWord) (phase : BitVec 7) : Bool :=
  if phase.toNat < registerWidth mode then ks.getLsbD (registerWidth mode - 1 - phase.toNat)
  else Config.keystreamBitBeyond ks phase

/-- `(PHASE + 1) mod c`. For c = 0 (no state reached from reset, R39) it is a free value (log 4). -/
def nextPhase (fbw phase : BitVec 7) : BitVec 7 :=
  if fbw = 0 then Config.phaseModZero phase else BitVec.ofNat 7 ((phase.toNat + 1) % fbw.toNat)

/-- The latched cipher output a bit uses: a new `E_w(SR)` at the start of a chunk, else KS as it stands (R84, R28). -/
def chunkKeystream (p : Config.CipherParams) (e : Engine) : DWord :=
  if e.phase = 0 then blockCipher p e e.sr else e.ks

/-- `((SR << 1) | fb) mod 2^RW` (R84). -/
def shiftIn (mode : Mode) (sr : DWord) (fb : Bool) : DWord :=
  modRegister mode ((sr <<< 1) ||| (BitVec.ofBool fb).setWidth 64)

/-- The ciphertext-side bit: the outgoing bit when encrypting, the incoming one when decrypting (R84). -/
def feedbackBit : Direction → Bool → Bool → Bool
  | .enc, _, o => o
  | .dec, b, _ => b

/-- `cfb_bit(dir, b)`: the outgoing bit, and the engine with KS, SR and PHASE moved on (R84). -/
def cfbBit (p : Config.CipherParams) (dir : Direction) (b : Bool) (e : Engine) : Bool × Engine :=
  let ks := chunkKeystream p e
  let o := b ^^ keystreamBit e.cfg.mode ks e.phase
  (o, { e with
    ks := ks
    sr := shiftIn e.cfg.mode e.sr (feedbackBit dir b o)
    phase := nextPhase e.cfg.fbw e.phase })

/-- A stream of bits, each in its own direction, in stream order: the outgoing bits and the last engine. The unit keeps
no direction state (R88), and this is the only way bits are processed (R89). -/
def cfbStream (p : Config.CipherParams) : List (Direction × Bool) → Engine → List Bool × Engine
  | [], e => ([], e)
  | (dir, b) :: rest, e =>
    let (o, e₁) := cfbBit p dir b e
    let (os, e₂) := cfbStream p rest e₁
    (o :: os, e₂)

/-- Bits that all go in one direction. -/
def cfbBits (p : Config.CipherParams) (dir : Direction) (bits : List Bool) (e : Engine) : List Bool × Engine :=
  cfbStream p (bits.map fun b => (dir, b)) e

/-- How many block-cipher calls the bits of a stream make: one for each bit that meets PHASE = 0 (R84, R137). -/
def cipherCalls (p : Config.CipherParams) : List (Direction × Bool) → Engine → Nat
  | [], _ => 0
  | (dir, b) :: rest, e => (if e.phase = 0 then 1 else 0) + cipherCalls p rest (cfbBit p dir b e).2

/-! ### IV and session commands -/

/-- CLRIV clears the IV and ends the CFB and hybrid sessions; SR stays readable (R81). -/
def execClriv (s : State) : Host.Outcome State Fault Refusal :=
  finish s (.ok (endCfbSessions { s.engine with ivreg := 0, ivcnt := 0 }))

/-- LDIVB b shifts one byte into IVREG, counts it, and ends the CFB and hybrid sessions (R82). -/
def execLdivb (b : Byte) (s : State) : Host.Outcome State Fault Refusal :=
  finish s (.ok (endCfbSessions { s.engine with
    ivreg := (s.engine.ivreg <<< 8) ||| b.setWidth 64
    ivcnt := nextIvCount s.engine.ivcnt }))

/-- `SR <- IVVAL; KS <- 0; PHASE <- 0`: the CFB half starts from the IV (R83, R106). -/
def startCfb (e : Engine) : Engine := { e with sr := ivVal e, ks := 0, phase := 0 }

/-- CFB_INIT checks the key, then the IV, and starts a CFB session; a hybrid session ends (R83). -/
def cfbInitEffect (e : Engine) : Except ErrorCode Engine :=
  if keyOk e then
    if ivOk e then .ok { startCfb e with cfbrdy := true, hybrdy := false }
    else .error .invalidIvLength
  else .error .invalidKeyLength

/-- CFB_INIT (R83). -/
def execCfbInit (s : State) : Host.Outcome State Fault Refusal := finish s (cfbInitEffect s.engine)

/-! ### Data commands -/

/-- CFB_ENC and CFB_DEC: N > 8 is illegal (no decoded word has it, R65), a session is needed, the N bits go through
`cfb_bit` first bit first, and DOUT takes the outgoing bits if there are any (R86, R87). -/
def cfbData (p : Config.CipherParams) (dir : Direction) (n : BitVec 4) (d : Byte) (e : Engine) :
    Except ErrorCode Engine :=
  if legalBitCount n then
    if e.cfbrdy then
      let (out, e') := cfbBits p dir (dataBits n.toNat d) e
      .ok (if n = 0 then e' else { e' with dout := packBits 8 out })
    else .error .notInitialised
  else .error .illegalCommand

/-- CFB_ENC n, d (R86). -/
def execCfbEnc (n : BitVec 4) (d : Byte) (s : State) : Host.Outcome State Fault Refusal :=
  finish s (cfbData s.params .enc n d s.engine)

/-- CFB_DEC n, d (R87). -/
def execCfbDec (n : BitVec 4) (d : Byte) (s : State) : Host.Outcome State Fault Refusal :=
  finish s (cfbData s.params .dec n d s.engine)

end Sys2Proof.Machine
end

