-- ==== Sys2Proof/Machine/Hybrid.lean ====
section
/-! DEFINITION. The hybrid parity combiner (spec/43_hybrid.md): routing by position (R103), `hyb_symbol` (R104), and the
commands HYB_INIT, HYB_ENC and HYB_DEC (R106 to R108). It runs in whatever mode CFG holds (R105). -/

namespace Sys2Proof.Machine

/-- Whether the next hybrid symbol goes to the CFB unit: `POS mod 2 = 1` (R103). -/
def oddPosition (e : Engine) : Bool := e.pos.toNat % 2 == 1

/-- `POS <- (POS + 1) mod 2^32` (R104). -/
def advancePosition (e : Engine) : Engine := { e with pos := e.pos + 1 }

/-- One byte through the CFB unit, most significant bit first (R104, R15). -/
def cfbByte (p : Config.CipherParams) (dir : Direction) (b : Byte) (e : Engine) : Byte × Engine :=
  let (out, e') := cfbBits p dir (dataBits 8 b) e
  (packBits 8 out, e')

/-- `hyb_symbol(dir, s)`: the CFB unit at an odd position, which cannot fail; the keystream generator at an even one,
where a refused symbol leaves POS too as it is (R104). -/
def hybSymbol (p : Config.CipherParams) (dir : Direction) (b : Byte) (e : Engine) :
    Except ErrorCode (Byte × Engine) :=
  if oddPosition e then
    let (o, e') := cfbByte p dir b e
    .ok (o, advancePosition e')
  else
    match akSymbol dir b e with
    | .ok (o, e') => .ok (o, advancePosition e')
    | .error c => .error c

/-- HYB_INIT checks the key, the IV and the stream keys, then restarts both halves and the position and makes all
three sessions ready (R106). -/
def hybInitEffect (e : Engine) : Except ErrorCode Engine :=
  if keyOk e then
    if ivOk e then
      if e.akv then
        .ok { startKeystream (startCfb e) with pos := 1, cfbrdy := true, akrdy := true, hybrdy := true }
      else .error .notInitialised
    else .error .invalidIvLength
  else .error .invalidKeyLength

/-- HYB_INIT (R106). -/
def execHybInit (s : State) : Host.Outcome State Fault Refusal := finish s (hybInitEffect s.engine)

/-- HYB_ENC and HYB_DEC need a hybrid session and put one symbol through `hyb_symbol` (R107, R108). -/
def hybData (p : Config.CipherParams) (dir : Direction) (b : Byte) (e : Engine) : Except ErrorCode Engine :=
  if e.hybrdy then putSymbol (hybSymbol p dir b e) else .error .notInitialised

/-- HYB_ENC b (R107). -/
def execHybEnc (b : Byte) (s : State) : Host.Outcome State Fault Refusal :=
  finish s (hybData s.params .enc b s.engine)

/-- HYB_DEC b (R108). -/
def execHybDec (b : Byte) (s : State) : Host.Outcome State Fault Refusal :=
  finish s (hybData s.params .dec b s.engine)

end Sys2Proof.Machine
end

