-- ==== Sys2Proof/Machine/Dispatch.lean ====
section
/-! DEFINITION. One arm for each command: the meaning it calls. -/

namespace Sys2Proof.Machine

def exec (i : Instr) (s : State) : Host.Outcome State Fault Refusal :=
  match i with
  | .nop => Sys2Proof.Machine.execNop s
  | .softrst => Sys2Proof.Machine.execSoftrst s
  | .clrerr => Sys2Proof.Machine.execClrerr s
  | .setcfg mode rule strict fbw => Sys2Proof.Machine.execSetcfg mode rule strict fbw s
  | .clrkey => Sys2Proof.Machine.execClrkey s
  | .ldkeyb b => Sys2Proof.Machine.execLdkeyb b s
  | .bcEnc => Sys2Proof.Machine.execBcEnc s
  | .clriv => Sys2Proof.Machine.execClriv s
  | .ldivb b => Sys2Proof.Machine.execLdivb b s
  | .cfbInit => Sys2Proof.Machine.execCfbInit s
  | .cfbEnc n d => Sys2Proof.Machine.execCfbEnc n d s
  | .cfbDec n d => Sys2Proof.Machine.execCfbDec n d s
  | .akgLoad k0 k1 => Sys2Proof.Machine.execAkgLoad k0 k1 s
  | .akgEnc b => Sys2Proof.Machine.execAkgEnc b s
  | .akgDec b => Sys2Proof.Machine.execAkgDec b s
  | .hybInit => Sys2Proof.Machine.execHybInit s
  | .hybEnc b => Sys2Proof.Machine.execHybEnc b s
  | .hybDec b => Sys2Proof.Machine.execHybDec b s

end Sys2Proof.Machine
end

