-- ==== Sys2Proof/Machine/Bus.lean ====
section
/-! DEFINITION. The host's side of the HCE: executing a command word (R23, R65), the two bus transactions with their
check (R44, R45), the reset input (R131), and the informative signals of R138 read as inputs. -/

namespace Sys2Proof.Machine

/-- Executing a command word: the decoded command's meaning, or ILLEGAL_COMMAND where the word is none (R65, R66). -/
def executeWord (v : Word) (s : State) : Host.Outcome State Fault Refusal :=
  match decode v with
  | .ok i => exec i s
  | .error _ => finish s (.error .illegalCommand)

/-- The offset of CMD (R22, R23). -/
def cmdOffset : BitVec 8 := 0x00

/-- A transaction is accepted when it is 32 bits wide at a word-aligned offset (R45). Every offset of 8 bits is in the
window (R43). -/
def busAccepts (offset : BitVec 8) (size : BusSize) : Bool :=
  size == .bits32 && offset.toNat % 4 == 0

/-- The bus answers a transaction. -/
def respond (r : BusResponse) (s : State) : State := { s with responses := s.responses ++ [r] }

/-- HostRead: the value of the register, or BUSERR; no HCE state changes (R44, R45, R48). -/
def hostRead (offset : BitVec 8) (size : BusSize) (s : State) : Host.Outcome State Fault Refusal :=
  if busAccepts offset size then .next (respond (.readValue (readRegister s.engine offset)) s)
  else .next (respond .busErr s)

/-- HostWrite: a write to CMD executes the word, any other write changes nothing, and a bad one gets BUSERR (R44,
R45, R37). The command's effects are complete when the write is (R23). -/
def hostWrite (offset : BitVec 8) (size : BusSize) (v : Word) (s : State) : Host.Outcome State Fault Refusal :=
  if busAccepts offset size then
    if offset = cmdOffset then executeWord v (respond .writeDone s)
    else .next (respond .writeDone s)
  else .next (respond .busErr s)

/-- What the machine does with one input: a transaction, the reset input (R131), or a transaction that overlaps the reset
input, for which the model has no transition (R131; log 6). -/
def serve (input : HostInput) (s : State) : Host.Outcome State Fault Refusal :=
  match input with
  | .transaction (.read offset size) => hostRead offset size s
  | .transaction (.write offset size v) => hostWrite offset size v s
  | .reset => .next { s with engine := resetEngine s.engine }
  | .resetOverlapping _ => .refused .transactionOverlapsReset

/-! ### The signals of R138 (informative) -/

/-- The input signals of R138, less `clk` (untimed, R137). -/
structure Signals where
  rst   : Bool
  sel   : Bool
  write : Bool
  addr  : BitVec 8
  size  : BitVec 2
  wdata : Word
  deriving DecidableEq, Repr

/-- `size[1:0]`: 0 = 8, 1 = 16, 2 = 32, 3 = 64 bits (R138). -/
def busSizeOfSignal (size : BitVec 2) : BusSize :=
  if size = 0 then .bits8 else if size = 1 then .bits16 else if size = 2 then .bits32 else .bits64

/-- The transaction the signals carry (R138). -/
def signalTransaction (g : Signals) : Transaction :=
  if g.write then .write g.addr (busSizeOfSignal g.size) g.wdata
  else .read g.addr (busSizeOfSignal g.size)

/-- The signals as an input of the model: `rst` alone is the reset input, `sel` alone a transaction, both a transaction
that overlaps the reset, neither no input (R131, R138; log 10). -/
def signalInput (g : Signals) : Option HostInput :=
  match g.rst, g.sel with
  | true, true => some (.resetOverlapping (signalTransaction g))
  | true, false => some .reset
  | false, true => some (.transaction (signalTransaction g))
  | false, false => none

/-- The signal `err`: BUSERR (R138). -/
def signalErr : BusResponse → Bool
  | .busErr => true
  | .readValue _ => false
  | .writeDone => false

/-- The signal `rdata`, where a read returns a value (R45, R138). -/
def signalRdata : BusResponse → Option Word
  | .readValue v => some v
  | .writeDone => none
  | .busErr => none

end Sys2Proof.Machine
end

