-- ==== Sys2Proof/Machine/Step.lean ====
section
/-! DEFINITION. One step of the machine: it takes the next input and serves it completely (R51, R130 of the spec). -/

namespace Sys2Proof.Machine

/-- One step. With no input waiting the HCE is idle and holds its state (R128, R133); otherwise the next input takes
effect completely before the one after it begins (R51). -/
def step (s : State) : Host.Outcome State Fault Refusal :=
  match s.inputs with
  | [] => .next s
  | input :: rest => serve input { s with inputs := rest }

/-- `s` with the host about to write the table word `w` to CMD, before anything else it will do: the HCE takes each
command word from the write's data (R54), so this is where the next command comes from (log 2). -/
def State.withFetchWord (s : State) (nbits w : Nat) : State :=
  { s with inputs := .transaction (.write cmdOffset .bits32 (tableWord nbits w)) :: s.inputs }

end Sys2Proof.Machine
end

