-- ==== Sys2Proof/Safety.lean ====
section
/-! DEFINITION. The words claims are made in: the invariants of every state reached from reset (R39 of spec/10_state.md), runs
and what is observed of them (R130), and a message as the host sends it (R121, R129). -/

namespace Sys2Proof.Safety

open Sys2Proof.Machine

/-! ### The invariants of R39 -/

/-- R39, 1: `1 ≤ CFG.FBW ≤ RW(CFG.MODE)`. -/
abbrev FbwLegal (e : Engine) : Prop := 1 ≤ e.cfg.fbw.toNat ∧ e.cfg.fbw.toNat ≤ registerWidth e.cfg.mode

/-- R39, 2: `0 ≤ PHASE < CFG.FBW`. -/
abbrev PhaseInChunk (e : Engine) : Prop := e.phase.toNat < e.cfg.fbw.toNat

/-- R39, 3: SR, KS and BCOUT are below `2^RW(CFG.MODE)`. -/
abbrev RegistersFit (e : Engine) : Prop :=
  e.sr.toNat < 2 ^ registerWidth e.cfg.mode ∧ e.ks.toNat < 2 ^ registerWidth e.cfg.mode ∧
    e.bcout.toNat < 2 ^ registerWidth e.cfg.mode

/-- R39, 4: `AK0, AK1, KA, KB ≤ 25`. -/
abbrev KeysAreResidues (e : Engine) : Prop :=
  e.ak0.toNat ≤ 25 ∧ e.ak1.toNat ≤ 25 ∧ e.ka.toNat ≤ 25 ∧ e.kb.toNat ≤ 25

/-- R39, 5 to 7: what the ready flags imply. -/
abbrev FlagsConsistent (e : Engine) : Prop :=
  (e.hybrdy = true → e.cfbrdy = true ∧ e.akrdy = true) ∧ (e.akrdy = true → e.akv = true) ∧
    (e.cfbrdy = true → keyOk e = true ∧ ivOk e = true)

/-- The invariants of R39, 1 to 7. -/
abbrev EngineInv (e : Engine) : Prop :=
  FbwLegal e ∧ PhaseInChunk e ∧ RegistersFit e ∧ KeysAreResidues e ∧ FlagsConsistent e

/-- LASTERR is one of the codes 0x00 to 0x07 (R117; item 11 of spec/93_implementation_defined.md). -/
abbrev ResultCodeKnown (e : Engine) : Prop := e.lasterr.toNat ≤ 7

/-- The invariants of the machine. -/
abbrev Inv (s : State) : Prop := EngineInv s.engine ∧ ResultCodeKnown s.engine

/-! ### Runs (R130) -/

/-- A run of the machine with the parameters `p`: the state after a reset and then the inputs, in order (R130, R8). -/
def hostRun (p : Config.CipherParams) (inputs : List HostInput) : Host.Outcome State Fault Refusal :=
  Sys2Proof.core.run inputs.length { State.resetWith p with inputs := inputs }

/-- What is observed of a run: the values its reads returned, in order (R130). -/
def observed (s : State) : List Word := s.responses.filterMap signalRdata

/-! ### Messages (R121, R129) -/

/-- Commands in order, each run on the state the one before it left. -/
def execAll : List Instr → State → Host.Outcome State Fault Refusal
  | [], s => .next s
  | i :: is, s =>
    match exec i s with
    | .next t => execAll is t
    | .fault r => .fault r
    | .refused r => .refused r

/-- A message as the host sends it: one command for each symbol, DOUT read after each, LASTERR checked after each, and all
of the output discarded when a command fails (R129). The outputs in order, and the last state. -/
def hostMessage (command : Byte → Instr) : List Byte → State → Option (List Byte × State)
  | [], s => some ([], s)
  | b :: rest, s =>
    match exec (command b) s with
    | .next t =>
      if t.engine.lasterr = okCode then
        match hostMessage command rest t with
        | some (out, u) => some (t.engine.dout :: out, u)
        | none => none
      else none
    | .fault _ => none
    | .refused _ => none

/-- The stream bits of a CFB data command, each in the command's direction, first bit first (R86, R87); none for any other
command. -/
def streamBits : Instr → List (Direction × Bool)
  | .cfbEnc n d => (dataBits n.toNat d).map fun b => (.enc, b)
  | .cfbDec n d => (dataBits n.toNat d).map fun b => (.dec, b)
  | _ => []

/-- How many stream bits a command takes. -/
def streamLength (i : Instr) : Nat := (streamBits i).length

/-- A session of data commands as the host drives it: it reads the N output bits from DOUT after each command and checks
LASTERR (R92, R129). The output bits in stream order, and the last state. -/
def cfbSession : List Instr → State → Option (List Bool × State)
  | [], s => some ([], s)
  | i :: rest, s =>
    match exec i s with
    | .next t =>
      if t.engine.lasterr = okCode then
        match cfbSession rest t with
        | some (out, u) => some (dataBits (streamLength i) t.engine.dout ++ out, u)
        | none => none
      else none
    | .fault _ => none
    | .refused _ => none

/-- A symbol is a letter (R16). -/
def isLetter (b : Byte) : Bool :=
  match classify b with
  | .letter _ _ => true
  | .passthrough => false

/-- The symbols of a message whose first symbol has an odd position: those at odd positions (R103, R109). -/
def oddPositions : List Byte → List Byte
  | [] => []
  | [b] => [b]
  | b :: _ :: rest => b :: oddPositions rest

/-- Those at even positions (R103, R109). -/
def evenPositions : List Byte → List Byte
  | [] => []
  | [_] => []
  | _ :: b :: rest => b :: evenPositions rest

/-- The host's check of a message before its first HYB_ENC under STRICT: every even-position symbol is a letter (R121). -/
def evenPositionsAreLetters (m : List Byte) : Bool := (evenPositions m).all isLetter

end Sys2Proof.Safety
end

