-- ==== Sys2Proof/Certificates/Slice0/Reference.lean ====
section
/-! DEFINITION. What the statements compare the machine with: the spec's own tables and pseudocode written out once more,
over plain numbers and apart from the model's definitions. -/

namespace Sys2Proof.Reference

open Sys2Proof.Machine

/-! ### Ends of a command (R118) -/

/-- The state after a command that failed with a code: only LASTERR and ERRSEEN differ (R118). -/
def failed (code : Byte) (s : State) : State :=
  { s with engine := { s.engine with lasterr := code, errseen := true } }

/-- Every word of an opcode with a must-be-zero bit set ends in ILLEGAL_COMMAND and does nothing else (R65). -/
def MbzBitsIllegal (opc : Nat) (mask word : Word) : Prop :=
  ∀ (v : Word) (s : State), v.toNat / 2 ^ 24 = opc → v &&& mask ≠ word →
    executeWord v s = .next (failed 0x01 s)

/-! ### The opcode map (R64, R66) -/

/-- The match and mask columns of R64, in its order. -/
def rows : List (Word × Word) :=
  [(0x00000000, 0xFFFFFFFF), (0x01000000, 0xFFFFFFFF), (0x02000000, 0xFFFFFFFF), (0x03000000, 0xFFFF80F8),
   (0x10000000, 0xFFFFFFFF), (0x11000000, 0xFFFFFF00), (0x12000000, 0xFFFFFFFF)] ++
  [(0x20000000, 0xFFFFFFFF), (0x21000000, 0xFFFFFF00), (0x22000000, 0xFFFFFFFF), (0x23000000, 0xFFFFF000),
   (0x24000000, 0xFFFFF000)] ++
  [(0x30000000, 0xFFFFE0E0), (0x31000000, 0xFFFFFF00), (0x32000000, 0xFFFFFF00), (0x40000000, 0xFFFFFFFF),
   (0x41000000, 0xFFFFFF00), (0x42000000, 0xFFFFFF00)]

/-- The reserved opcodes of R66: 0x04–0x0F, 0x13–0x1F, 0x25–0x2F, 0x33–0x3F and 0x43–0xFF. -/
def reservedOpcode (opc : Nat) : Bool :=
  decide (0x04 ≤ opc ∧ opc ≤ 0x0F) || decide (0x13 ≤ opc ∧ opc ≤ 0x1F) || decide (0x25 ≤ opc ∧ opc ≤ 0x2F) ||
    decide (0x33 ≤ opc ∧ opc ≤ 0x3F) || decide (0x43 ≤ opc ∧ opc ≤ 0xFF)

/-- An assigned opcode with a must-be-zero bit set: no row of R64 matches the word. -/
def noRowMatches (v : Word) : Bool := rows.all fun r => decide (v &&& r.2 ≠ r.1)

/-- Format D (opcodes 0x23 and 0x24) with N = v[11:8] > 8. -/
def bitCountIllegal (v : Word) : Bool :=
  decide ((v.toNat / 2 ^ 24 = 0x23 ∨ v.toNat / 2 ^ 24 = 0x24) ∧ 8 < v.toNat / 2 ^ 8 % 2 ^ 4)

/-- The illegal words of R66. -/
def illegalWord (v : Word) : Bool :=
  reservedOpcode (v.toNat / 2 ^ 24) || noRowMatches v || bitCountIllegal v

/-! ### Result codes and flags (R119, R38) -/

/-- RW(MODE) (R19). -/
def widthOf (m : Mode) : Nat := if m = .byte then 64 else 10

/-- A letter (R16). -/
def isLetterCode (b : Byte) : Bool :=
  decide (0x41 ≤ b.toNat ∧ b.toNat ≤ 0x5A) || decide (0x61 ≤ b.toNat ∧ b.toNat ≤ 0x7A)

/-- IVOK (R79). -/
def ivLengthOk (e : Engine) : Bool :=
  if e.cfg.mode = .byte then decide (e.ivcnt.toNat = 8) else decide (1 ≤ e.ivcnt.toNat)

/-- The code of CFB_INIT's checks, in order (R119). -/
def keyIvCode (e : Engine) : Byte :=
  if e.keycnt.toNat ≠ 16 then 0x02 else if ivLengthOk e = false then 0x03 else 0x00

/-- The code of a data command of a session that may refuse a symbol (R119). -/
def symbolCode (ready refusing : Bool) (b : Byte) : Byte :=
  if ready = false then 0x04 else if refusing && !isLetterCode b then 0x06 else 0x00

/-- The result code of a command in a state: the first check that fails in the order of R119, 0x00 if none does. A count above
8 is ILLEGAL_COMMAND, as from decode. -/
def resultCode (i : Instr) (e : Engine) : Byte :=
  match i with
  | .nop => 0x00
  | .softrst => 0x00
  | .clrerr => 0x00
  | .setcfg m _ _ c => if c.toNat = 0 ∨ widthOf m < c.toNat then 0x05 else 0x00
  | .clrkey => 0x00
  | .ldkeyb _ => 0x00
  | .bcEnc => if e.keycnt.toNat ≠ 16 then 0x02 else 0x00
  | .clriv => 0x00
  | .ldivb _ => 0x00
  | .cfbInit => keyIvCode e
  | .cfbEnc n _ => if 8 < n.toNat then 0x01 else symbolCode e.cfbrdy false 0
  | .cfbDec n _ => if 8 < n.toNat then 0x01 else symbolCode e.cfbrdy false 0
  | .akgLoad k0 k1 => if 25 < k0.toNat ∨ 25 < k1.toNat then 0x07 else 0x00
  | .akgEnc b => symbolCode e.akrdy e.cfg.strict b
  | .akgDec b => symbolCode e.akrdy e.cfg.strict b
  | .hybInit => if keyIvCode e ≠ 0x00 then keyIvCode e else if e.akv = false then 0x04 else 0x00
  | .hybEnc b => symbolCode e.hybrdy (decide (e.pos.toNat % 2 = 0) && e.cfg.strict) b
  | .hybDec b => symbolCode e.hybrdy (decide (e.pos.toNat % 2 = 0) && e.cfg.strict) b

/-- The flags of R38's table. -/
structure Flags where
  cfbrdy  : Bool
  akrdy   : Bool
  hybrdy  : Bool
  akv     : Bool
  errseen : Bool
  deriving DecidableEq, Repr

/-- The flags of an engine. -/
def flagsOf (e : Engine) : Flags := ⟨e.cfbrdy, e.akrdy, e.hybrdy, e.akv, e.errseen⟩

/-- The flags after a command that succeeded: the rows of R38. -/
def flagsAfter (i : Instr) (f : Flags) : Flags :=
  match i with
  | .softrst => ⟨false, false, false, false, false⟩
  | .setcfg _ _ _ _ => { f with cfbrdy := false, akrdy := false, hybrdy := false }
  | .clrkey => { f with cfbrdy := false, hybrdy := false }
  | .ldkeyb _ => { f with cfbrdy := false, hybrdy := false }
  | .clriv => { f with cfbrdy := false, hybrdy := false }
  | .ldivb _ => { f with cfbrdy := false, hybrdy := false }
  | .cfbInit => { f with cfbrdy := true, hybrdy := false }
  | .akgLoad _ _ => { f with akrdy := true, hybrdy := false, akv := true }
  | .hybInit => { f with cfbrdy := true, akrdy := true, hybrdy := true }
  | .clrerr => { f with errseen := false }
  | .nop => f
  | .bcEnc => f
  | .cfbEnc _ _ => f
  | .cfbDec _ _ => f
  | .akgEnc _ => f
  | .akgDec _ => f
  | .hybEnc _ => f
  | .hybDec _ => f

/-! ### The block cipher, over numbers (R71) -/

/-- `(((v << SHL) mod M + a) mod M) ^ ((v + sum) mod M) ^ (((v >> SHR) + b) mod M)`. -/
def halfTerm (m shl shr v sum a b : Nat) : Nat :=
  ((v * 2 ^ shl % m + a) % m) ^^^ ((v + sum) % m) ^^^ ((v / 2 ^ shr + b) % m)

/-- The body of R71's loop, on (sum, v0, v1). -/
def cipherRound (m delta shl shr k0 k1 k2 k3 : Nat) (r : Nat × Nat × Nat) : Nat × Nat × Nat :=
  let sum := (r.1 + delta) % m
  let v0 := (r.2.1 + halfTerm m shl shr r.2.2 sum k0 k1) % m
  let v1 := (r.2.2 + halfTerm m shl shr v0 sum k2 k3) % m
  (sum, v0, v1)

/-- `E_w(x)` of R71 with R = 32. -/
def cipher (w delta shl shr k0 k1 k2 k3 x : Nat) : Nat :=
  let m := 2 ^ w
  let r := Nat.repeat (cipherRound m delta shl shr (k0 % m) (k1 % m) (k2 % m) (k3 % m)) 32 (0, x / m % m, x % m)
  r.2.1 * m + r.2.2

/-! ### Bits (R84 to R86) -/

/-- `for i = N-1 down to 0: out[i] <- cfb_bit(dir, DATA[i])`, from `out` and an engine, on a machine with the parameters `p`
(R86, R104). -/
def dataLoop (p : Config.CipherParams) (dir : Direction) (d : Byte) : Nat → Byte × Engine → Byte × Engine
  | 0, r => r
  | i + 1, (out, e) =>
    let (o, e') := cfbBit p dir (d.getLsbD i) e
    dataLoop p dir d i (if o then out ||| ((1 : Byte) <<< i) else out, e')

/-- A list of bits as a number, the first bit most significant (R85). -/
def bitsNumber (bits : List Bool) : Nat := bits.foldl (fun acc b => 2 * acc + b.toNat) 0

/-- The ciphertext-side bits of a stream (R17, R84): the outgoing bit where it encrypts, the incoming bit where it decrypts. -/
def ciphertextSide : List (Direction × Bool) → List Bool → List Bool
  | (.enc, _) :: xs, o :: os => o :: ciphertextSide xs os
  | (.dec, b) :: xs, _ :: os => b :: ciphertextSide xs os
  | _, _ => []

/-- The command of a direction: CFB_ENC or CFB_DEC. -/
def cfbCommand (dir : Direction) (n : BitVec 4) (d : Byte) : Instr :=
  match dir with
  | .enc => .cfbEnc n d
  | .dec => .cfbDec n d

/-- The command of a direction: AKG_ENC or AKG_DEC. -/
def akgCommand (dir : Direction) (b : Byte) : Instr :=
  match dir with
  | .enc => .akgEnc b
  | .dec => .akgDec b

/-- The command of a direction: HYB_ENC or HYB_DEC. -/
def hybCommand (dir : Direction) (b : Byte) : Instr :=
  match dir with
  | .enc => .hybEnc b
  | .dec => .hybDec b

/-! ### The keystream (R94, R96) -/

/-- f of R94. -/
def nextTerm (rule : AkRule) (a b : Nat) : Nat := if rule = .add then (a + b) % 26 else a * b % 26

/-- `base(case) + ((idx + KA) mod 26)` or `base(case) + ((idx - KA) mod 26)` with `idx = s - base(case)` (R97). KA has 5 bits,
so adding 52 keeps the difference non-negative and its residue the same. -/
def movedLetter (dir : Direction) (base : Nat) (b : Byte) (k : BitVec 5) : Byte :=
  match dir with
  | .enc => BitVec.ofNat 8 (base + (b.toNat - base + k.toNat) % 26)
  | .dec => BitVec.ofNat 8 (base + (b.toNat - base + 52 - k.toNat) % 26)

/-- A letter of the case with this base (R93). -/
def LetterOfBase (base : Nat) (b : Byte) : Prop :=
  (base = 0x41 ∨ base = 0x61) ∧ base ≤ b.toNat ∧ b.toNat ≤ base + 25

/-- The pair `(k[i], k[i+1])` of `k[0] = k0, k[1] = k1, k[i] = f(k[i-1], k[i-2])` (R96). -/
def keystreamPair (rule : AkRule) (k0 k1 : Nat) : Nat → Nat × Nat
  | 0 => (k0, k1)
  | i + 1 =>
    let (a, b) := keystreamPair rule k0 k1 i
    (b, nextTerm rule b a)

/-- `k[i]` (R96). -/
def keystream (rule : AkRule) (k0 k1 i : Nat) : Nat := (keystreamPair rule k0 k1 i).1

/-- A ready keystream generator stands at position j of the keystream of its own keys: KA = k[j], KB = k[j+1], and AKJ = j
mod 2^32 (R96, R33, R34). -/
def KeystreamOnCourse (e : Engine) : Prop :=
  e.akrdy = true → ∃ j : Nat, e.akj = BitVec.ofNat 32 j ∧
    e.ka.toNat = keystream e.cfg.akrule e.ak0.toNat e.ak1.toNat j ∧
    e.kb.toNat = keystream e.cfg.akrule e.ak0.toNat e.ak1.toNat (j + 1)

/-! ### Keys and sessions -/

/-- The 16 key bytes of four key words in order, byte 0 most significant (R77). -/
def keyOf (k0 k1 k2 k3 : Word) : BitVec 128 :=
  (k0 ++ (k1 ++ (k2 ++ k3))).cast (by decide : 32 + (32 + (32 + 32)) = 128)

/-- The key bytes of an engine. -/
def keyBytes (e : Engine) : BitVec 128 := keyOf e.key0 e.key1 e.key2 e.key3

/-- Two engines with the same key registers. -/
def SameKey (a b : Engine) : Prop := a.key0 = b.key0 ∧ a.key1 = b.key1 ∧ a.key2 = b.key2 ∧ a.key3 = b.key3

/-- Two engines at the same point of a CFB stream: equal SR, KS and PHASE (R90). -/
def SameStream (a b : Engine) : Prop := a.sr = b.sr ∧ a.ks = b.ks ∧ a.phase = b.phase

/-- Two engines at the same point of a keystream: equal KA, KB and AKJ (R101). -/
def SameKeystream (a b : Engine) : Prop := a.ka = b.ka ∧ a.kb = b.kb ∧ a.akj = b.akj

/-- `t` is the state after a command that succeeded on `s`. -/
def Succeeds (i : Instr) (s t : State) : Prop := exec i s = .next t ∧ t.engine.lasterr = 0x00

end Sys2Proof.Reference
end

