-- ==== Sys2Proof/Machine/Assembler.lean ====
section
/-! DEFINITION. The assembler syntax (R67) and the pseudo-instructions (R68) of spec/30_encoding.md. They are host tooling
and not part of the machine (D39); nothing in `step` uses them. Text is a list of characters. -/

namespace Sys2Proof.Machine

/-! ### Pseudo-instructions (R68) -/

/-- The bytes of a 32-bit word, most significant first: `Ki[8j+7:8j]` for j = 3 down to 0. -/
def wordBytes (k : Word) : List Byte :=
  [k.extractLsb' 24 8, k.extractLsb' 16 8, k.extractLsb' 8 8, k.extractLsb' 0 8]

/-- The bytes of a 64-bit value, most significant first. -/
def dwordBytes (v : DWord) : List Byte :=
  wordBytes (v.extractLsb' 32 32) ++ wordBytes (v.extractLsb' 0 32)

/-- `LDKEY K0, K1, K2, K3`: CLRKEY, then 16 LDKEYB, big-endian. -/
def pseudoLdkey (k0 k1 k2 k3 : Word) : List Instr :=
  .clrkey :: (wordBytes k0 ++ (wordBytes k1 ++ (wordBytes k2 ++ wordBytes k3))).map .ldkeyb

/-- `LDKEYT a, b, c, d`, a TOY key of four values 0 to 31. -/
def pseudoLdkeyt (a b c d : BitVec 5) : List Instr :=
  pseudoLdkey (a.setWidth 32) (b.setWidth 32) (c.setWidth 32) (d.setWidth 32)

/-- `LDIV V`: CLRIV, then 8 LDIVB, big-endian. -/
def pseudoLdiv (v : DWord) : List Instr := .clriv :: (dwordBytes v).map .ldivb

/-- `LDIVT V`, a TOY IV 0 to 1023: CLRIV, `LDIVB V[15:8]`, `LDIVB V[7:0]`. -/
def pseudoLdivt (v : BitVec 10) : List Instr :=
  [.clriv, .ldivb ((v.setWidth 16).extractLsb' 8 8), .ldivb ((v.setWidth 16).extractLsb' 0 8)]

/-- `CFB_ENCB b`. -/
def pseudoCfbEncb (b : Byte) : Instr := .cfbEnc 8 b

/-- `CFB_DECB b`. -/
def pseudoCfbDecb (b : Byte) : Instr := .cfbDec 8 b

/-- `CFB_ENCS s`: one `CFB_ENCB` for each byte, first byte first. -/
def pseudoCfbEncs (s : List Byte) : List Instr := s.map pseudoCfbEncb

/-- `CFB_DECS s`. -/
def pseudoCfbDecs (s : List Byte) : List Instr := s.map pseudoCfbDecb

/-- `AKG_ENCS s`. -/
def pseudoAkgEncs (s : List Byte) : List Instr := s.map .akgEnc

/-- `AKG_DECS s`. -/
def pseudoAkgDecs (s : List Byte) : List Instr := s.map .akgDec

/-- `HYB_ENCS s`. -/
def pseudoHybEncs (s : List Byte) : List Instr := s.map .hybEnc

/-- `HYB_DECS s`. -/
def pseudoHybDecs (s : List Byte) : List Instr := s.map .hybDec

/-! ### Operands -/

/-- An operand as written: a number, or a name such as TOY. -/
inductive AsmOperand where
  | number (n : Nat)
  | name (cs : List Char)
  deriving DecidableEq, Repr

/-- An operand that must fit `n` bits; one that does not is an assembly error (R67). -/
def fitOperand (n : Nat) : AsmOperand → Option (BitVec n)
  | .number v => if v < 2 ^ n then some (BitVec.ofNat n v) else none
  | .name _ => none

/-- `mode ∈ (BYTE, TOY)`, or 0, 1 (R67). -/
def modeOperand : AsmOperand → Option Mode
  | .number v => if v = 0 then some .byte else if v = 1 then some .toy else none
  | .name cs =>
    if cs = ['B', 'Y', 'T', 'E'] then some .byte else if cs = ['T', 'O', 'Y'] then some .toy else none

/-- `rule ∈ (ADD, MUL)`, or 0, 1 (R67). -/
def ruleOperand : AsmOperand → Option AkRule
  | .number v => if v = 0 then some .add else if v = 1 then some .mul else none
  | .name cs =>
    if cs = ['A', 'D', 'D'] then some .add else if cs = ['M', 'U', 'L'] then some .mul else none

/-- `strict ∈ (0, 1)` (R67). -/
def strictOperand : AsmOperand → Option Bool
  | .number v => if v = 0 then some false else if v = 1 then some true else none
  | .name _ => none

/-- `n: 0–8` of a data command (R67). -/
def bitCountOperand : AsmOperand → Option (BitVec 4)
  | .number v => if v ≤ 8 then some (BitVec.ofNat 4 v) else none
  | .name _ => none

/-! ### Forms (R67) -/

/-- A form with no operand. -/
def formNone (i : Instr) : List AsmOperand → Option (List Instr)
  | [] => some [i]
  | _ :: _ => none

/-- A form with one byte operand. -/
def formByte (f : Byte → Instr) : List AsmOperand → Option (List Instr)
  | [b] => (fitOperand 8 b).map fun v => [f v]
  | _ => none

/-- `CFB_ENC n, d`. -/
def formData (f : BitVec 4 → Byte → Instr) : List AsmOperand → Option (List Instr)
  | [n, d] => do some [f (← bitCountOperand n) (← fitOperand 8 d)]
  | _ => none

/-- `AKG_LOAD k0, k1`. The encoder accepts 26 to 31, which AKG_LOAD rejects (R67). -/
def formKeys : List AsmOperand → Option (List Instr)
  | [a, b] => do some [.akgLoad (← fitOperand 5 a) (← fitOperand 5 b)]
  | _ => none

/-- `SETCFG mode, rule, strict, fbw`. -/
def formConfig : List AsmOperand → Option (List Instr)
  | [m, r, s, c] => do
    some [.setcfg (← modeOperand m) (← ruleOperand r) (← strictOperand s) (← fitOperand 7 c)]
  | _ => none

/-- A pseudo-instruction with one operand of `n` bits. -/
def formOne (n : Nat) (f : BitVec n → List Instr) : List AsmOperand → Option (List Instr)
  | [v] => (fitOperand n v).map f
  | _ => none

/-- A pseudo-instruction with four operands of `n` bits. -/
def formFour (n : Nat) (f : BitVec n → BitVec n → BitVec n → BitVec n → List Instr) :
    List AsmOperand → Option (List Instr)
  | [a, b, c, d] => do
    some (f (← fitOperand n a) (← fitOperand n b) (← fitOperand n c) (← fitOperand n d))
  | _ => none

/-- A row of the assembler: a mnemonic and the commands its operands give. -/
structure AsmRow where
  mnemonic : List Char
  form     : List AsmOperand → Option (List Instr)

/-- The forms of R67 with no operand. -/
def plainForms : List AsmRow :=
  [⟨['N', 'O', 'P'], formNone .nop⟩,
   ⟨['S', 'O', 'F', 'T', 'R', 'S', 'T'], formNone .softrst⟩,
   ⟨['C', 'L', 'R', 'E', 'R', 'R'], formNone .clrerr⟩,
   ⟨['C', 'L', 'R', 'K', 'E', 'Y'], formNone .clrkey⟩,
   ⟨['B', 'C', '_', 'E', 'N', 'C'], formNone .bcEnc⟩,
   ⟨['C', 'L', 'R', 'I', 'V'], formNone .clriv⟩,
   ⟨['C', 'F', 'B', '_', 'I', 'N', 'I', 'T'], formNone .cfbInit⟩,
   ⟨['H', 'Y', 'B', '_', 'I', 'N', 'I', 'T'], formNone .hybInit⟩]

/-- The forms of R67 with operands. -/
def operandForms : List AsmRow :=
  [⟨['S', 'E', 'T', 'C', 'F', 'G'], formConfig⟩,
   ⟨['L', 'D', 'K', 'E', 'Y', 'B'], formByte .ldkeyb⟩,
   ⟨['L', 'D', 'I', 'V', 'B'], formByte .ldivb⟩,
   ⟨['A', 'K', 'G', '_', 'E', 'N', 'C'], formByte .akgEnc⟩,
   ⟨['A', 'K', 'G', '_', 'D', 'E', 'C'], formByte .akgDec⟩,
   ⟨['H', 'Y', 'B', '_', 'E', 'N', 'C'], formByte .hybEnc⟩,
   ⟨['H', 'Y', 'B', '_', 'D', 'E', 'C'], formByte .hybDec⟩,
   ⟨['C', 'F', 'B', '_', 'E', 'N', 'C'], formData .cfbEnc⟩,
   ⟨['C', 'F', 'B', '_', 'D', 'E', 'C'], formData .cfbDec⟩,
   ⟨['A', 'K', 'G', '_', 'L', 'O', 'A', 'D'], formKeys⟩]

/-- The pseudo-instructions of R68 whose operands are numbers. Those that take a byte string are the functions
above: no rule gives the spelling of a string. -/
def pseudoForms : List AsmRow :=
  [⟨['L', 'D', 'K', 'E', 'Y'], formFour 32 pseudoLdkey⟩,
   ⟨['L', 'D', 'K', 'E', 'Y', 'T'], formFour 5 pseudoLdkeyt⟩,
   ⟨['L', 'D', 'I', 'V'], formOne 64 pseudoLdiv⟩,
   ⟨['L', 'D', 'I', 'V', 'T'], formOne 10 pseudoLdivt⟩,
   ⟨['C', 'F', 'B', '_', 'E', 'N', 'C', 'B'], formByte pseudoCfbEncb⟩,
   ⟨['C', 'F', 'B', '_', 'D', 'E', 'C', 'B'], formByte pseudoCfbDecb⟩]

/-- Every mnemonic of the assembler. -/
def asmTable : List AsmRow := plainForms ++ (operandForms ++ pseudoForms)

/-- The commands of a mnemonic with its operands, none for an assembly error (R67). -/
def assembleForm (mnemonic : List Char) (operands : List AsmOperand) : Option (List Instr) :=
  match asmTable.find? (fun r => r.mnemonic == mnemonic) with
  | some r => r.form operands
  | none => none

/-! ### Text (R67) -/

/-- A token of a line. -/
inductive AsmToken where
  | word (cs : List Char)
  | literal (c : Char)
  | comma
  deriving DecidableEq, Repr

/-- The word read so far, if any, before the tokens that follow it. -/
def flushWord (acc : List Char) (rest : List AsmToken) : List AsmToken :=
  match acc with
  | [] => rest
  | _ :: _ => .word acc :: rest

/-- The tokens of a line: words, character literals and commas; `;` starts a comment (R67). A character literal stands
for itself, be it a comma, a blank or a semicolon. -/
def tokens : List Char → List Char → List AsmToken
  | [], acc => flushWord acc []
  | '\'' :: c :: '\'' :: rest, acc => flushWord acc (.literal c :: tokens rest [])
  | c :: rest, acc =>
    if c = ';' then flushWord acc []
    else if c = ',' then flushWord acc (.comma :: tokens rest [])
    else if c = ' ' then flushWord acc (tokens rest [])
    else tokens rest (acc ++ [c])

/-- The value of a digit in a base up to 16. -/
def digitValue (base : Nat) (c : Char) : Option Nat :=
  let n := c.toNat
  let v := if 0x30 ≤ n ∧ n ≤ 0x39 then n - 0x30
    else if 0x41 ≤ n ∧ n ≤ 0x46 then n - 0x41 + 10
    else if 0x61 ≤ n ∧ n ≤ 0x66 then n - 0x61 + 10
    else 16
  if v < base then some v else none

/-- The value of digits in a base, after those already read. -/
def digitsValue (base : Nat) : List Char → Nat → Option Nat
  | [], acc => some acc
  | c :: rest, acc =>
    match digitValue base c with
    | some v => digitsValue base rest (acc * base + v)
    | none => none

/-- A number, decimal or hexadecimal with `0x` (R67). -/
def numberOf : List Char → Option Nat
  | [] => none
  | '0' :: 'x' :: c :: rest => digitsValue 16 (c :: rest) 0
  | c :: rest => digitsValue 10 (c :: rest) 0

/-- An operand token: a literal stands for its ASCII byte (R67); a word is a number if it reads as one, else a name. -/
def operandOf : AsmToken → Option AsmOperand
  | .literal c => some (.number c.toNat)
  | .word cs =>
    match numberOf cs with
    | some n => some (.number n)
    | none => some (.name cs)
  | .comma => none

/-- The operands between commas. -/
def operandsOf : List AsmToken → Option (List AsmOperand)
  | [] => some []
  | [t] => (operandOf t).map fun o => [o]
  | t :: .comma :: u :: rest =>
    match operandOf t, operandsOf (u :: rest) with
    | some o, some os => some (o :: os)
    | _, _ => none
  | _ => none

/-- A line of assembler: the words it stands for, none for an assembly error; an empty line or a comment gives no word. A line
`.word` gives a raw word (section 3 of spec/95_test_vectors.md). -/
def assembleLine (line : List Char) : Option (List Word) :=
  match tokens line [] with
  | [] => some []
  | .word m :: rest =>
    match operandsOf rest with
    | some ops =>
      if m = ['.', 'w', 'o', 'r', 'd'] then
        match ops with
        | [v] => (fitOperand 32 v).map fun w => [w]
        | _ => none
      else (assembleForm m ops).map fun is => is.map encode
    | none => none
  | _ => none

end Sys2Proof.Machine
end

