-- ==== Sys2Proof/Certificates/Slice0/Obligations.lean ====
section
/-! DEFINITION. The statements for the provers: what the spec's rules say the machine does. -/

open Sys2Proof Sys2Proof.Machine Sys2Proof.Safety Sys2Proof.Reference

/-! ### Encoding (spec/30_encoding.md) -/

/-- Every well-formed command's word decodes to that command, with every operand at every value its format admits
(R58 to R65). -/
def Obligations.EncodedCommandDecodesToItself : Prop :=
  ∀ i : Instr, WellFormed i → decode (encode i) = .ok i

/-- A word that decodes gives a well-formed command, and that command's word is the word it came from: no bit of a word
is dropped (R57 to R65). -/
def Obligations.DecodedWordIsTheWordOfItsCommand : Prop :=
  ∀ (v : Word) (i : Instr), decode v = .ok i → WellFormed i ∧ encode i = v

/-- R64: the opcode map, and "At most one row matches any word". -/
def Obligations.AtMostOneRowMatchesAWord : Prop :=
  opcodeTable.map (fun r => (r.matchWord, r.mask)) = rows ∧
  ∀ (v : Word) (i j : Nat) (r q : OpcodeRow), opcodeTable[i]? = some r → opcodeTable[j]? = some q →
    r.selects v = true → q.selects v = true → i = j

/-- R66: the illegal words are exactly the reserved opcodes, the assigned opcodes with a must-be-zero bit set, and format D
with N > 8; such a word raises ILLEGAL_COMMAND and has no other effect. -/
def Obligations.IllegalWordRaisesIllegalCommandOnly : Prop :=
  ∀ (v : Word) (s : State),
    (illegalWord v = true ↔ ∀ i : Instr, decode v ≠ .ok i) ∧
    (illegalWord v = true → executeWord v s = .next (failed 0x01 s))

/-- Words written out from the formats of R58 to R62 decode to what they stand for. A sanity statement. -/
def Obligations.WrittenOutWordsDecode : Prop :=
  decode 0x00000000 = .ok .nop ∧
  decode 0x03000503 = .ok (.setcfg .toy .mul false 5) ∧
  decode 0x110000F0 = .ok (.ldkeyb 0xF0) ∧
  decode 0x23000848 = .ok (.cfbEnc 8 0x48) ∧
  decode 0x30000B07 = .ok (.akgLoad 7 11) ∧
  decode 0x42000050 = .ok (.hybDec 0x50) ∧
  decode 0x04000000 = .error .reservedOpcode ∧
  decode 0x00000001 = .error .mbzBitSet ∧
  decode 0x23000900 = .error .bitCountTooLarge

/-- The DATA bits above N are ignored: commands that agree in N and in DATA[N-1:0] have the same outcome (R60). -/
def Obligations.DataBitsAboveTheCountAreIgnored : Prop :=
  ∀ (dir : Direction) (n : BitVec 4) (d d' : Byte) (s : State),
    d.toNat % 2 ^ n.toNat = d'.toNat % 2 ^ n.toNat →
    exec (cfbCommand dir n d) s = exec (cfbCommand dir n d') s

/-! ### The step and the host's bus (spec/20_memory.md, spec/10_state.md) -/

/-- When the next input is an aligned 32-bit write of a word to CMD, the step answers the write and is exec of the command
the word decodes to, or ILLEGAL_COMMAND where it decodes to none (R23, R44, R65). The list that keeps the answer is the
model's own (log 1), here and below. -/
def Obligations.StepExecutesTheWrittenCommand : Prop :=
  ∀ (s : State) (v : Word) (rest : List HostInput),
    s.inputs = .transaction (.write 0x00 .bits32 v) :: rest →
    (∀ i : Instr, decode v = .ok i →
      step s = exec i { s with inputs := rest, responses := s.responses ++ [.writeDone] }) ∧
    ((∀ i : Instr, decode v ≠ .ok i) →
      step s = .next (failed 0x01 { s with inputs := rest, responses := s.responses ++ [.writeDone] }))

/-- With no input waiting the machine holds its state (R128, R133; log 2 for the step itself). -/
def Obligations.IdleMachineHoldsItsState : Prop :=
  ∀ s : State, s.inputs = [] → step s = .next s

/-- An aligned 32-bit read answers the register's value and changes no HCE state (R44, R48). -/
def Obligations.ReadAnswersTheRegister : Prop :=
  ∀ (s : State) (a : BitVec 8) (rest : List HostInput),
    s.inputs = .transaction (.read a .bits32) :: rest → a.toNat % 4 = 0 →
    step s = .next { s with
      inputs := rest, responses := s.responses ++ [.readValue (readRegister s.engine a)] }

/-- The fields of the registers of R22, each at the bits R24, R25, R32 and R33 give it. -/
def Obligations.WindowFieldsStandWhereTheMapPutsThem : Prop :=
  ∀ e : Engine,
    (readRegister e 0x04).toNat = e.lasterr.toNat + 2 ^ 8 * e.errseen.toNat + 2 ^ 9 * e.cfbrdy.toNat +
      2 ^ 10 * e.akrdy.toNat + 2 ^ 11 * e.hybrdy.toNat + 2 ^ 12 * e.akv.toNat + 2 ^ 16 * e.keycnt.toNat +
      2 ^ 24 * e.ivcnt.toNat ∧
    (readRegister e 0x08).toNat = (if e.cfg.mode = .toy then 1 else 0) + (if e.cfg.akrule = .mul then 2 else 0) +
      4 * e.cfg.strict.toNat + 2 ^ 8 * e.cfg.fbw.toNat ∧
    (readRegister e 0x0C).toNat = e.dout.toNat ∧
    (readRegister e 0x10).toNat * 2 ^ 32 + (readRegister e 0x14).toNat = e.sr.toNat ∧
    (readRegister e 0x18).toNat * 2 ^ 32 + (readRegister e 0x1C).toNat = e.ks.toNat ∧
    (readRegister e 0x20).toNat * 2 ^ 32 + (readRegister e 0x24).toNat = e.bcout.toNat ∧
    (readRegister e 0x28).toNat * 2 ^ 32 + (readRegister e 0x2C).toNat = e.ivreg.toNat ∧
    readRegister e 0x30 = e.key0 ∧ readRegister e 0x34 = e.key1 ∧ readRegister e 0x38 = e.key2 ∧
    readRegister e 0x3C = e.key3 ∧
    (readRegister e 0x40).toNat = e.phase.toNat ∧
    (readRegister e 0x44).toNat = e.ka.toNat + 2 ^ 8 * e.kb.toNat + 2 ^ 16 * e.ak0.toNat + 2 ^ 24 * e.ak1.toNat ∧
    readRegister e 0x48 = e.akj ∧ readRegister e 0x4C = e.pos ∧ readRegister e 0x50 = 0x48434531 ∧
    readRegister e 0x00 = 0

/-- The HCE has no hidden state: engines that read alike at every offset are equal (R40). -/
def Obligations.WindowShowsAllOfTheState : Prop :=
  ∀ e e' : Engine, (∀ a : BitVec 8, a.toNat % 4 = 0 → readRegister e a = readRegister e' a) → e = e'

/-- R37: a reserved offset reads 0, and a write to it or to any read-only register changes no state of the HCE. -/
def Obligations.ReservedOffsetsReadZeroAndIgnoreWrites : Prop :=
  (∀ (e : Engine) (a : BitVec 8), 0x54 ≤ a.toNat → a.toNat % 4 = 0 → readRegister e a = 0) ∧
  ∀ (s : State) (a : BitVec 8) (v : Word) (rest : List HostInput),
    s.inputs = .transaction (.write a .bits32 v) :: rest → a.toNat % 4 = 0 → a ≠ 0x00 →
    step s = .next { s with inputs := rest, responses := s.responses ++ [.writeDone] }

/-- R45 and R122: a transaction of another size, or at an offset with `a mod 4 ≠ 0`, ends with BUSERR and changes no HCE
state; a read then returns no value. The list that keeps the answer is the model's own (log 1). -/
def Obligations.BadTransactionGetsABusError : Prop :=
  ∀ (s : State) (a : BitVec 8) (size : BusSize) (v : Word) (rest : List HostInput),
    (s.inputs = .transaction (.read a size) :: rest ∨ s.inputs = .transaction (.write a size v) :: rest) →
    (size ≠ .bits32 ∨ a.toNat % 4 ≠ 0) →
    step s = .next { s with inputs := rest, responses := s.responses ++ [.busErr] }

/-- "No transaction other than a HostWrite to CMD changes HCE state" (R44). -/
def Obligations.OnlyCommandWritesChangeTheEngine : Prop :=
  ∀ (s u : State) (t : Transaction) (rest : List HostInput),
    s.inputs = .transaction t :: rest → step s = .next u → u.engine ≠ s.engine →
    ∃ v : Word, t = .write 0x00 .bits32 v

/-- A transaction that overlaps the reset input has no transition in the model (R131; the treatment `refuse` of item 17 of
spec/93_implementation_defined.md; log 6). -/
def Obligations.OverlappingTransactionIsRefused : Prop :=
  ∀ (s : State) (t : Transaction) (rest : List HostInput),
    s.inputs = .resetOverlapping t :: rest → step s = .refused .transactionOverlapsReset

/-- Whatever the parameters, a run always ends in a state with every input served, unless it holds a transaction that overlaps the reset input: no
command and no transaction ever hangs or stops the machine (R130, R118). -/
def Obligations.EveryRunServesAllItsInputs : Prop :=
  ∀ (p : Config.CipherParams) (inputs : List HostInput), (∀ t : Transaction, HostInput.resetOverlapping t ∉ inputs) →
    ∃ u : State, hostRun p inputs = .next u ∧ u.inputs = []

/-! ### Reset and control (spec/70_reset_and_hazards.md, spec/44_control.md) -/

/-- R132 and R114: the reset input and SOFTRST leave every field at its reset value, whatever the state was, and these are
the values the registers then read. -/
def Obligations.ResetRestoresEveryField : Prop :=
  (∀ (s : State) (rest : List HostInput), s.inputs = .reset :: rest →
    step s = .next { s with engine := State.reset.engine, inputs := rest }) ∧
  (∀ s : State, exec .softrst s = .next { s with engine := State.reset.engine }) ∧
  encode .softrst = 0x01000000 ∧ MbzBitsIllegal 0x01 0xFFFFFFFF 0x01000000 ∧
  State.reset.engine =
    { cfg := ⟨.byte, .add, false, 1⟩, key0 := 0, key1 := 0, key2 := 0, key3 := 0, keycnt := 0, ivreg := 0, ivcnt := 0, sr := 0, ks := 0, phase := 0, bcout := 0, ak0 := 0, ak1 := 0, ka := 0, kb := 0, akj := 0, akv := false, pos := 1, cfbrdy := false, akrdy := false, hybrdy := false, dout := 0, lasterr := 0, errseen := false } ∧
  (∀ a : BitVec 8, a.toNat % 4 = 0 → readRegister State.reset.engine a =
    if a = 0x08 then 0x00000100 else if a = 0x4C then 0x00000001 else if a = 0x50 then 0x48434531 else 0)

/-- NOP sets LASTERR to 0 and changes nothing else, not even ERRSEEN (R113). -/
def Obligations.NopOnlyClearsLasterr : Prop :=
  encode .nop = 0x00000000 ∧ MbzBitsIllegal 0x00 0xFFFFFFFF 0x00000000 ∧
  ∀ s : State, exec .nop s = .next { s with engine := { s.engine with lasterr := 0 } }

/-- R115: CLRERR clears ERRSEEN and LASTERR and changes nothing else. -/
def Obligations.ClrerrClearsTheStickyError : Prop :=
  encode .clrerr = 0x02000000 ∧ MbzBitsIllegal 0x02 0xFFFFFFFF 0x02000000 ∧
  ∀ s : State, exec .clrerr s = .next { s with engine := { s.engine with errseen := false, lasterr := 0 } }

/-- R116: SETCFG with a legal FBW writes CFG, clears SR, KS, BCOUT and PHASE and ends every session; with FBW = 0 or FBW >
RW of the new mode it fails with INVALID_FEEDBACK_WIDTH and the old CFG stays. -/
def Obligations.SetcfgWritesCfgOrRefusesTheWidth : Prop :=
  (∀ (m : Mode) (r : AkRule) (st : Bool) (c : BitVec 7),
    (encode (.setcfg m r st c)).toNat = 0x03000000 + 2 ^ 8 * c.toNat + 4 * st.toNat +
      (if r = .mul then 2 else 0) + (if m = .toy then 1 else 0)) ∧
  MbzBitsIllegal 0x03 0xFFFF80F8 0x03000000 ∧
  (∀ (m : Mode) (r : AkRule) (st : Bool) (c : BitVec 7) (s : State),
    1 ≤ c.toNat → c.toNat ≤ widthOf m →
    exec (.setcfg m r st c) s = .next { s with engine := { s.engine with
      cfg := ⟨m, r, st, c⟩, sr := 0, ks := 0, bcout := 0, phase := 0, cfbrdy := false, akrdy := false,
      hybrdy := false, lasterr := 0 } }) ∧
  (∀ (m : Mode) (r : AkRule) (st : Bool) (c : BitVec 7) (s : State),
    (c.toNat = 0 ∨ widthOf m < c.toNat) →
    exec (.setcfg m r st c) s = .next (failed 0x05 s))

/-! ### Block cipher and key (spec/40_block_cipher.md) -/

/-- R76: CLRKEY clears the key and its count and ends the CFB and hybrid sessions. -/
def Obligations.ClrkeyClearsTheKey : Prop :=
  encode .clrkey = 0x10000000 ∧ MbzBitsIllegal 0x10 0xFFFFFFFF 0x10000000 ∧
  ∀ s : State, exec .clrkey s = .next { s with engine := { s.engine with
    key0 := 0, key1 := 0, key2 := 0, key3 := 0, keycnt := 0, cfbrdy := false, hybrdy := false, lasterr := 0 } }

/-- LDKEYB puts byte number KEYCNT of the big-endian key in its lane and leaves the other 15 as they were; from the 17th byte on
it leaves the key; the count goes up to 31 and stays; the CFB and hybrid sessions end; nothing else changes (R77). -/
def Obligations.LdkeybAppendsOneKeyByte : Prop :=
  (∀ b : Byte, (encode (.ldkeyb b)).toNat = 0x11000000 + b.toNat) ∧
  MbzBitsIllegal 0x11 0xFFFFFF00 0x11000000 ∧
  ∀ (b : Byte) (s : State), ∃ k0 k1 k2 k3 : Word,
    exec (.ldkeyb b) s = .next { s with engine := { s.engine with
      key0 := k0, key1 := k1, key2 := k2, key3 := k3,
      keycnt := BitVec.ofNat 5 (min (s.engine.keycnt.toNat + 1) 31),
      cfbrdy := false, hybrdy := false, lasterr := 0 } } ∧
    ∀ i : Nat, i < 16 → (keyOf k0 k1 k2 k3).extractLsb' (8 * (15 - i)) 8 =
      if i = s.engine.keycnt.toNat then b else (keyBytes s.engine).extractLsb' (8 * (15 - i)) 8

/-- The expansion of LDKEY gives, from any state, exactly the four key words and KEYCNT = 16, with the CFB and hybrid sessions
ended and nothing else changed (R68, R77). -/
def Obligations.LdkeyExpansionLoadsTheKey : Prop :=
  ∀ (k0 k1 k2 k3 : Word) (s : State),
    execAll (pseudoLdkey k0 k1 k2 k3) s = .next { s with engine := { s.engine with
      key0 := k0, key1 := k1, key2 := k2, key3 := k3, keycnt := 16, cfbrdy := false, hybrdy := false,
      lasterr := 0 } }

/-- The block-cipher function is the pseudocode of R71 over numbers, in both modes, for every key, block and choice of the
parameters: halves split as R70, keys reduced as R69, every result mod 2^w (R69 to R73). -/
def Obligations.BlockCipherRefinesThePseudocode : Prop :=
  ∀ (p : Config.CipherParams) (e : Engine) (x : DWord),
    (blockCipher p e x).toNat =
      if e.cfg.mode = .byte then
        cipher 32 p.delta32.toNat p.shl p.shr e.key0.toNat e.key1.toNat e.key2.toNat e.key3.toNat x.toNat
      else cipher 5 p.delta5.toNat p.shl p.shr e.key0.toNat e.key1.toNat e.key2.toNat e.key3.toNat x.toNat

/-- BC_ENC with 16 key bytes writes `E_w(SR)`, under the machine's parameters, to BCOUT and disturbs nothing else; without, it fails with
INVALID_KEY_LENGTH (R78, R75). -/
def Obligations.BcEncWritesBcoutOnly : Prop :=
  encode .bcEnc = 0x12000000 ∧ MbzBitsIllegal 0x12 0xFFFFFFFF 0x12000000 ∧
  (∀ s : State, s.engine.keycnt = 16 → exec .bcEnc s = .next { s with engine := { s.engine with
    bcout := blockCipher s.params s.engine s.engine.sr, lasterr := 0 } }) ∧
  (∀ s : State, s.engine.keycnt ≠ 16 → exec .bcEnc s = .next (failed 0x02 s))

/-- Three values of the block cipher the spec derives (V-BC1, V-BC6, V-BC11 of spec/95_test_vectors.md). They rest on the
default parameters, which are PRESUMED (log 3). -/
def Obligations.BlockCipherGivesTheDerivedVectors : Prop :=
  blockCipher Config.specDefaults Engine.reset 0 = 0x41EA3A0A94BAA940 ∧
  blockCipher Config.specDefaults { Engine.reset with
    key0 := 0x12345678, key1 := 0x9ABCDEF0, key2 := 0x0FEDCBA9, key3 := 0x87654321 } 0 = 0x1D9591A8BA4F0FEE ∧
  blockCipher Config.specDefaults { Engine.reset with
    cfg := ⟨.toy, .add, false, 1⟩, key0 := 1, key1 := 2, key2 := 3, key3 := 4 } 0x2A5 = 0x286

/-! ### The CFB unit (spec/41_cfb.md) -/

/-- R81: CLRIV clears the IV and its count and ends the CFB and hybrid sessions; SR stays. -/
def Obligations.ClrivClearsTheIv : Prop :=
  encode .clriv = 0x20000000 ∧ MbzBitsIllegal 0x20 0xFFFFFFFF 0x20000000 ∧
  ∀ s : State, exec .clriv s = .next { s with engine := { s.engine with
    ivreg := 0, ivcnt := 0, cfbrdy := false, hybrdy := false, lasterr := 0 } }

/-- R82: LDIVB shifts a byte into IVREG, counts up to 15, and ends the CFB and hybrid sessions. -/
def Obligations.LdivbShiftsInOneIvByte : Prop :=
  (∀ b : Byte, (encode (.ldivb b)).toNat = 0x21000000 + b.toNat) ∧
  MbzBitsIllegal 0x21 0xFFFFFF00 0x21000000 ∧
  ∀ (b : Byte) (s : State), exec (.ldivb b) s = .next { s with engine := { s.engine with
    ivreg := BitVec.ofNat 64 ((s.engine.ivreg.toNat * 2 ^ 8 + b.toNat) % 2 ^ 64)
    ivcnt := BitVec.ofNat 4 (min (s.engine.ivcnt.toNat + 1) 15)
    cfbrdy := false, hybrdy := false, lasterr := 0 } }

/-- R83: CFB_INIT with a whole key and a fitting IV loads SR with IVVAL, clears KS and PHASE, starts the CFB session and ends a
hybrid one; the key is checked before the IV. -/
def Obligations.CfbInitStartsASession : Prop :=
  encode .cfbInit = 0x22000000 ∧ MbzBitsIllegal 0x22 0xFFFFFFFF 0x22000000 ∧
  (∀ s : State, s.engine.keycnt = 16 → ivLengthOk s.engine = true →
    exec .cfbInit s = .next { s with engine := { s.engine with
      sr := BitVec.ofNat 64 (s.engine.ivreg.toNat % 2 ^ widthOf s.engine.cfg.mode)
      ks := 0, phase := 0, cfbrdy := true, hybrdy := false, lasterr := 0 } }) ∧
  (∀ s : State, s.engine.keycnt ≠ 16 → exec .cfbInit s = .next (failed 0x02 s)) ∧
  (∀ s : State, s.engine.keycnt = 16 → ivLengthOk s.engine = false → exec .cfbInit s = .next (failed 0x03 s))

/-- R84: one stream bit, over numbers, for all parameters, wherever FBW and PHASE name a chunk of the register (R39, 1 and 2: FBW is not 0 and
PHASE is below RW); nothing but KS, SR and PHASE changes. -/
def Obligations.CfbBitFollowsThePseudocode : Prop :=
  ∀ (p : Config.CipherParams) (dir : Direction) (b : Bool) (e : Engine),
    e.cfg.fbw.toNat ≠ 0 → e.phase.toNat < widthOf e.cfg.mode →
    let ks := if e.phase.toNat = 0 then blockCipher p e e.sr else e.ks
    let kbit := ks.toNat / 2 ^ (widthOf e.cfg.mode - 1 - e.phase.toNat) % 2
    let o := (b.toNat + kbit) % 2
    let fb := if dir = .enc then o else b.toNat
    cfbBit p dir b e = (decide (o = 1), { e with
      ks := ks
      sr := BitVec.ofNat 64 ((2 * e.sr.toNat + fb) % 2 ^ widthOf e.cfg.mode)
      phase := BitVec.ofNat 7 ((e.phase.toNat + 1) % e.cfg.fbw.toNat) })

/-- CFB_ENC takes its N bits through `cfb_bit` from DATA[N-1] down to DATA[0] and puts what comes out in DOUT, in a session; N = 0
succeeds and leaves DOUT, SR, KS and PHASE; nothing else changes; its errors are ILLEGAL_COMMAND and NOT_INITIALISED (R86). -/
def Obligations.CfbEncRunsItsBits : Prop :=
  ∀ (n : BitVec 4) (d : Byte) (s : State),
    (n.toNat ≤ 8 → s.engine.cfbrdy = true →
      let r := dataLoop s.params .enc d n.toNat (0, s.engine)
      exec (.cfbEnc n d) s = .next { s with engine := { s.engine with
        sr := r.2.sr, ks := r.2.ks, phase := r.2.phase
        dout := if n.toNat = 0 then s.engine.dout else r.1
        lasterr := 0 } }) ∧
    (n.toNat ≤ 8 → s.engine.cfbrdy = false → exec (.cfbEnc n d) s = .next (failed 0x04 s)) ∧
    (8 < n.toNat → exec (.cfbEnc n d) s = .next (failed 0x01 s))

/-- CFB_DEC does the same in the other direction (R87). -/
def Obligations.CfbDecRunsItsBits : Prop :=
  ∀ (n : BitVec 4) (d : Byte) (s : State),
    (n.toNat ≤ 8 → s.engine.cfbrdy = true →
      let r := dataLoop s.params .dec d n.toNat (0, s.engine)
      exec (.cfbDec n d) s = .next { s with engine := { s.engine with
        sr := r.2.sr, ks := r.2.ks, phase := r.2.phase
        dout := if n.toNat = 0 then s.engine.dout else r.1
        lasterr := 0 } }) ∧
    (n.toNat ≤ 8 → s.engine.cfbrdy = false → exec (.cfbDec n d) s = .next (failed 0x04 s)) ∧
    (8 < n.toNat → exec (.cfbDec n d) s = .next (failed 0x01 s))

/-- R85, for all parameters: a whole chunk of c bits from PHASE = 0 comes out as `P ^ (E_w(S) >> (RW - c))` and leaves SR at
`((S << c) | C) mod 2^RW` and PHASE at 0. -/
def Obligations.ChunkIsOneCipherCall : Prop :=
  ∀ (p : Config.CipherParams) (dir : Direction) (bits : List Bool) (e : Engine),
    1 ≤ e.cfg.fbw.toNat → e.cfg.fbw.toNat ≤ widthOf e.cfg.mode → e.phase = 0 →
    bits.length = e.cfg.fbw.toNat →
    let r := cfbBits p dir bits e
    bitsNumber r.1 =
      bitsNumber bits ^^^ ((blockCipher p e e.sr).toNat / 2 ^ (widthOf e.cfg.mode - e.cfg.fbw.toNat)) ∧
    r.2.sr.toNat = (e.sr.toNat * 2 ^ e.cfg.fbw.toNat + bitsNumber (if dir = .enc then r.1 else bits)) %
      2 ^ widthOf e.cfg.mode ∧
    r.2.phase = 0

/-- R89: data commands that carry the same stream bits, however they are grouped, give the same output bits and the same SR, KS and
PHASE; and in a session any grouping of legal commands runs to its end. -/
def Obligations.GroupingOfBitsDoesNotMatter : Prop :=
  ∀ (cs cs' : List Instr) (s : State),
    s.engine.cfbrdy = true →
    (∀ i ∈ cs ++ cs', ∃ dir n d, i = cfbCommand dir n d ∧ n.toNat ≤ 8) →
    cs.flatMap streamBits = cs'.flatMap streamBits →
    ∃ out t t', cfbSession cs s = some (out, t) ∧ cfbSession cs' s = some (out, t') ∧
      SameStream t.engine t'.engine

/-- R90: two CFB sessions of the same HCE (the same parameters, R8) with the same mode, c, key and IVVAL; the first encrypts bits p and the second decrypts what came out,
each grouped into commands in any way: the second outputs p, and both end at the same SR, KS and PHASE. -/
def Obligations.CfbDecryptionInvertsEncryption : Prop :=
  ∀ (s s' u u' t : State) (cs cs' : List Instr) (out : List Bool),
    Succeeds .cfbInit s u → Succeeds .cfbInit s' u' →
    s.params = s'.params → s.engine.cfg.mode = s'.engine.cfg.mode → s.engine.cfg.fbw = s'.engine.cfg.fbw →
    SameKey s.engine s'.engine → ivVal s.engine = ivVal s'.engine →
    (∀ i ∈ cs, ∃ n d, i = .cfbEnc n d) → cfbSession cs u = some (out, t) →
    (∀ i ∈ cs', ∃ n d, i = .cfbDec n d ∧ n.toNat ≤ 8) →
    cs'.flatMap streamBits = out.map (fun b => (Direction.dec, b)) →
    ∃ t', cfbSession cs' u' = some ((cs.flatMap streamBits).map Prod.snd, t') ∧ SameStream t.engine t'.engine

/-- R91, for all parameters: the keystream bit for the next stream bit is the same in two streams with the same key, mode, c and start whose
ciphertext-side bits so far are the same, whatever their plaintext bits and directions were. -/
def Obligations.KeystreamDependsOnCiphertextOnly : Prop :=
  ∀ (p : Config.CipherParams) (xs ys : List (Direction × Bool)) (e e' : Engine),
    e.cfg.mode = e'.cfg.mode → e.cfg.fbw = e'.cfg.fbw → SameKey e e' → SameStream e e' →
    ciphertextSide xs (cfbStream p xs e).1 = ciphertextSide ys (cfbStream p ys e').1 →
    ∀ (dir dir' : Direction) (b b' : Bool),
      (b ^^ (cfbBit p dir b (cfbStream p xs e).2).1) = (b' ^^ (cfbBit p dir' b' (cfbStream p ys e').2).1)

/-- R92: a data command in a session gives exactly N output bits for N input bits: DOUT holds N bits and zeros above them, and a
byte message gives as many bytes as it has. -/
def Obligations.OutputHasTheLengthOfTheInput : Prop :=
  (∀ (dir : Direction) (n : BitVec 4) (d : Byte) (s t : State),
    n ≠ 0 → Succeeds (cfbCommand dir n d) s t → t.engine.dout.toNat < 2 ^ n.toNat) ∧
  (∀ (dir : Direction) (m : List Byte) (s : State), s.engine.cfbrdy = true →
    ∃ out t, hostMessage (cfbCommand dir 8) m s = some (out, t) ∧ out.length = m.length)

/-- N stream bits make at most `ceil(N / c)` block-cipher calls, from any position in a chunk (R137, C14). -/
def Obligations.CipherCallsAreBounded : Prop :=
  ∀ (p : Config.CipherParams) (bits : List (Direction × Bool)) (e : Engine),
    e.phase.toNat < e.cfg.fbw.toNat →
    cipherCalls p bits e ≤ (bits.length + e.cfg.fbw.toNat - 1) / e.cfg.fbw.toNat

/-! ### The keystream generator (spec/42_additive.md) -/

/-- R98: AKG_LOAD with keys at most 25 stores them, restarts the keystream, sets AKV and AKRDY and ends a hybrid session; with a
key above 25 it fails with STREAM_KEY_RANGE. -/
def Obligations.AkgLoadRestartsTheKeystream : Prop :=
  (∀ k0 k1 : BitVec 5, (encode (.akgLoad k0 k1)).toNat = 0x30000000 + 2 ^ 8 * k1.toNat + k0.toNat) ∧
  MbzBitsIllegal 0x30 0xFFFFE0E0 0x30000000 ∧
  (∀ (k0 k1 : BitVec 5) (s : State), k0.toNat ≤ 25 → k1.toNat ≤ 25 →
    exec (.akgLoad k0 k1) s = .next { s with engine := { s.engine with
      ak0 := k0, ak1 := k1, ka := k0, kb := k1, akj := 0, akv := true, akrdy := true, hybrdy := false,
      lasterr := 0 } }) ∧
  (∀ (k0 k1 : BitVec 5) (s : State), (25 < k0.toNat ∨ 25 < k1.toNat) →
    exec (.akgLoad k0 k1) s = .next (failed 0x07 s))

/-- R97 and R99: AKG_ENC moves a letter on by KA within its case and advances the keystream; another symbol passes through
unchanged and consumes no position, or fails with UNSUPPORTED_CHARACTER when STRICT = 1; nothing else changes. -/
def Obligations.AkgEncTransformsOneSymbol : Prop :=
  (∀ b : Byte, (encode (.akgEnc b)).toNat = 0x31000000 + b.toNat) ∧
  MbzBitsIllegal 0x31 0xFFFFFF00 0x31000000 ∧
  (∀ (b : Byte) (base : Nat) (s : State), s.engine.akrdy = true → LetterOfBase base b →
    exec (.akgEnc b) s = .next { s with engine := { s.engine with
      dout := movedLetter .enc base b s.engine.ka, ka := s.engine.kb
      kb := BitVec.ofNat 5 (nextTerm s.engine.cfg.akrule s.engine.kb.toNat s.engine.ka.toNat)
      akj := s.engine.akj + 1, lasterr := 0 } }) ∧
  (∀ (b : Byte) (s : State), s.engine.akrdy = true → isLetterCode b = false →
    (s.engine.cfg.strict = false →
      exec (.akgEnc b) s = .next { s with engine := { s.engine with dout := b, lasterr := 0 } }) ∧
    (s.engine.cfg.strict = true → exec (.akgEnc b) s = .next (failed 0x06 s))) ∧
  (∀ (b : Byte) (s : State), s.engine.akrdy = false → exec (.akgEnc b) s = .next (failed 0x04 s))

/-- R97 and R100: AKG_DEC moves a letter back by KA, the residue normalised into [0, 26), and advances the keystream as
encryption does. -/
def Obligations.AkgDecTransformsOneSymbol : Prop :=
  (∀ b : Byte, (encode (.akgDec b)).toNat = 0x32000000 + b.toNat) ∧
  MbzBitsIllegal 0x32 0xFFFFFF00 0x32000000 ∧
  (∀ (b : Byte) (base : Nat) (s : State), s.engine.akrdy = true → LetterOfBase base b →
    exec (.akgDec b) s = .next { s with engine := { s.engine with
      dout := movedLetter .dec base b s.engine.ka, ka := s.engine.kb
      kb := BitVec.ofNat 5 (nextTerm s.engine.cfg.akrule s.engine.kb.toNat s.engine.ka.toNat)
      akj := s.engine.akj + 1, lasterr := 0 } }) ∧
  (∀ (b : Byte) (s : State), s.engine.akrdy = true → isLetterCode b = false →
    (s.engine.cfg.strict = false →
      exec (.akgDec b) s = .next { s with engine := { s.engine with dout := b, lasterr := 0 } }) ∧
    (s.engine.cfg.strict = true → exec (.akgDec b) s = .next (failed 0x06 s))) ∧
  (∀ (b : Byte) (s : State), s.engine.akrdy = false → exec (.akgDec b) s = .next (failed 0x04 s))

/-- R96: every step keeps a ready generator on its course: KA = k[j] and KB = k[j+1] of the keystream of its own stored keys,
with AKJ = j mod 2^32, whatever mixture of commands runs. -/
def Obligations.KeystreamStaysOnCourse : Prop :=
  ∀ s t : State, KeystreamOnCourse s.engine → step s = .next t → KeystreamOnCourse t.engine

/-- R101: two keystream sessions with the same rule, STRICT and keys; the first encrypts a message and the second decrypts what
came out: the second outputs the message, and both hold equal KA, KB and AKJ. -/
def Obligations.AkgDecryptionInvertsEncryption : Prop :=
  ∀ (s s' u u' t : State) (k0 k1 : BitVec 5) (m out : List Byte),
    Succeeds (.akgLoad k0 k1) s u → Succeeds (.akgLoad k0 k1) s' u' →
    s.engine.cfg.akrule = s'.engine.cfg.akrule → s.engine.cfg.strict = s'.engine.cfg.strict →
    hostMessage .akgEnc m u = some (out, t) →
    ∃ t', hostMessage .akgDec out u' = some (m, t') ∧ SameKeystream t.engine t'.engine

/-- Under MUL a keystream term 0 makes every term from the second after it on 0 (R102). -/
def Obligations.ZeroTermAbsorbsUnderMul : Prop :=
  ∀ (e : Engine) (n : Nat), e.cfg.akrule = .mul → e.ka = 0 → 2 ≤ n → (Nat.repeat akAdvance n e).ka = 0

/-! ### The hybrid combiner (spec/43_hybrid.md) -/

/-- R106: HYB_INIT restarts the CFB half from the IV, the keystream from its stored keys and the position at 1, and makes all
three sessions ready; it checks the key, then the IV, then the stream keys. -/
def Obligations.HybInitRestartsBothHalves : Prop :=
  encode .hybInit = 0x40000000 ∧ MbzBitsIllegal 0x40 0xFFFFFFFF 0x40000000 ∧
  (∀ s : State, s.engine.keycnt = 16 → ivLengthOk s.engine = true → s.engine.akv = true →
    exec .hybInit s = .next { s with engine := { s.engine with
      sr := BitVec.ofNat 64 (s.engine.ivreg.toNat % 2 ^ widthOf s.engine.cfg.mode)
      ks := 0, phase := 0, ka := s.engine.ak0, kb := s.engine.ak1, akj := 0, pos := 1
      cfbrdy := true, akrdy := true, hybrdy := true, lasterr := 0 } }) ∧
  (∀ s : State, s.engine.keycnt ≠ 16 → exec .hybInit s = .next (failed 0x02 s)) ∧
  (∀ s : State, s.engine.keycnt = 16 → ivLengthOk s.engine = false → exec .hybInit s = .next (failed 0x03 s)) ∧
  (∀ s : State, s.engine.keycnt = 16 → ivLengthOk s.engine = true → s.engine.akv = false →
    exec .hybInit s = .next (failed 0x04 s))

/-- HYB_ENC takes a symbol at an odd position through the CFB unit as 8 bits and one at an even position through the keystream
generator, and moves the position on; a symbol refused leaves the position (R104, R107). -/
def Obligations.HybEncRoutesByPosition : Prop :=
  (∀ (b : Byte) (s : State), s.engine.hybrdy = true → s.engine.pos.toNat % 2 = 1 →
    let r := dataLoop s.params .enc b 8 (0, s.engine)
    exec (.hybEnc b) s = .next { s with engine := { s.engine with
      sr := r.2.sr, ks := r.2.ks, phase := r.2.phase, dout := r.1, pos := s.engine.pos + 1, lasterr := 0 } }) ∧
  (∀ (b : Byte) (base : Nat) (s : State), s.engine.hybrdy = true → s.engine.pos.toNat % 2 = 0 →
    LetterOfBase base b →
    exec (.hybEnc b) s = .next { s with engine := { s.engine with
      dout := movedLetter .enc base b s.engine.ka, ka := s.engine.kb
      kb := BitVec.ofNat 5 (nextTerm s.engine.cfg.akrule s.engine.kb.toNat s.engine.ka.toNat)
      akj := s.engine.akj + 1, pos := s.engine.pos + 1, lasterr := 0 } }) ∧
  (∀ (b : Byte) (s : State), s.engine.hybrdy = true → s.engine.pos.toNat % 2 = 0 → isLetterCode b = false →
    (s.engine.cfg.strict = false →
      exec (.hybEnc b) s = .next { s with engine := { s.engine with
        dout := b, pos := s.engine.pos + 1, lasterr := 0 } }) ∧
    (s.engine.cfg.strict = true → exec (.hybEnc b) s = .next (failed 0x06 s))) ∧
  (∀ (b : Byte) (s : State), s.engine.hybrdy = false → exec (.hybEnc b) s = .next (failed 0x04 s))

/-- HYB_DEC does the same in the other direction (R104, R108). -/
def Obligations.HybDecRoutesByPosition : Prop :=
  (∀ (b : Byte) (s : State), s.engine.hybrdy = true → s.engine.pos.toNat % 2 = 1 →
    let r := dataLoop s.params .dec b 8 (0, s.engine)
    exec (.hybDec b) s = .next { s with engine := { s.engine with
      sr := r.2.sr, ks := r.2.ks, phase := r.2.phase, dout := r.1, pos := s.engine.pos + 1, lasterr := 0 } }) ∧
  (∀ (b : Byte) (base : Nat) (s : State), s.engine.hybrdy = true → s.engine.pos.toNat % 2 = 0 →
    LetterOfBase base b →
    exec (.hybDec b) s = .next { s with engine := { s.engine with
      dout := movedLetter .dec base b s.engine.ka, ka := s.engine.kb
      kb := BitVec.ofNat 5 (nextTerm s.engine.cfg.akrule s.engine.kb.toNat s.engine.ka.toNat)
      akj := s.engine.akj + 1, pos := s.engine.pos + 1, lasterr := 0 } }) ∧
  (∀ (b : Byte) (s : State), s.engine.hybrdy = true → s.engine.pos.toNat % 2 = 0 → isLetterCode b = false →
    (s.engine.cfg.strict = false →
      exec (.hybDec b) s = .next { s with engine := { s.engine with
        dout := b, pos := s.engine.pos + 1, lasterr := 0 } }) ∧
    (s.engine.cfg.strict = true → exec (.hybDec b) s = .next (failed 0x06 s))) ∧
  (∀ (b : Byte) (s : State), s.engine.hybrdy = false → exec (.hybDec b) s = .next (failed 0x04 s))

/-- R109: a hybrid message after HYB_INIT comes out as its odd-position symbols through a fresh CFB session of the same HCE, key, IV
and CFG, and its even-position symbols through a fresh keystream session of the same stream keys, each half end to end; in both directions. -/
def Obligations.HybridEqualsSplitAndMerge : Prop :=
  ∀ (dir : Direction) (s sc sk u uc uk t : State) (m out : List Byte),
    Succeeds .hybInit s u → Succeeds .cfbInit sc uc → Succeeds (.akgLoad s.engine.ak0 s.engine.ak1) sk uk →
    sc.params = s.params → sc.engine.cfg = s.engine.cfg → sk.engine.cfg = s.engine.cfg → SameKey sc.engine s.engine →
    sc.engine.ivreg = s.engine.ivreg →
    hostMessage (hybCommand dir) m u = some (out, t) →
    ∃ tc tk,
      hostMessage (cfbCommand dir 8) (oddPositions m) uc = some (oddPositions out, tc) ∧
      hostMessage (akgCommand dir) (evenPositions m) uk = some (evenPositions out, tk) ∧
      SameStream t.engine tc.engine ∧ SameKeystream t.engine tk.engine

/-- R110: two hybrid messages of the same HCE (the same parameters, R8), CFG, key, IV and stream keys; the first sends m through HYB_ENC with every command
succeeding and the second sends the outputs through HYB_DEC: the second outputs m. Every command does succeed with STRICT = 0,
and with STRICT = 1 where the even-position symbols are letters. -/
def Obligations.HybDecryptionInvertsEncryption : Prop :=
  ∀ (s s' u u' : State) (m : List Byte),
    Succeeds .hybInit s u → Succeeds .hybInit s' u' →
    s.params = s'.params → s.engine.cfg = s'.engine.cfg → SameKey s.engine s'.engine → s.engine.ivreg = s'.engine.ivreg →
    s.engine.ak0 = s'.engine.ak0 → s.engine.ak1 = s'.engine.ak1 →
    (∀ (out : List Byte) (t : State), hostMessage .hybEnc m u = some (out, t) →
      ∃ t', hostMessage .hybDec out u' = some (m, t')) ∧
    (s.engine.cfg.strict = false ∨ evenPositionsAreLetters m = true →
      ∃ out t, hostMessage .hybEnc m u = some (out, t))

/-- A message whose even-position symbols are letters, or any message when STRICT = 0, is encrypted whole: after the host's check
of R121 no command of it can fail (R121, R110). -/
def Obligations.CheckedMessageNeverFails : Prop :=
  ∀ (dir : Direction) (s u : State) (m : List Byte), Succeeds .hybInit s u →
    (s.engine.cfg.strict = false ∨ evenPositionsAreLetters m = true) →
    ∃ out t, hostMessage (hybCommand dir) m u = some (out, t) ∧ out.length = m.length

/-! ### Errors, flags and the whole machine (spec/60_exceptions.md, spec/10_state.md) -/

/-- R118: a command word that fails writes its code to LASTERR and 1 to ERRSEEN and nothing else; one that succeeds writes 0 to
LASTERR and leaves ERRSEEN, but for CLRERR and SOFTRST, whose effect is to clear it. -/
def Obligations.FailedCommandHasNoOtherEffect : Prop :=
  ∀ (v : Word) (s t : State), executeWord v s = .next t →
    (t.engine.lasterr ≠ 0 → t = failed t.engine.lasterr s) ∧
    (t.engine.lasterr = 0 → decode v ≠ .ok .clrerr → decode v ≠ .ok .softrst →
      t.engine.errseen = s.engine.errseen)

/-- R119: every command ends in a next state with the result code of the first check that fails in the order of the rule, and 0x00
where none does; a word that decodes to no command reports ILLEGAL_COMMAND before any check of a command. -/
def Obligations.ResultCodeFollowsThePrecedence : Prop :=
  (∀ (i : Instr) (s : State), ∃ t : State, exec i s = .next t ∧ t.engine.lasterr = resultCode i s.engine) ∧
  (∀ (v : Word) (s : State), illegalWord v = true → ∃ t : State, executeWord v s = .next t ∧ t.engine.lasterr = 0x01)

/-- R38: the ready flags, AKV and ERRSEEN change only as the table says, at every command and at the reset input. -/
def Obligations.SessionFlagsFollowTheTable : Prop :=
  (∀ (i : Instr) (s : State), ∃ t : State, exec i s = .next t ∧
    flagsOf t.engine = if t.engine.lasterr = 0 then flagsAfter i (flagsOf s.engine)
      else { flagsOf s.engine with errseen := true }) ∧
  (∀ (v : Word) (s : State), illegalWord v = true → ∃ t : State, executeWord v s = .next t ∧
    flagsOf t.engine = { flagsOf s.engine with errseen := true }) ∧
  (∀ (s : State) (rest : List HostInput), s.inputs = .reset :: rest → ∃ t : State, step s = .next t ∧
    flagsOf t.engine = ⟨false, false, false, false, false⟩)

/-- R120: a command word that failed fails again with the same code if nothing intervenes. -/
def Obligations.FailedWordFailsAgain : Prop :=
  ∀ (v : Word) (s t : State), executeWord v s = .next t → t.engine.lasterr ≠ 0 → executeWord v t = .next t

/-- Who writes what: each register changes only at the commands that write it (R25, R26, R29 to R31, R34, R35; the clears of KS at
CFB_INIT and HYB_INIT are those of R83 and R106, log 13). -/
def Obligations.EachRegisterChangesOnlyAtItsWriters : Prop :=
  ∀ (i : Instr) (s t : State), exec i s = .next t → i ≠ .softrst →
    (t.engine.cfg ≠ s.engine.cfg → ∃ m r st c, i = .setcfg m r st c) ∧
    (keyBytes t.engine ≠ keyBytes s.engine ∨ t.engine.keycnt ≠ s.engine.keycnt → i = .clrkey ∨ ∃ b, i = .ldkeyb b) ∧
    (t.engine.ivreg ≠ s.engine.ivreg ∨ t.engine.ivcnt ≠ s.engine.ivcnt → i = .clriv ∨ ∃ b, i = .ldivb b) ∧
    (t.engine.bcout ≠ s.engine.bcout → i = .bcEnc ∨ ∃ m r st c, i = .setcfg m r st c) ∧
    (t.engine.sr ≠ s.engine.sr ∨ t.engine.ks ≠ s.engine.ks ∨ t.engine.phase ≠ s.engine.phase →
      i = .cfbInit ∨ i = .hybInit ∨ (∃ m r st c, i = .setcfg m r st c) ∨ (∃ dir n d, i = cfbCommand dir n d) ∨
        ∃ dir b, i = hybCommand dir b) ∧
    (t.engine.ak0 ≠ s.engine.ak0 ∨ t.engine.ak1 ≠ s.engine.ak1 ∨ t.engine.akv ≠ s.engine.akv →
      ∃ k0 k1, i = .akgLoad k0 k1) ∧
    (t.engine.ka ≠ s.engine.ka ∨ t.engine.kb ≠ s.engine.kb ∨ t.engine.akj ≠ s.engine.akj →
      i = .hybInit ∨ (∃ k0 k1, i = .akgLoad k0 k1) ∨ (∃ dir b, i = akgCommand dir b) ∨
        ∃ dir b, i = hybCommand dir b) ∧
    (t.engine.pos ≠ s.engine.pos → i = .hybInit ∨ ∃ dir b, i = hybCommand dir b) ∧
    (t.engine.dout ≠ s.engine.dout → (∃ dir n d, i = cfbCommand dir n d) ∨ (∃ dir b, i = akgCommand dir b) ∨
      ∃ dir b, i = hybCommand dir b) ∧
    t.params = s.params ∧ t.inputs = s.inputs ∧ t.responses = s.responses

/-- The commands of R134, in its order, make the hybrid ready from any state, with exactly the material they carry (BYTE mode, 8 IV
bytes). -/
def Obligations.BootOrderMakesTheHybridReady : Prop :=
  ∀ (s : State) (r : AkRule) (st : Bool) (c : BitVec 7) (k0 k1 k2 k3 : Word) (iv : DWord) (a b : BitVec 5),
    1 ≤ c.toNat → c.toNat ≤ 64 → a.toNat ≤ 25 → b.toNat ≤ 25 →
    ∃ t : State,
      execAll (.setcfg .byte r st c :: (pseudoLdkey k0 k1 k2 k3 ++ (pseudoLdiv iv ++ [.akgLoad a b, .hybInit]))) s =
        .next t ∧
      t.engine.cfg = ⟨.byte, r, st, c⟩ ∧ keyBytes t.engine = keyOf k0 k1 k2 k3 ∧
      t.engine.sr = iv ∧ t.engine.phase = 0 ∧ t.engine.ka = a ∧ t.engine.kb = b ∧ t.engine.akj = 0 ∧
      t.engine.pos = 1 ∧ t.engine.cfbrdy = true ∧ t.engine.akrdy = true ∧ t.engine.hybrdy = true ∧
      t.engine.lasterr = 0

/-- R39 as an invariant of the step: from every state that has 1 to 7 of R39 and a known result code, every step leads to one that
has them. -/
def Obligations.EveryStepKeepsTheInvariant : Prop :=
  ∀ s t : State, Safety.Inv s → step s = .next t → Safety.Inv t

/-- The reset state has the invariant (R39, R132). -/
def Obligations.ResetStateHasTheInvariant : Prop := Safety.Inv State.reset

/-- R39, for all parameters: every state the HCE reaches from reset, by any sequence of inputs, satisfies 1 to 7. -/
def Obligations.EveryRunKeepsTheInvariant : Prop :=
  ∀ (p : Config.CipherParams) (inputs : List HostInput) (t : State), hostRun p inputs = .next t → EngineInv t.engine

/-- The parameters are an argument of the machine that no step changes, commands and resets included; the reset state of a machine
has the parameters it was made with, and by default those of R7 (R7, R8; the defaults are PRESUMED, log 3, which also says why the
state carries the argument). -/
def Obligations.EveryStepKeepsTheParameters : Prop :=
  (∀ s t : State, step s = .next t → t.params = s.params) ∧
  (∀ p : Config.CipherParams, (State.resetWith p).params = p) ∧
  State.reset.params = ⟨0x9E3779B9, 25, 4, 5⟩
end

