-- ==== Sys2Proof/Laws/State.lean ====
section
/-! SUPPORT. One lemma for each field of the state under each named update: what the update leaves and what it writes. -/

namespace Sys2Proof.Machine

@[simp] theorem raiseError_cfg (c : ErrorCode) (e : Engine) : (raiseError c e).cfg = e.cfg := rfl
@[simp] theorem raiseError_key0 (c : ErrorCode) (e : Engine) : (raiseError c e).key0 = e.key0 := rfl
@[simp] theorem raiseError_key1 (c : ErrorCode) (e : Engine) : (raiseError c e).key1 = e.key1 := rfl
@[simp] theorem raiseError_key2 (c : ErrorCode) (e : Engine) : (raiseError c e).key2 = e.key2 := rfl
@[simp] theorem raiseError_key3 (c : ErrorCode) (e : Engine) : (raiseError c e).key3 = e.key3 := rfl
@[simp] theorem raiseError_keycnt (c : ErrorCode) (e : Engine) : (raiseError c e).keycnt = e.keycnt := rfl
@[simp] theorem raiseError_ivreg (c : ErrorCode) (e : Engine) : (raiseError c e).ivreg = e.ivreg := rfl
@[simp] theorem raiseError_ivcnt (c : ErrorCode) (e : Engine) : (raiseError c e).ivcnt = e.ivcnt := rfl
@[simp] theorem raiseError_sr (c : ErrorCode) (e : Engine) : (raiseError c e).sr = e.sr := rfl
@[simp] theorem raiseError_ks (c : ErrorCode) (e : Engine) : (raiseError c e).ks = e.ks := rfl
@[simp] theorem raiseError_phase (c : ErrorCode) (e : Engine) : (raiseError c e).phase = e.phase := rfl
@[simp] theorem raiseError_bcout (c : ErrorCode) (e : Engine) : (raiseError c e).bcout = e.bcout := rfl
@[simp] theorem raiseError_ak0 (c : ErrorCode) (e : Engine) : (raiseError c e).ak0 = e.ak0 := rfl
@[simp] theorem raiseError_ak1 (c : ErrorCode) (e : Engine) : (raiseError c e).ak1 = e.ak1 := rfl
@[simp] theorem raiseError_ka (c : ErrorCode) (e : Engine) : (raiseError c e).ka = e.ka := rfl
@[simp] theorem raiseError_kb (c : ErrorCode) (e : Engine) : (raiseError c e).kb = e.kb := rfl
@[simp] theorem raiseError_akj (c : ErrorCode) (e : Engine) : (raiseError c e).akj = e.akj := rfl
@[simp] theorem raiseError_akv (c : ErrorCode) (e : Engine) : (raiseError c e).akv = e.akv := rfl
@[simp] theorem raiseError_pos (c : ErrorCode) (e : Engine) : (raiseError c e).pos = e.pos := rfl
@[simp] theorem raiseError_cfbrdy (c : ErrorCode) (e : Engine) : (raiseError c e).cfbrdy = e.cfbrdy := rfl
@[simp] theorem raiseError_akrdy (c : ErrorCode) (e : Engine) : (raiseError c e).akrdy = e.akrdy := rfl
@[simp] theorem raiseError_hybrdy (c : ErrorCode) (e : Engine) : (raiseError c e).hybrdy = e.hybrdy := rfl
@[simp] theorem raiseError_dout (c : ErrorCode) (e : Engine) : (raiseError c e).dout = e.dout := rfl
@[simp] theorem raiseError_lasterr (c : ErrorCode) (e : Engine) : (raiseError c e).lasterr = c.code := rfl
@[simp] theorem raiseError_errseen (c : ErrorCode) (e : Engine) : (raiseError c e).errseen = true := rfl

@[simp] theorem succeed_cfg (e : Engine) : (succeed e).cfg = e.cfg := rfl
@[simp] theorem succeed_key0 (e : Engine) : (succeed e).key0 = e.key0 := rfl
@[simp] theorem succeed_key1 (e : Engine) : (succeed e).key1 = e.key1 := rfl
@[simp] theorem succeed_key2 (e : Engine) : (succeed e).key2 = e.key2 := rfl
@[simp] theorem succeed_key3 (e : Engine) : (succeed e).key3 = e.key3 := rfl
@[simp] theorem succeed_keycnt (e : Engine) : (succeed e).keycnt = e.keycnt := rfl
@[simp] theorem succeed_ivreg (e : Engine) : (succeed e).ivreg = e.ivreg := rfl
@[simp] theorem succeed_ivcnt (e : Engine) : (succeed e).ivcnt = e.ivcnt := rfl
@[simp] theorem succeed_sr (e : Engine) : (succeed e).sr = e.sr := rfl
@[simp] theorem succeed_ks (e : Engine) : (succeed e).ks = e.ks := rfl
@[simp] theorem succeed_phase (e : Engine) : (succeed e).phase = e.phase := rfl
@[simp] theorem succeed_bcout (e : Engine) : (succeed e).bcout = e.bcout := rfl
@[simp] theorem succeed_ak0 (e : Engine) : (succeed e).ak0 = e.ak0 := rfl
@[simp] theorem succeed_ak1 (e : Engine) : (succeed e).ak1 = e.ak1 := rfl
@[simp] theorem succeed_ka (e : Engine) : (succeed e).ka = e.ka := rfl
@[simp] theorem succeed_kb (e : Engine) : (succeed e).kb = e.kb := rfl
@[simp] theorem succeed_akj (e : Engine) : (succeed e).akj = e.akj := rfl
@[simp] theorem succeed_akv (e : Engine) : (succeed e).akv = e.akv := rfl
@[simp] theorem succeed_pos (e : Engine) : (succeed e).pos = e.pos := rfl
@[simp] theorem succeed_cfbrdy (e : Engine) : (succeed e).cfbrdy = e.cfbrdy := rfl
@[simp] theorem succeed_akrdy (e : Engine) : (succeed e).akrdy = e.akrdy := rfl
@[simp] theorem succeed_hybrdy (e : Engine) : (succeed e).hybrdy = e.hybrdy := rfl
@[simp] theorem succeed_dout (e : Engine) : (succeed e).dout = e.dout := rfl
@[simp] theorem succeed_lasterr (e : Engine) : (succeed e).lasterr = okCode := rfl
@[simp] theorem succeed_errseen (e : Engine) : (succeed e).errseen = e.errseen := rfl

@[simp] theorem endCfbSessions_cfg (e : Engine) : (endCfbSessions e).cfg = e.cfg := rfl
@[simp] theorem endCfbSessions_key0 (e : Engine) : (endCfbSessions e).key0 = e.key0 := rfl
@[simp] theorem endCfbSessions_key1 (e : Engine) : (endCfbSessions e).key1 = e.key1 := rfl
@[simp] theorem endCfbSessions_key2 (e : Engine) : (endCfbSessions e).key2 = e.key2 := rfl
@[simp] theorem endCfbSessions_key3 (e : Engine) : (endCfbSessions e).key3 = e.key3 := rfl
@[simp] theorem endCfbSessions_keycnt (e : Engine) : (endCfbSessions e).keycnt = e.keycnt := rfl
@[simp] theorem endCfbSessions_ivreg (e : Engine) : (endCfbSessions e).ivreg = e.ivreg := rfl
@[simp] theorem endCfbSessions_ivcnt (e : Engine) : (endCfbSessions e).ivcnt = e.ivcnt := rfl
@[simp] theorem endCfbSessions_sr (e : Engine) : (endCfbSessions e).sr = e.sr := rfl
@[simp] theorem endCfbSessions_ks (e : Engine) : (endCfbSessions e).ks = e.ks := rfl
@[simp] theorem endCfbSessions_phase (e : Engine) : (endCfbSessions e).phase = e.phase := rfl
@[simp] theorem endCfbSessions_bcout (e : Engine) : (endCfbSessions e).bcout = e.bcout := rfl
@[simp] theorem endCfbSessions_ak0 (e : Engine) : (endCfbSessions e).ak0 = e.ak0 := rfl
@[simp] theorem endCfbSessions_ak1 (e : Engine) : (endCfbSessions e).ak1 = e.ak1 := rfl
@[simp] theorem endCfbSessions_ka (e : Engine) : (endCfbSessions e).ka = e.ka := rfl
@[simp] theorem endCfbSessions_kb (e : Engine) : (endCfbSessions e).kb = e.kb := rfl
@[simp] theorem endCfbSessions_akj (e : Engine) : (endCfbSessions e).akj = e.akj := rfl
@[simp] theorem endCfbSessions_akv (e : Engine) : (endCfbSessions e).akv = e.akv := rfl
@[simp] theorem endCfbSessions_pos (e : Engine) : (endCfbSessions e).pos = e.pos := rfl
@[simp] theorem endCfbSessions_cfbrdy (e : Engine) : (endCfbSessions e).cfbrdy = false := rfl
@[simp] theorem endCfbSessions_akrdy (e : Engine) : (endCfbSessions e).akrdy = e.akrdy := rfl
@[simp] theorem endCfbSessions_hybrdy (e : Engine) : (endCfbSessions e).hybrdy = false := rfl
@[simp] theorem endCfbSessions_dout (e : Engine) : (endCfbSessions e).dout = e.dout := rfl
@[simp] theorem endCfbSessions_lasterr (e : Engine) : (endCfbSessions e).lasterr = e.lasterr := rfl
@[simp] theorem endCfbSessions_errseen (e : Engine) : (endCfbSessions e).errseen = e.errseen := rfl

@[simp] theorem endAllSessions_cfg (e : Engine) : (endAllSessions e).cfg = e.cfg := rfl
@[simp] theorem endAllSessions_key0 (e : Engine) : (endAllSessions e).key0 = e.key0 := rfl
@[simp] theorem endAllSessions_key1 (e : Engine) : (endAllSessions e).key1 = e.key1 := rfl
@[simp] theorem endAllSessions_key2 (e : Engine) : (endAllSessions e).key2 = e.key2 := rfl
@[simp] theorem endAllSessions_key3 (e : Engine) : (endAllSessions e).key3 = e.key3 := rfl
@[simp] theorem endAllSessions_keycnt (e : Engine) : (endAllSessions e).keycnt = e.keycnt := rfl
@[simp] theorem endAllSessions_ivreg (e : Engine) : (endAllSessions e).ivreg = e.ivreg := rfl
@[simp] theorem endAllSessions_ivcnt (e : Engine) : (endAllSessions e).ivcnt = e.ivcnt := rfl
@[simp] theorem endAllSessions_sr (e : Engine) : (endAllSessions e).sr = e.sr := rfl
@[simp] theorem endAllSessions_ks (e : Engine) : (endAllSessions e).ks = e.ks := rfl
@[simp] theorem endAllSessions_phase (e : Engine) : (endAllSessions e).phase = e.phase := rfl
@[simp] theorem endAllSessions_bcout (e : Engine) : (endAllSessions e).bcout = e.bcout := rfl
@[simp] theorem endAllSessions_ak0 (e : Engine) : (endAllSessions e).ak0 = e.ak0 := rfl
@[simp] theorem endAllSessions_ak1 (e : Engine) : (endAllSessions e).ak1 = e.ak1 := rfl
@[simp] theorem endAllSessions_ka (e : Engine) : (endAllSessions e).ka = e.ka := rfl
@[simp] theorem endAllSessions_kb (e : Engine) : (endAllSessions e).kb = e.kb := rfl
@[simp] theorem endAllSessions_akj (e : Engine) : (endAllSessions e).akj = e.akj := rfl
@[simp] theorem endAllSessions_akv (e : Engine) : (endAllSessions e).akv = e.akv := rfl
@[simp] theorem endAllSessions_pos (e : Engine) : (endAllSessions e).pos = e.pos := rfl
@[simp] theorem endAllSessions_cfbrdy (e : Engine) : (endAllSessions e).cfbrdy = false := rfl
@[simp] theorem endAllSessions_akrdy (e : Engine) : (endAllSessions e).akrdy = false := rfl
@[simp] theorem endAllSessions_hybrdy (e : Engine) : (endAllSessions e).hybrdy = false := rfl
@[simp] theorem endAllSessions_dout (e : Engine) : (endAllSessions e).dout = e.dout := rfl
@[simp] theorem endAllSessions_lasterr (e : Engine) : (endAllSessions e).lasterr = e.lasterr := rfl
@[simp] theorem endAllSessions_errseen (e : Engine) : (endAllSessions e).errseen = e.errseen := rfl

@[simp] theorem startCfb_cfg (e : Engine) : (startCfb e).cfg = e.cfg := rfl
@[simp] theorem startCfb_key0 (e : Engine) : (startCfb e).key0 = e.key0 := rfl
@[simp] theorem startCfb_key1 (e : Engine) : (startCfb e).key1 = e.key1 := rfl
@[simp] theorem startCfb_key2 (e : Engine) : (startCfb e).key2 = e.key2 := rfl
@[simp] theorem startCfb_key3 (e : Engine) : (startCfb e).key3 = e.key3 := rfl
@[simp] theorem startCfb_keycnt (e : Engine) : (startCfb e).keycnt = e.keycnt := rfl
@[simp] theorem startCfb_ivreg (e : Engine) : (startCfb e).ivreg = e.ivreg := rfl
@[simp] theorem startCfb_ivcnt (e : Engine) : (startCfb e).ivcnt = e.ivcnt := rfl
@[simp] theorem startCfb_sr (e : Engine) : (startCfb e).sr = ivVal e := rfl
@[simp] theorem startCfb_ks (e : Engine) : (startCfb e).ks = 0 := rfl
@[simp] theorem startCfb_phase (e : Engine) : (startCfb e).phase = 0 := rfl
@[simp] theorem startCfb_bcout (e : Engine) : (startCfb e).bcout = e.bcout := rfl
@[simp] theorem startCfb_ak0 (e : Engine) : (startCfb e).ak0 = e.ak0 := rfl
@[simp] theorem startCfb_ak1 (e : Engine) : (startCfb e).ak1 = e.ak1 := rfl
@[simp] theorem startCfb_ka (e : Engine) : (startCfb e).ka = e.ka := rfl
@[simp] theorem startCfb_kb (e : Engine) : (startCfb e).kb = e.kb := rfl
@[simp] theorem startCfb_akj (e : Engine) : (startCfb e).akj = e.akj := rfl
@[simp] theorem startCfb_akv (e : Engine) : (startCfb e).akv = e.akv := rfl
@[simp] theorem startCfb_pos (e : Engine) : (startCfb e).pos = e.pos := rfl
@[simp] theorem startCfb_cfbrdy (e : Engine) : (startCfb e).cfbrdy = e.cfbrdy := rfl
@[simp] theorem startCfb_akrdy (e : Engine) : (startCfb e).akrdy = e.akrdy := rfl
@[simp] theorem startCfb_hybrdy (e : Engine) : (startCfb e).hybrdy = e.hybrdy := rfl
@[simp] theorem startCfb_dout (e : Engine) : (startCfb e).dout = e.dout := rfl
@[simp] theorem startCfb_lasterr (e : Engine) : (startCfb e).lasterr = e.lasterr := rfl
@[simp] theorem startCfb_errseen (e : Engine) : (startCfb e).errseen = e.errseen := rfl

@[simp] theorem startKeystream_cfg (e : Engine) : (startKeystream e).cfg = e.cfg := rfl
@[simp] theorem startKeystream_key0 (e : Engine) : (startKeystream e).key0 = e.key0 := rfl
@[simp] theorem startKeystream_key1 (e : Engine) : (startKeystream e).key1 = e.key1 := rfl
@[simp] theorem startKeystream_key2 (e : Engine) : (startKeystream e).key2 = e.key2 := rfl
@[simp] theorem startKeystream_key3 (e : Engine) : (startKeystream e).key3 = e.key3 := rfl
@[simp] theorem startKeystream_keycnt (e : Engine) : (startKeystream e).keycnt = e.keycnt := rfl
@[simp] theorem startKeystream_ivreg (e : Engine) : (startKeystream e).ivreg = e.ivreg := rfl
@[simp] theorem startKeystream_ivcnt (e : Engine) : (startKeystream e).ivcnt = e.ivcnt := rfl
@[simp] theorem startKeystream_sr (e : Engine) : (startKeystream e).sr = e.sr := rfl
@[simp] theorem startKeystream_ks (e : Engine) : (startKeystream e).ks = e.ks := rfl
@[simp] theorem startKeystream_phase (e : Engine) : (startKeystream e).phase = e.phase := rfl
@[simp] theorem startKeystream_bcout (e : Engine) : (startKeystream e).bcout = e.bcout := rfl
@[simp] theorem startKeystream_ak0 (e : Engine) : (startKeystream e).ak0 = e.ak0 := rfl
@[simp] theorem startKeystream_ak1 (e : Engine) : (startKeystream e).ak1 = e.ak1 := rfl
@[simp] theorem startKeystream_ka (e : Engine) : (startKeystream e).ka = e.ak0 := rfl
@[simp] theorem startKeystream_kb (e : Engine) : (startKeystream e).kb = e.ak1 := rfl
@[simp] theorem startKeystream_akj (e : Engine) : (startKeystream e).akj = 0 := rfl
@[simp] theorem startKeystream_akv (e : Engine) : (startKeystream e).akv = e.akv := rfl
@[simp] theorem startKeystream_pos (e : Engine) : (startKeystream e).pos = e.pos := rfl
@[simp] theorem startKeystream_cfbrdy (e : Engine) : (startKeystream e).cfbrdy = e.cfbrdy := rfl
@[simp] theorem startKeystream_akrdy (e : Engine) : (startKeystream e).akrdy = e.akrdy := rfl
@[simp] theorem startKeystream_hybrdy (e : Engine) : (startKeystream e).hybrdy = e.hybrdy := rfl
@[simp] theorem startKeystream_dout (e : Engine) : (startKeystream e).dout = e.dout := rfl
@[simp] theorem startKeystream_lasterr (e : Engine) : (startKeystream e).lasterr = e.lasterr := rfl
@[simp] theorem startKeystream_errseen (e : Engine) : (startKeystream e).errseen = e.errseen := rfl

@[simp] theorem akAdvance_cfg (e : Engine) : (akAdvance e).cfg = e.cfg := rfl
@[simp] theorem akAdvance_key0 (e : Engine) : (akAdvance e).key0 = e.key0 := rfl
@[simp] theorem akAdvance_key1 (e : Engine) : (akAdvance e).key1 = e.key1 := rfl
@[simp] theorem akAdvance_key2 (e : Engine) : (akAdvance e).key2 = e.key2 := rfl
@[simp] theorem akAdvance_key3 (e : Engine) : (akAdvance e).key3 = e.key3 := rfl
@[simp] theorem akAdvance_keycnt (e : Engine) : (akAdvance e).keycnt = e.keycnt := rfl
@[simp] theorem akAdvance_ivreg (e : Engine) : (akAdvance e).ivreg = e.ivreg := rfl
@[simp] theorem akAdvance_ivcnt (e : Engine) : (akAdvance e).ivcnt = e.ivcnt := rfl
@[simp] theorem akAdvance_sr (e : Engine) : (akAdvance e).sr = e.sr := rfl
@[simp] theorem akAdvance_ks (e : Engine) : (akAdvance e).ks = e.ks := rfl
@[simp] theorem akAdvance_phase (e : Engine) : (akAdvance e).phase = e.phase := rfl
@[simp] theorem akAdvance_bcout (e : Engine) : (akAdvance e).bcout = e.bcout := rfl
@[simp] theorem akAdvance_ak0 (e : Engine) : (akAdvance e).ak0 = e.ak0 := rfl
@[simp] theorem akAdvance_ak1 (e : Engine) : (akAdvance e).ak1 = e.ak1 := rfl
@[simp] theorem akAdvance_ka (e : Engine) : (akAdvance e).ka = e.kb := rfl
@[simp] theorem akAdvance_kb (e : Engine) : (akAdvance e).kb = BitVec.ofNat 5 (recurrence e.cfg.akrule e.kb.toNat e.ka.toNat) := rfl
@[simp] theorem akAdvance_akj (e : Engine) : (akAdvance e).akj = e.akj + 1 := rfl
@[simp] theorem akAdvance_akv (e : Engine) : (akAdvance e).akv = e.akv := rfl
@[simp] theorem akAdvance_pos (e : Engine) : (akAdvance e).pos = e.pos := rfl
@[simp] theorem akAdvance_cfbrdy (e : Engine) : (akAdvance e).cfbrdy = e.cfbrdy := rfl
@[simp] theorem akAdvance_akrdy (e : Engine) : (akAdvance e).akrdy = e.akrdy := rfl
@[simp] theorem akAdvance_hybrdy (e : Engine) : (akAdvance e).hybrdy = e.hybrdy := rfl
@[simp] theorem akAdvance_dout (e : Engine) : (akAdvance e).dout = e.dout := rfl
@[simp] theorem akAdvance_lasterr (e : Engine) : (akAdvance e).lasterr = e.lasterr := rfl
@[simp] theorem akAdvance_errseen (e : Engine) : (akAdvance e).errseen = e.errseen := rfl

@[simp] theorem advancePosition_cfg (e : Engine) : (advancePosition e).cfg = e.cfg := rfl
@[simp] theorem advancePosition_key0 (e : Engine) : (advancePosition e).key0 = e.key0 := rfl
@[simp] theorem advancePosition_key1 (e : Engine) : (advancePosition e).key1 = e.key1 := rfl
@[simp] theorem advancePosition_key2 (e : Engine) : (advancePosition e).key2 = e.key2 := rfl
@[simp] theorem advancePosition_key3 (e : Engine) : (advancePosition e).key3 = e.key3 := rfl
@[simp] theorem advancePosition_keycnt (e : Engine) : (advancePosition e).keycnt = e.keycnt := rfl
@[simp] theorem advancePosition_ivreg (e : Engine) : (advancePosition e).ivreg = e.ivreg := rfl
@[simp] theorem advancePosition_ivcnt (e : Engine) : (advancePosition e).ivcnt = e.ivcnt := rfl
@[simp] theorem advancePosition_sr (e : Engine) : (advancePosition e).sr = e.sr := rfl
@[simp] theorem advancePosition_ks (e : Engine) : (advancePosition e).ks = e.ks := rfl
@[simp] theorem advancePosition_phase (e : Engine) : (advancePosition e).phase = e.phase := rfl
@[simp] theorem advancePosition_bcout (e : Engine) : (advancePosition e).bcout = e.bcout := rfl
@[simp] theorem advancePosition_ak0 (e : Engine) : (advancePosition e).ak0 = e.ak0 := rfl
@[simp] theorem advancePosition_ak1 (e : Engine) : (advancePosition e).ak1 = e.ak1 := rfl
@[simp] theorem advancePosition_ka (e : Engine) : (advancePosition e).ka = e.ka := rfl
@[simp] theorem advancePosition_kb (e : Engine) : (advancePosition e).kb = e.kb := rfl
@[simp] theorem advancePosition_akj (e : Engine) : (advancePosition e).akj = e.akj := rfl
@[simp] theorem advancePosition_akv (e : Engine) : (advancePosition e).akv = e.akv := rfl
@[simp] theorem advancePosition_pos (e : Engine) : (advancePosition e).pos = e.pos + 1 := rfl
@[simp] theorem advancePosition_cfbrdy (e : Engine) : (advancePosition e).cfbrdy = e.cfbrdy := rfl
@[simp] theorem advancePosition_akrdy (e : Engine) : (advancePosition e).akrdy = e.akrdy := rfl
@[simp] theorem advancePosition_hybrdy (e : Engine) : (advancePosition e).hybrdy = e.hybrdy := rfl
@[simp] theorem advancePosition_dout (e : Engine) : (advancePosition e).dout = e.dout := rfl
@[simp] theorem advancePosition_lasterr (e : Engine) : (advancePosition e).lasterr = e.lasterr := rfl
@[simp] theorem advancePosition_errseen (e : Engine) : (advancePosition e).errseen = e.errseen := rfl

@[simp] theorem respond_params (r : BusResponse) (s : State) : (respond r s).params = s.params := rfl
@[simp] theorem respond_engine (r : BusResponse) (s : State) : (respond r s).engine = s.engine := rfl
@[simp] theorem respond_inputs (r : BusResponse) (s : State) : (respond r s).inputs = s.inputs := rfl
@[simp] theorem respond_responses (r : BusResponse) (s : State) : (respond r s).responses = s.responses ++ [r] := rfl

@[simp] theorem resetWith_params (p : Config.CipherParams) : (State.resetWith p).params = p := rfl
@[simp] theorem resetWith_engine (p : Config.CipherParams) : (State.resetWith p).engine = Engine.reset := rfl
@[simp] theorem resetWith_inputs (p : Config.CipherParams) : (State.resetWith p).inputs = [] := rfl
@[simp] theorem resetWith_responses (p : Config.CipherParams) : (State.resetWith p).responses = [] := rfl
theorem reset_eq_resetWith : State.reset = State.resetWith Config.specDefaults := rfl

end Sys2Proof.Machine
end

