-- ==== Sys2Proof/Laws/Ops.lean ====
section
/-! SUPPORT. What the shared operations do, said once: a command's end, the effect behind each command, and executing a word. -/

namespace Sys2Proof.Machine

@[simp] theorem finish_eq (s : State) (r : Except ErrorCode Engine) :
    finish s r = .next { s with engine := conclude s.engine r } := rfl

@[simp] theorem conclude_ok (e e' : Engine) : conclude e (.ok e') = succeed e' := rfl

@[simp] theorem conclude_error (e : Engine) (c : ErrorCode) : conclude e (.error c) = raiseError c e := rfl

theorem code_ne_zero (c : ErrorCode) : c.code ≠ 0 := by cases c <;> decide

theorem code_le_seven (c : ErrorCode) : c.code.toNat ≤ 7 := by cases c <;> decide

theorem okCode_eq_zero : okCode = 0 := rfl

/-- A command reports success exactly when its effect is one. -/
theorem conclude_lasterr_eq_zero_iff (e : Engine) (r : Except ErrorCode Engine) :
    (conclude e r).lasterr = 0 ↔ ∃ e', r = .ok e' := by
  cases r with
  | ok e' => simp [okCode]
  | error c =>
    refine ⟨fun h => absurd h (code_ne_zero c), ?_⟩
    rintro ⟨e', h⟩
    cases h

/-- The effect of each command on the engine of a machine with the parameters `p`, before its end. -/
def commandEffect (p : Config.CipherParams) : Instr → Engine → Except ErrorCode Engine
  | .nop, e => .ok e
  | .softrst, e => .ok (resetEngine e)
  | .clrerr, e => .ok { e with errseen := false }
  | .setcfg m r st c, e => setcfgEffect ⟨m, r, st, c⟩ e
  | .clrkey, e => .ok (endCfbSessions { e with key0 := 0, key1 := 0, key2 := 0, key3 := 0, keycnt := 0 })
  | .ldkeyb b, e => .ok (endCfbSessions { storeKeyByte b e with keycnt := nextKeyCount e.keycnt })
  | .bcEnc, e => bcEncEffect p e
  | .clriv, e => .ok (endCfbSessions { e with ivreg := 0, ivcnt := 0 })
  | .ldivb b, e => .ok (endCfbSessions { e with ivreg := (e.ivreg <<< 8) ||| b.setWidth 64, ivcnt := nextIvCount e.ivcnt })
  | .cfbInit, e => cfbInitEffect e
  | .cfbEnc n d, e => cfbData p .enc n d e
  | .cfbDec n d, e => cfbData p .dec n d e
  | .akgLoad k0 k1, e => akgLoadEffect k0 k1 e
  | .akgEnc b, e => akgData .enc b e
  | .akgDec b, e => akgData .dec b e
  | .hybInit, e => hybInitEffect e
  | .hybEnc b, e => hybData p .enc b e
  | .hybDec b, e => hybData p .dec b e

/-- Every command is its effect and the common end: exec answers a next state and touches nothing but the engine. -/
theorem exec_eq_finish (i : Instr) (s : State) : exec i s = finish s (commandEffect s.params i s.engine) := by
  cases i <;> rfl

theorem exec_next_iff (i : Instr) (s t : State) :
    exec i s = .next t ↔ t = { s with engine := conclude s.engine (commandEffect s.params i s.engine) } := by
  rw [exec_eq_finish, finish_eq, Host.Outcome.next.injEq]
  exact eq_comm

theorem executeWord_of_decode {v : Word} {i : Instr} (h : decode v = .ok i) (s : State) :
    executeWord v s = exec i s := by
  simp [executeWord, h]

theorem executeWord_of_error {v : Word} {err : DecodeError} (h : decode v = .error err) (s : State) :
    executeWord v s = .next { s with engine := raiseError .illegalCommand s.engine } := by
  simp [executeWord, h]

/-- Executing any word is one effect and the common end. -/
theorem executeWord_eq_finish (v : Word) (s : State) :
    ∃ r : Except ErrorCode Engine,
      executeWord v s = .next { s with engine := conclude s.engine r } ∧
      ((∃ i, decode v = .ok i ∧ r = commandEffect s.params i s.engine) ∨
        (∃ err, decode v = .error err) ∧ r = .error .illegalCommand) := by
  cases h : decode v with
  | ok i => exact ⟨_, by rw [executeWord_of_decode h, exec_eq_finish, finish_eq], .inl ⟨i, rfl, rfl⟩⟩
  | error err => exact ⟨.error .illegalCommand, by simp [executeWord, h], .inr ⟨⟨err, rfl⟩, rfl⟩⟩

end Sys2Proof.Machine
end

