-- ==== Sys2Proof/Laws/Additive.lean ====
section
/-! SUPPORT. The keystream generator: letters and their classes, residues, and what one symbol can do. -/

namespace Sys2Proof.Machine

/-! ### Residues -/

theorem recurrence_lt (rule : AkRule) (a b : Nat) : recurrence rule a b < 26 := by
  cases rule <;> exact Nat.mod_lt _ (by decide)

theorem shiftIndex_lt (dir : Direction) (idx : Nat) (k : BitVec 5) : shiftIndex dir idx k < 26 := by
  cases dir <;> (simp only [shiftIndex]; omega)

/-- Moving back what was moved on restores the index (R101). -/
theorem shiftIndex_dec_enc {idx : Nat} (h : idx < 26) (k : BitVec 5) :
    shiftIndex .dec (shiftIndex .enc idx k) k = idx := by
  simp only [shiftIndex]
  omega

/-! ### Letters -/

/-- A class other than passthrough comes from a letter of its case (R93). -/
theorem classify_eq_letter {s : Byte} {c : LetterCase} {idx : Nat} (h : classify s = .letter c idx) :
    idx < 26 ∧ s = letterSymbol c idx := by
  revert h
  simp only [classify]
  split
  · rintro h
    cases h
    refine ⟨by omega, ?_⟩
    apply BitVec.eq_of_toNat_eq
    simp only [letterSymbol, letterBase, BitVec.toNat_ofNat]
    omega
  · split
    · rintro h
      cases h
      refine ⟨by omega, ?_⟩
      apply BitVec.eq_of_toNat_eq
      simp only [letterSymbol, letterBase, BitVec.toNat_ofNat]
      omega
    · rintro h
      cases h

/-- The symbol of a letter is classified as that letter: case and index are kept (R97, R101). -/
theorem classify_letterSymbol (c : LetterCase) {idx : Nat} (h : idx < 26) :
    classify (letterSymbol c idx) = .letter c idx := by
  cases c with
  | upper =>
    have hn : (letterSymbol .upper idx).toNat = 0x41 + idx := by
      simp only [letterSymbol, letterBase, BitVec.toNat_ofNat]
      omega
    unfold classify
    rw [if_pos (by omega), hn, Nat.add_sub_cancel_left]
  | lower =>
    have hn : (letterSymbol .lower idx).toNat = 0x61 + idx := by
      simp only [letterSymbol, letterBase, BitVec.toNat_ofNat]
      omega
    unfold classify
    rw [if_neg (by omega), if_pos (by omega), hn, Nat.add_sub_cancel_left]

/-- A letter is a symbol of one of R16's two ranges. -/
theorem classify_eq_passthrough_iff (s : Byte) :
    classify s = .passthrough ↔
      ¬(0x41 ≤ s.toNat ∧ s.toNat ≤ 0x5A) ∧ ¬(0x61 ≤ s.toNat ∧ s.toNat ≤ 0x7A) := by
  simp only [classify]
  split
  · simp_all
  · split <;> simp_all

/-! ### One symbol -/

/-- Everything one symbol can do (R97): refused, passed through, or moved as a letter with the keystream advanced. -/
theorem akSymbol_cases (dir : Direction) (s : Byte) (e : Engine) :
    (classify s = .passthrough ∧ e.cfg.strict = true ∧ akSymbol dir s e = .error .unsupportedCharacter) ∨
    (classify s = .passthrough ∧ e.cfg.strict = false ∧ akSymbol dir s e = .ok (s, e)) ∨
    ∃ c idx, idx < 26 ∧ s = letterSymbol c idx ∧ classify s = .letter c idx ∧
      akSymbol dir s e = .ok (letterSymbol c (shiftIndex dir idx e.ka), akAdvance e) := by
  cases h : classify s with
  | passthrough =>
    cases hs : e.cfg.strict with
    | true => exact .inl ⟨rfl, rfl, by simp [akSymbol, h, hs]⟩
    | false => exact .inr (.inl ⟨rfl, rfl, by simp [akSymbol, h, hs]⟩)
  | letter c idx =>
    obtain ⟨hi, he⟩ := classify_eq_letter h
    exact .inr (.inr ⟨c, idx, hi, he, rfl, by simp only [akSymbol, h]⟩)

/-- A symbol that succeeds writes KA, KB and AKJ and nothing else of the engine (R97). -/
theorem akSymbol_ok {dir : Direction} {s o : Byte} {e e' : Engine} (h : akSymbol dir s e = .ok (o, e')) :
    e' = { e with ka := e'.ka, kb := e'.kb, akj := e'.akj } := by
  rcases akSymbol_cases dir s e with ⟨-, -, h'⟩ | ⟨-, -, h'⟩ | ⟨c, idx, -, -, -, h'⟩ <;> rw [h'] at h
  · cases h
  · cases h
    rfl
  · cases h
    rfl

/-- Everything a keystream data command can do (R99, R100): its two errors, or a write of KA, KB, AKJ and DOUT. -/
theorem akgData_cases (dir : Direction) (b : Byte) (e : Engine) :
    (e.akrdy = false ∧ akgData dir b e = .error .notInitialised) ∨
    (e.akrdy = true ∧ e.cfg.strict = true ∧ classify b = .passthrough ∧
      akgData dir b e = .error .unsupportedCharacter) ∨
    (e.akrdy = true ∧ ∃ o e', akSymbol dir b e = .ok (o, e') ∧
      akgData dir b e = .ok { e with ka := e'.ka, kb := e'.kb, akj := e'.akj, dout := o }) := by
  unfold akgData
  by_cases hr : e.akrdy = true
  · rw [if_pos hr]
    rcases akSymbol_cases dir b e with ⟨hc, hs, h⟩ | ⟨-, -, h⟩ | ⟨c, idx, -, -, -, h⟩ <;> rw [h]
    · exact .inr (.inl ⟨hr, hs, hc, rfl⟩)
    · exact .inr (.inr ⟨hr, _, _, rfl, rfl⟩)
    · exact .inr (.inr ⟨hr, _, _, rfl, rfl⟩)
  · rw [if_neg hr]
    exact .inl ⟨by simpa using hr, rfl⟩

end Sys2Proof.Machine
end

