-- ==== Sys2Proof/Laws/BlockCipher.lean ====
section
/-! SUPPORT. The block-cipher function: its value fits the register, and it depends on the mode and the key alone. -/

namespace Sys2Proof.Machine

theorem joinBlock_toNat_lt {w : Nat} (r : RoundState w) : (joinBlock r).toNat < 2 ^ (w + w) := by
  have h : (r.v0 ++ r.v1).toNat < 2 ^ (w + w) := (r.v0 ++ r.v1).isLt
  rw [joinBlock, BitVec.toNat_setWidth]
  exact lt_of_le_of_lt (Nat.mod_le _ _) h

/-- `E_w(x)` is an RW-bit value (R71), for any parameters. -/
theorem blockCipher_toNat_lt (p : Config.CipherParams) (e : Engine) (x : DWord) :
    (blockCipher p e x).toNat < 2 ^ registerWidth e.cfg.mode := by
  unfold blockCipher
  cases e.cfg.mode with
  | byte => exact joinBlock_toNat_lt _
  | toy => exact joinBlock_toNat_lt _

/-- `E_w` is a function of the parameters, the mode, the key and x alone (R73). -/
theorem blockCipher_congr (p : Config.CipherParams) {e e' : Engine} (hm : e.cfg.mode = e'.cfg.mode) (h0 : e.key0 = e'.key0)
    (h1 : e.key1 = e'.key1) (h2 : e.key2 = e'.key2) (h3 : e.key3 = e'.key3) (x : DWord) :
    blockCipher p e x = blockCipher p e' x := by
  simp only [blockCipher, roundKeys, hm, h0, h1, h2, h3]

/-- A key byte writes the key words and nothing else (R77). -/
theorem storeKeyByte_frame (b : Byte) (e : Engine) :
    storeKeyByte b e = { e with
      key0 := (storeKeyByte b e).key0, key1 := (storeKeyByte b e).key1
      key2 := (storeKeyByte b e).key2, key3 := (storeKeyByte b e).key3 } := by
  unfold storeKeyByte
  split <;> rfl

end Sys2Proof.Machine
end

