-- ==== Sys2Proof/Laws/Bus.lean ====
section
/-! SUPPORT. The bus and the step, said once: what executing a word does, what serving an input can do, and everything a step
that goes on can have done. -/

namespace Sys2Proof.Machine

/-- The effect of a command word on the engine before its end: its command's, or ILLEGAL_COMMAND (R65). -/
def wordEffect (p : Config.CipherParams) (v : Word) (e : Engine) : Except ErrorCode Engine :=
  match decode v with
  | .ok i => commandEffect p i e
  | .error _ => .error .illegalCommand

theorem executeWord_eq (v : Word) (s : State) :
    executeWord v s = .next { s with engine := conclude s.engine (wordEffect s.params v s.engine) } := by
  unfold executeWord wordEffect
  cases decode v with
  | ok i => simp [exec_eq_finish]
  | error err => rfl

theorem busAccepts_iff (a : BitVec 8) (size : BusSize) :
    busAccepts a size = true ↔ size = .bits32 ∧ a.toNat % 4 = 0 := by
  simp [busAccepts]

/-- A read changes nothing but the responses (R44, R45, R48). -/
theorem hostRead_eq (a : BitVec 8) (size : BusSize) (s : State) :
    ∃ r, hostRead a size s = .next { s with responses := s.responses ++ [r] } := by
  unfold hostRead
  split
  · exact ⟨_, rfl⟩
  · exact ⟨_, rfl⟩

/-- A write answers, and executes its word where it is an accepted write to CMD; no other write changes the engine (R44, R45). -/
theorem hostWrite_cases (a : BitVec 8) (size : BusSize) (v : Word) (s : State) :
    (a = cmdOffset ∧ size = .bits32 ∧ hostWrite a size v s =
      .next { s with engine := conclude s.engine (wordEffect s.params v s.engine), responses := s.responses ++ [.writeDone] }) ∨
    ∃ r, hostWrite a size v s = .next { s with responses := s.responses ++ [r] } := by
  unfold hostWrite
  by_cases h : busAccepts a size = true
  · rw [if_pos h]
    by_cases hc : a = cmdOffset
    · refine .inl ⟨hc, ((busAccepts_iff a size).1 h).1, ?_⟩
      rw [if_pos hc, executeWord_eq]
      rfl
    · rw [if_neg hc]
      exact .inr ⟨_, rfl⟩
  · rw [if_neg h]
    exact .inr ⟨_, rfl⟩

/-- Everything a step that goes on can have done: nothing, with no input waiting; an answer that leaves the engine; a command
word; or a reset. -/
theorem step_next_cases {s t : State} (h : step s = .next t) :
    (s.inputs = [] ∧ t = s) ∨
    ∃ input rest, s.inputs = input :: rest ∧
      ((∃ r, t = { s with inputs := rest, responses := s.responses ++ [r] }) ∨
       (∃ v, input = .transaction (.write 0x00 .bits32 v) ∧
         t = { s with
           engine := conclude s.engine (wordEffect s.params v s.engine)
           inputs := rest
           responses := s.responses ++ [.writeDone] }) ∨
       (input = .reset ∧ t = { s with engine := resetEngine s.engine, inputs := rest })) := by
  unfold step at h
  cases hi : s.inputs with
  | nil =>
    rw [hi] at h
    cases h
    exact .inl ⟨rfl, rfl⟩
  | cons input rest =>
    rw [hi] at h
    refine .inr ⟨input, rest, rfl, ?_⟩
    cases input with
    | reset =>
      cases h
      exact .inr (.inr ⟨rfl, rfl⟩)
    | resetOverlapping t => cases h
    | transaction tr =>
      cases tr with
      | read a size =>
        obtain ⟨r, hr⟩ := hostRead_eq a size { s with inputs := rest }
        simp only [serve, hr] at h
        cases h
        exact .inl ⟨r, rfl⟩
      | write a size v =>
        rcases hostWrite_cases a size v { s with inputs := rest } with ⟨ha, hs, hw⟩ | ⟨r, hw⟩
        · simp only [serve, hw] at h
          cases h
          subst ha hs
          exact .inr (.inl ⟨v, rfl, rfl⟩)
        · simp only [serve, hw] at h
          cases h
          exact .inl ⟨r, rfl⟩

end Sys2Proof.Machine
end

