-- ==== Sys2Proof/Laws/Cfb.lean ====
section
/-! SUPPORT. The CFB unit: what a bit and a stream of bits change, and how streams join. -/

namespace Sys2Proof.Machine

/-! ### Widths -/

theorem modRegister_toNat (m : Mode) (x : DWord) :
    (modRegister m x).toNat = x.toNat % 2 ^ registerWidth m := by
  cases m with
  | byte => simp [modRegister, registerWidth, Nat.mod_eq_of_lt x.isLt]
  | toy =>
    simp only [modRegister, registerWidth, BitVec.toNat_setWidth]
    omega

theorem modRegister_toNat_lt (m : Mode) (x : DWord) : (modRegister m x).toNat < 2 ^ registerWidth m := by
  rw [modRegister_toNat]
  exact Nat.mod_lt _ (by positivity)

theorem shiftIn_toNat (m : Mode) (sr : DWord) (fb : Bool) :
    (shiftIn m sr fb).toNat = (2 * sr.toNat + fb.toNat) % 2 ^ registerWidth m := by
  have h : ((sr <<< 1) ||| (BitVec.ofBool fb).setWidth 64).toNat = (2 * sr.toNat + fb.toNat) % 2 ^ 64 := by
    have hor : ((sr <<< 1) ||| (BitVec.ofBool fb).setWidth 64) = (sr <<< 1) + (BitVec.ofBool fb).setWidth 64 := by
      refine (BitVec.add_eq_or_of_and_eq_zero _ _ ?_).symm
      ext i hi
      cases fb <;> (simp; try omega)
    rw [hor]
    cases fb <;> simp [BitVec.toNat_add, BitVec.toNat_shiftLeft, Nat.shiftLeft_eq] <;> omega
  rw [shiftIn, modRegister_toNat, h]
  cases m <;> simp only [registerWidth] <;> omega

theorem nextPhase_toNat {fbw : BitVec 7} (h : fbw.toNat ≠ 0) (phase : BitVec 7) :
    (nextPhase fbw phase).toNat = (phase.toNat + 1) % fbw.toNat := by
  have hne : fbw ≠ 0 := fun e => h (by simp [e])
  have := Nat.mod_lt (phase.toNat + 1) (Nat.pos_of_ne_zero h)
  have := fbw.isLt
  rw [nextPhase, if_neg hne, BitVec.toNat_ofNat, Nat.mod_eq_of_lt (by omega)]

theorem nextPhase_toNat_lt {fbw : BitVec 7} (h : fbw.toNat ≠ 0) (phase : BitVec 7) :
    (nextPhase fbw phase).toNat < fbw.toNat := by
  rw [nextPhase_toNat h]
  exact Nat.mod_lt _ (Nat.pos_of_ne_zero h)

/-! ### One bit -/

/-- A bit writes KS, SR and PHASE and nothing else (R84). -/
theorem cfbBit_snd (p : Config.CipherParams) (dir : Direction) (b : Bool) (e : Engine) :
    (cfbBit p dir b e).2 = { e with
      ks := (cfbBit p dir b e).2.ks, sr := (cfbBit p dir b e).2.sr, phase := (cfbBit p dir b e).2.phase } := rfl

/-- What goes in and what comes out differ by the keystream bit (R84). -/
theorem cfbBit_fst (p : Config.CipherParams) (dir : Direction) (b : Bool) (e : Engine) :
    (cfbBit p dir b e).1 = (b ^^ keystreamBit e.cfg.mode (chunkKeystream p e) e.phase) := rfl

theorem cfbBit_ks (p : Config.CipherParams) (dir : Direction) (b : Bool) (e : Engine) : (cfbBit p dir b e).2.ks = chunkKeystream p e := rfl

theorem cfbBit_phase (p : Config.CipherParams) (dir : Direction) (b : Bool) (e : Engine) :
    (cfbBit p dir b e).2.phase = nextPhase e.cfg.fbw e.phase := rfl

theorem cfbBit_sr (p : Config.CipherParams) (dir : Direction) (b : Bool) (e : Engine) :
    (cfbBit p dir b e).2.sr = shiftIn e.cfg.mode e.sr (feedbackBit dir b (cfbBit p dir b e).1) := rfl

/-! ### Streams -/

@[simp] theorem cfbStream_nil (p : Config.CipherParams) (e : Engine) : cfbStream p [] e = ([], e) := rfl

@[simp] theorem cfbStream_cons (p : Config.CipherParams) (dir : Direction) (b : Bool) (xs : List (Direction × Bool)) (e : Engine) :
    cfbStream p ((dir, b) :: xs) e =
      ((cfbBit p dir b e).1 :: (cfbStream p xs (cfbBit p dir b e).2).1, (cfbStream p xs (cfbBit p dir b e).2).2) := rfl

/-- A stream writes KS, SR and PHASE and nothing else. -/
theorem cfbStream_snd (p : Config.CipherParams) (xs : List (Direction × Bool)) (e : Engine) :
    (cfbStream p xs e).2 = { e with
      ks := (cfbStream p xs e).2.ks, sr := (cfbStream p xs e).2.sr, phase := (cfbStream p xs e).2.phase } := by
  induction xs generalizing e with
  | nil => rfl
  | cons x xs ih =>
    obtain ⟨dir, b⟩ := x
    rw [cfbStream_cons]
    exact (ih _).trans rfl

/-- As many bits come out as go in (R92). -/
theorem cfbStream_length (p : Config.CipherParams) (xs : List (Direction × Bool)) (e : Engine) : (cfbStream p xs e).1.length = xs.length := by
  induction xs generalizing e with
  | nil => rfl
  | cons x xs ih =>
    obtain ⟨dir, b⟩ := x
    simp [ih]

/-- Streams join: the second starts where the first ended (R89). -/
theorem cfbStream_append (p : Config.CipherParams) (xs ys : List (Direction × Bool)) (e : Engine) :
    cfbStream p (xs ++ ys) e =
      ((cfbStream p xs e).1 ++ (cfbStream p ys (cfbStream p xs e).2).1, (cfbStream p ys (cfbStream p xs e).2).2) := by
  induction xs generalizing e with
  | nil => rfl
  | cons x xs ih =>
    obtain ⟨dir, b⟩ := x
    simp [ih]

theorem cfbBits_length (p : Config.CipherParams) (dir : Direction) (bits : List Bool) (e : Engine) :
    (cfbBits p dir bits e).1.length = bits.length := by
  simp [cfbBits, cfbStream_length]

@[simp] theorem dataBits_length (n : Nat) (d : Byte) : (dataBits n d).length = n := by
  induction n with
  | zero => rfl
  | succ n ih => simp [dataBits, ih]

/-- A bit's outcome depends on the mode, c, the key, SR, KS and PHASE alone (R91). -/
theorem chunkKeystream_congr (p : Config.CipherParams) {e e' : Engine} (hm : e.cfg.mode = e'.cfg.mode) (h0 : e.key0 = e'.key0)
    (h1 : e.key1 = e'.key1) (h2 : e.key2 = e'.key2) (h3 : e.key3 = e'.key3) (hs : e.sr = e'.sr)
    (hk : e.ks = e'.ks) (hp : e.phase = e'.phase) : chunkKeystream p e = chunkKeystream p e' := by
  simp only [chunkKeystream, blockCipher_congr p hm h0 h1 h2 h3, hs, hk, hp]

/-! ### Bits of a byte -/

theorem getElem_dataBits (n : Nat) (d : Byte) (i : Nat) (h : i < (dataBits n d).length) :
    (dataBits n d)[i] = d.getLsbD (n - 1 - i) := by
  induction n generalizing i with
  | zero => simp [dataBits] at h
  | succ n ih =>
    cases i with
    | zero => simp [dataBits]
    | succ i =>
      have hi : i < (dataBits n d).length := by simpa [dataBits] using h
      have hn : n - 1 - i = n - (i + 1) := by omega
      simp [dataBits, ih i hi, hn]

/-- Bit j of a packed list is the bit that stands j places from its end; above the list it is 0 (R86). -/
theorem getLsbD_packBits (n : Nat) (bits : List Bool) (j : Nat) (hj : j < n) :
    (packBits n bits).getLsbD j = if j < bits.length then bits.getD (bits.length - 1 - j) false else false := by
  have h : ∀ (bits : List Bool) (acc : BitVec n) (j : Nat), j < n →
      (bits.foldl (fun (a : BitVec n) b => (a <<< 1) ||| (BitVec.ofBool b).setWidth n) acc).getLsbD j =
        if j < bits.length then bits.getD (bits.length - 1 - j) false else acc.getLsbD (j - bits.length) := by
    intro bits
    induction bits with
    | nil => intro acc j _; simp
    | cons b bs ih =>
      intro acc j hj
      rw [List.foldl_cons, ih _ _ hj]
      simp only [List.length_cons]
      by_cases h : j < bs.length
      · rw [if_pos h, if_pos (by omega), show bs.length + 1 - 1 - j = (bs.length - 1 - j) + 1 by omega,
          List.getD_cons_succ]
      · rw [if_neg h]
        by_cases h' : j = bs.length
        · rw [if_pos (by omega), show bs.length + 1 - 1 - j = 0 by omega, List.getD_cons_zero, h', Nat.sub_self,
            BitVec.getLsbD_or]
          have hn : 0 < n := by omega
          cases b <;> simp [hn]
        · rw [if_neg (by omega), show j - bs.length = (j - (bs.length + 1)) + 1 by omega, BitVec.getLsbD_or]
          have hn : j - (bs.length + 1) + 1 < n := by omega
          cases b <;> simp [hn, BitVec.getLsbD_eq_getElem (show j - (bs.length + 1) < n by omega)]
  have := h bits 0 j hj
  simpa [packBits] using this

/-- Packing at most 8 bits and taking them out again gives them back (R60, R86). -/
theorem dataBits_packBits {bits : List Bool} (h : bits.length ≤ 8) :
    dataBits bits.length (packBits 8 bits) = bits := by
  apply List.ext_getElem (by simp)
  intro i h1 h2
  have h1' : i < bits.length := h2
  rw [getElem_dataBits, getLsbD_packBits _ _ _ (by omega), if_pos (by omega),
    show bits.length - 1 - (bits.length - 1 - i) = i by omega, List.getD_eq_getElem _ _ h1']

/-! ### Data commands -/

/-- Everything a CFB data command can do (R86, R87): its two errors, or a write of SR, KS, PHASE and DOUT, DOUT staying
where there is no bit. -/
theorem cfbData_cases (p : Config.CipherParams) (dir : Direction) (n : BitVec 4) (d : Byte) (e : Engine) :
    (8 < n.toNat ∧ cfbData p dir n d e = .error .illegalCommand) ∨
    (n.toNat ≤ 8 ∧ e.cfbrdy = false ∧ cfbData p dir n d e = .error .notInitialised) ∨
    (n.toNat ≤ 8 ∧ e.cfbrdy = true ∧ cfbData p dir n d e = .ok { e with
      sr := (cfbBits p dir (dataBits n.toNat d) e).2.sr
      ks := (cfbBits p dir (dataBits n.toNat d) e).2.ks
      phase := (cfbBits p dir (dataBits n.toNat d) e).2.phase
      dout := if n = 0 then e.dout else packBits 8 (cfbBits p dir (dataBits n.toNat d) e).1 }) := by
  unfold cfbData
  by_cases h : n.toNat ≤ 8
  · have hl : legalBitCount n = true := decide_eq_true h
    rw [if_pos hl]
    by_cases hr : e.cfbrdy = true
    · refine .inr (.inr ⟨h, hr, ?_⟩)
      rw [if_pos hr]
      obtain ⟨x, y, z, hf⟩ : ∃ x y z, (cfbBits p dir (dataBits n.toNat d) e).2 = { e with sr := x, ks := y, phase := z } :=
        ⟨_, _, _, cfbStream_snd p ((dataBits n.toNat d).map fun b => (dir, b)) e⟩
      by_cases h0 : n = 0
      · simp only [if_pos h0, hf]
      · simp only [if_neg h0, hf]
    · rw [if_neg hr]
      exact .inr (.inl ⟨h, by simpa using hr, rfl⟩)
  · have hl : ¬legalBitCount n = true := by simpa [legalBitCount] using h
    rw [if_neg hl]
    exact .inl ⟨by omega, rfl⟩

end Sys2Proof.Machine
end

