-- ==== Sys2Proof/Laws/Decode.lean ====
section
/-! SUPPORT. The decoder said once: a word decodes to a command exactly when a row of the map selects it and its bit count is
legal. -/

namespace Sys2Proof

theorem rowOf_some {opc : BitVec 8} {r : OpcodeRow} (h : rowOf opc = some r) :
    r ∈ opcodeTable ∧ r.opc = opc :=
  ⟨List.mem_of_find?_eq_some h, by simpa using List.find?_some h⟩

/-- What a successful decode went through (R65). -/
theorem decode_eq_ok {v : Word} {i : Instr} (h : decode v = .ok i) :
    ∃ r, r ∈ opcodeTable ∧ r.opc = opcField v ∧ r.selects v = true ∧
      ¬(r.format = .d ∧ 8 < (countField v).toNat) ∧ i = r.build v := by
  revert h
  simp only [decode]
  cases hr : rowOf (opcField v) with
  | none => simp
  | some r =>
    obtain ⟨hm, ho⟩ := rowOf_some hr
    by_cases hs : r.selects v = true
    · by_cases hd : r.format = .d ∧ 8 < (countField v).toNat
      · simp [hs, hd]
      · simp only [hs, hd, if_true, if_false]
        intro h
        cases h
        exact ⟨r, hm, ho, hs, hd, rfl⟩
    · simp [hs]

/-- A row that selects a word has the word's opcode: every mask covers bits [31:24] (R64). -/
theorem opc_of_selects {r : OpcodeRow} {v : Word} (h : r.selects v = true) : r.opc = opcField v := by
  have h' : v &&& r.mask = r.matchWord := by simpa [OpcodeRow.selects] using h
  have hm : (r.mask).extractLsb' 24 8 = 0xFF#8 := by
    simp only [OpcodeRow.mask]
    cases r.format <;> decide
  have hw : r.matchWord.extractLsb' 24 8 = r.opc := by
    ext i hi
    rw [BitVec.getElem_extractLsb', OpcodeRow.matchWord, BitVec.getLsbD_cast, BitVec.getLsbD_append]
    simp [hi]
  have hx : (v &&& r.mask).extractLsb' 24 8 = v.extractLsb' 24 8 &&& r.mask.extractLsb' 24 8 := by
    ext i hi
    simp
  rw [← hw, ← h', hx, hm, opcField]
  ext i hi
  have : (255#8)[i] = true := by
    have : ∀ j : Fin 8, (255#8).getLsbD j.val = true := by decide
    simpa [BitVec.getLsbD_eq_getElem hi] using this ⟨i, hi⟩
  simp [this]

/-! ### Words from their fields

A word with the fixed bits of its row is the word its fields make. -/

theorem selects_iff (r : OpcodeRow) (v : Word) : r.selects v = true ↔ v &&& r.format.mask = wordN r.opc := by
  simp [OpcodeRow.selects, OpcodeRow.mask, OpcodeRow.matchWord, wordN]

theorem getLsbD_of_and_eq {v m w : Word} (h : v &&& m = w) (i : Nat) :
    (v.getLsbD i && m.getLsbD i) = w.getLsbD i := by
  rw [← h, BitVec.getLsbD_and]

theorem modeField_bit (v : Word) : (modeField v).bit = BitVec.ofBool (v.getLsbD 0) := by
  unfold modeField
  cases v.getLsbD 0 <;> rfl

theorem ruleField_bit (v : Word) : (ruleField v).bit = BitVec.ofBool (v.getLsbD 1) := by
  unfold ruleField
  cases v.getLsbD 1 <;> rfl

theorem wordN_of_mask {v : Word} {o : BitVec 8} (h : v &&& Format.n.mask = wordN o) : wordN o = v := by
  rw [← h]
  ext i hi
  have := getLsbD_of_and_eq h i
  simp only [Format.mask] at this ⊢
  interval_cases i <;> simp_all

theorem wordB_of_mask {v : Word} {o : BitVec 8} (h : v &&& Format.b.mask = wordN o) :
    wordB o (byteField v) = v := by
  apply BitVec.eq_of_getLsbD_eq
  intro i hi
  have := getLsbD_of_and_eq h i
  simp only [Format.mask, wordB, wordN, byteField, BitVec.getLsbD_cast, BitVec.getLsbD_append,
    BitVec.getLsbD_extractLsb'] at this ⊢
  interval_cases i <;> simp_all

theorem wordD_of_mask {v : Word} {o : BitVec 8} (h : v &&& Format.d.mask = wordN o) :
    wordD o (countField v) (byteField v) = v := by
  apply BitVec.eq_of_getLsbD_eq
  intro i hi
  have := getLsbD_of_and_eq h i
  simp only [Format.mask, wordD, wordN, byteField, countField, BitVec.getLsbD_cast, BitVec.getLsbD_append,
    BitVec.getLsbD_extractLsb'] at this ⊢
  interval_cases i <;> simp_all

theorem wordK_of_mask {v : Word} {o : BitVec 8} (h : v &&& Format.k.mask = wordN o) :
    wordK o (k0Field v) (k1Field v) = v := by
  apply BitVec.eq_of_getLsbD_eq
  intro i hi
  have := getLsbD_of_and_eq h i
  simp only [Format.mask, wordK, wordN, k0Field, k1Field, BitVec.getLsbD_cast, BitVec.getLsbD_append,
    BitVec.getLsbD_extractLsb'] at this ⊢
  interval_cases i <;> simp_all

theorem wordC_of_mask {v : Word} {o : BitVec 8} (h : v &&& Format.c.mask = wordN o) :
    wordC o (modeField v) (ruleField v) (strictField v) (fbwField v) = v := by
  apply BitVec.eq_of_getLsbD_eq
  intro i hi
  have := getLsbD_of_and_eq h i
  simp only [Format.mask, wordC, configBits, modeField_bit, ruleField_bit, wordN, strictField, fbwField,
    BitVec.getLsbD_cast, BitVec.getLsbD_append, BitVec.getLsbD_extractLsb'] at this ⊢
  interval_cases i <;> simp_all

end Sys2Proof
end

