-- ==== Sys2Proof/Laws/Hybrid.lean ====
section
/-! SUPPORT. The hybrid combiner: everything one hybrid symbol can do. -/

namespace Sys2Proof.Machine

/-- The position moves on by one and its parity turns, at the wrap of POS too (R35, R104). -/
theorem pos_add_one_parity (p : Word) : (p + 1).toNat % 2 = 1 - p.toNat % 2 := by
  have h1 : (1 : Word).toNat = 1 := rfl
  rw [BitVec.toNat_add, h1]
  omega

/-- At an odd position a symbol goes through the CFB unit and cannot fail (R104). -/
theorem hybSymbol_odd (p : Config.CipherParams) {e : Engine} (h : e.pos.toNat % 2 = 1) (dir : Direction) (b : Byte) :
    hybSymbol p dir b e = .ok ((cfbByte p dir b e).1, advancePosition (cfbByte p dir b e).2) := by
  simp [hybSymbol, oddPosition, h]

/-- At an even position a symbol goes through the keystream generator (R104). -/
theorem hybSymbol_even (p : Config.CipherParams) {e : Engine} (h : e.pos.toNat % 2 = 0) (dir : Direction) (b : Byte) :
    hybSymbol p dir b e =
      match akSymbol dir b e with
      | .ok (o, e') => .ok (o, advancePosition e')
      | .error c => .error c := by
  unfold hybSymbol
  exact if_neg (by simp [oddPosition, h])

/-- A byte through the CFB unit writes KS, SR and PHASE and nothing else. -/
theorem cfbByte_snd (p : Config.CipherParams) (dir : Direction) (b : Byte) (e : Engine) :
    (cfbByte p dir b e).2 = { e with
      ks := (cfbByte p dir b e).2.ks, sr := (cfbByte p dir b e).2.sr, phase := (cfbByte p dir b e).2.phase } :=
  cfbStream_snd p ((dataBits 8 b).map fun x => (dir, x)) e

/-- Everything a hybrid data command can do (R104, R107, R108): its two errors; at an odd position a write of SR, KS, PHASE,
POS and DOUT; at an even one a write of KA, KB, AKJ, POS and DOUT. -/
theorem hybData_cases (p : Config.CipherParams) (dir : Direction) (b : Byte) (e : Engine) :
    (e.hybrdy = false ∧ hybData p dir b e = .error .notInitialised) ∨
    (e.hybrdy = true ∧ e.pos.toNat % 2 = 0 ∧ e.cfg.strict = true ∧ classify b = .passthrough ∧
      hybData p dir b e = .error .unsupportedCharacter) ∨
    (e.hybrdy = true ∧ e.pos.toNat % 2 = 1 ∧ hybData p dir b e = .ok { e with
      sr := (cfbByte p dir b e).2.sr, ks := (cfbByte p dir b e).2.ks, phase := (cfbByte p dir b e).2.phase
      dout := (cfbByte p dir b e).1, pos := e.pos + 1 }) ∨
    (e.hybrdy = true ∧ e.pos.toNat % 2 = 0 ∧ ∃ o e', akSymbol dir b e = .ok (o, e') ∧
      hybData p dir b e = .ok { e with ka := e'.ka, kb := e'.kb, akj := e'.akj, dout := o, pos := e.pos + 1 }) := by
  unfold hybData
  by_cases hr : e.hybrdy = true
  · rw [if_pos hr]
    by_cases hp : e.pos.toNat % 2 = 1
    · refine .inr (.inr (.inl ⟨hr, hp, ?_⟩))
      rw [hybSymbol_odd p hp]
      obtain ⟨x, y, z, hf⟩ : ∃ x y z, (cfbByte p dir b e).2 = { e with sr := x, ks := y, phase := z } :=
        ⟨_, _, _, cfbByte_snd p dir b e⟩
      rw [hf]
      rfl
    · have hp0 : e.pos.toNat % 2 = 0 := by omega
      rw [hybSymbol_even p hp0]
      rcases akSymbol_cases dir b e with ⟨hc, hs, h⟩ | ⟨-, -, h⟩ | ⟨c, idx, -, -, -, h⟩ <;> rw [h]
      · exact .inr (.inl ⟨hr, hp0, hs, hc, rfl⟩)
      · exact .inr (.inr (.inr ⟨hr, hp0, _, _, rfl, rfl⟩))
      · exact .inr (.inr (.inr ⟨hr, hp0, _, _, rfl, rfl⟩))
  · rw [if_neg hr]
    exact .inl ⟨by simpa using hr, rfl⟩

end Sys2Proof.Machine
end

