-- ==== Sys2Proof/Laws/PerInstr.lean ====
section
/-! SUPPORT. A fact about each command as syntax: its word matches its own row of spec/opcode_table.json. -/

namespace Sys2Proof.Laws.TableRow

/-- The match and mask of a command's row in spec/opcode_table.json. -/
def row : Instr → Word × Word
  | .nop => (0x00000000, 0xFFFFFFFF)
  | .softrst => (0x01000000, 0xFFFFFFFF)
  | .clrerr => (0x02000000, 0xFFFFFFFF)
  | .setcfg _ _ _ _ => (0x03000000, 0xFFFF80F8)
  | .clrkey => (0x10000000, 0xFFFFFFFF)
  | .ldkeyb _ => (0x11000000, 0xFFFFFF00)
  | .bcEnc => (0x12000000, 0xFFFFFFFF)
  | .clriv => (0x20000000, 0xFFFFFFFF)
  | .ldivb _ => (0x21000000, 0xFFFFFF00)
  | .cfbInit => (0x22000000, 0xFFFFFFFF)
  | .cfbEnc _ _ => (0x23000000, 0xFFFFF000)
  | .cfbDec _ _ => (0x24000000, 0xFFFFF000)
  | .akgLoad _ _ => (0x30000000, 0xFFFFE0E0)
  | .akgEnc _ => (0x31000000, 0xFFFFFF00)
  | .akgDec _ => (0x32000000, 0xFFFFFF00)
  | .hybInit => (0x40000000, 0xFFFFFFFF)
  | .hybEnc _ => (0x41000000, 0xFFFFFF00)
  | .hybDec _ => (0x42000000, 0xFFFFFF00)

/-- The word of a command has the fixed bits of its row: `(encode i) & mask = match` (R64). -/
def Statement (i : Instr) : Prop := encode i &&& (row i).2 = (row i).1

theorem nop : Statement .nop := by unfold Statement; decide
theorem softrst : Statement .softrst := by unfold Statement; decide
theorem clrerr : Statement .clrerr := by unfold Statement; decide
theorem setcfg (m : Mode) (r : AkRule) (st : Bool) (c : BitVec 7) : Statement (.setcfg m r st c) := by
  unfold Statement
  revert c
  cases m <;> cases r <;> cases st <;> decide +kernel
theorem clrkey : Statement .clrkey := by unfold Statement; decide
theorem ldkeyb (b : Byte) : Statement (.ldkeyb b) := by
  unfold Statement
  revert b
  decide +kernel
theorem bcEnc : Statement .bcEnc := by unfold Statement; decide
theorem clriv : Statement .clriv := by unfold Statement; decide
theorem ldivb (b : Byte) : Statement (.ldivb b) := by
  unfold Statement
  revert b
  decide +kernel
theorem cfbInit : Statement .cfbInit := by unfold Statement; decide
theorem cfbEnc (n : BitVec 4) (d : Byte) : Statement (.cfbEnc n d) := by
  unfold Statement
  revert n d
  decide +kernel
theorem cfbDec (n : BitVec 4) (d : Byte) : Statement (.cfbDec n d) := by
  unfold Statement
  revert n d
  decide +kernel
theorem akgLoad (k0 k1 : BitVec 5) : Statement (.akgLoad k0 k1) := by
  unfold Statement
  revert k0 k1
  decide +kernel
theorem akgEnc (b : Byte) : Statement (.akgEnc b) := by
  unfold Statement
  revert b
  decide +kernel
theorem akgDec (b : Byte) : Statement (.akgDec b) := by
  unfold Statement
  revert b
  decide +kernel
theorem hybInit : Statement .hybInit := by unfold Statement; decide
theorem hybEnc (b : Byte) : Statement (.hybEnc b) := by
  unfold Statement
  revert b
  decide +kernel
theorem hybDec (b : Byte) : Statement (.hybDec b) := by
  unfold Statement
  revert b
  decide +kernel

end Sys2Proof.Laws.TableRow
end

