-- ==== Sys2Proof/Tests/Slice0.lean ====
section
/-! SUPPORT. The model's own tests, with expected results from spec/95_test_vectors.md and the rules' own examples (the vectors
that run the block cipher rest on its default parameters, log 3), and a witness for the hypotheses of each statement. -/

namespace Sys2Proof.Tests

open Sys2Proof Sys2Proof.Machine Sys2Proof.Safety Sys2Proof.Reference

/-! ### Helpers -/

/-- The machine with the default parameters and an engine, no input waiting. -/
def holding (e : Engine) : State := { State.reset with engine := e }

/-- The state a step or a command goes on to. -/
def nextOf : Host.Outcome State Fault Refusal → Option State
  | .next s => some s
  | .fault _ => none
  | .refused _ => none

/-- The engine after one step that executes a command word. -/
def after (w : Nat) (e : Engine) : Option Engine :=
  (nextOf (step ((holding e).withFetchWord 32 w))).map (·.engine)

/-- The engine and the responses after one step on one input. -/
def serving (input : HostInput) (e : Engine) : Option (Engine × List BusResponse) :=
  (nextOf (step { holding e with inputs := [input] })).map fun s => (s.engine, s.responses)

/-- BYTE mode, c = 1, key 0, IV 0, after CFB_INIT (V-CFB6). -/
def zeroKey : Engine := { Engine.reset with keycnt := 16, ivcnt := 8, cfbrdy := true }

/-- Key K87 and IV0123 in BYTE mode with feedback width c, after CFB_INIT and AKG_LOAD 7, 11. -/
def k87 (c : BitVec 7) : Engine :=
  { Engine.reset with cfg := ⟨.byte, .add, false, c⟩, key0 := 0x12345678, key1 := 0x9ABCDEF0, key2 := 0x0FEDCBA9, key3 := 0x87654321, keycnt := 16, ivreg := 0x0123456789ABCDEF, ivcnt := 8, sr := 0x0123456789ABCDEF, ak0 := 7, ak1 := 11, ka := 7, kb := 11, akv := true, akrdy := true, cfbrdy := true }

/-- The TOY setup of spec/95_test_vectors.md after HYB_INIT (section 2.7). -/
def toy (rule : AkRule) (strict : Bool) (c : BitVec 7) : Engine :=
  { Engine.reset with cfg := ⟨.toy, rule, strict, c⟩, key0 := 1, key1 := 2, key2 := 3, key3 := 4, keycnt := 16, ivreg := 0x2A5, ivcnt := 2, sr := 0x2A5, ak0 := 7, ak1 := 11, ka := 7, kb := 11, akv := true, akrdy := true, cfbrdy := true, hybrdy := true }

/-! ### Well-formedness -/

/-- Format D with N = 9 to 15 is ill-formed (R60), and N = 8 is not. -/
theorem test_wf_refuses_long_counts :
    Instr.wf (.cfbEnc 9 0) = false ∧ Instr.wf (.cfbDec 15 0xFF) = false ∧ Instr.wf (.cfbEnc 8 0) = true := by decide

/-! ### Decoding: words written out from R58 to R64 and the listings of part 3 -/

/-- Control: V-ENC1 to V-ENC3, V-CTL5. -/
theorem test_decode_control :
    decode 0x00000000 = .ok .nop ∧ decode 0x01000000 = .ok .softrst ∧ decode 0x02000000 = .ok .clrerr ∧
    decode 0x03000503 = .ok (.setcfg .toy .mul false 5) ∧ decode 0x03007F04 = .ok (.setcfg .byte .add true 127) := by
  decide

/-- Block cipher: the listing of P5. -/
theorem test_decode_block :
    decode 0x10000000 = .ok .clrkey ∧ decode 0x110000BC = .ok (.ldkeyb 0xBC) ∧ decode 0x12000000 = .ok .bcEnc := by
  decide

/-- CFB: the listings of P1 and P4. -/
theorem test_decode_cfb :
    decode 0x20000000 = .ok .clriv ∧ decode 0x210000EF = .ok (.ldivb 0xEF) ∧ decode 0x22000000 = .ok .cfbInit ∧
    decode 0x230002FF = .ok (.cfbEnc 2 0xFF) ∧ decode 0x240008DB = .ok (.cfbDec 8 0xDB) := by decide

/-- Keystream: V-ENC4, V-ENC20, V-ENC21 and the listing of P2. -/
theorem test_decode_keystream :
    decode 0x30000B07 = .ok (.akgLoad 7 11) ∧ decode 0x3000001A = .ok (.akgLoad 26 0) ∧
    decode 0x30001A00 = .ok (.akgLoad 0 26) ∧ decode 0x31000049 = .ok (.akgEnc 0x49) ∧
    decode 0x32000050 = .ok (.akgDec 0x50) := by decide

/-- Hybrid: the listing of P3. -/
theorem test_decode_hybrid :
    decode 0x40000000 = .ok .hybInit ∧ decode 0x4100002C = .ok (.hybEnc 0x2C) ∧
    decode 0x420000C5 = .ok (.hybDec 0xC5) := by decide

/-- Illegal words: V-ENC7 to V-ENC18. -/
theorem test_decode_refuses :
    [0x04000000, 0x13000000, 0xFF000000].all (fun v => (decodeTableWord 32 v).isNone) ∧
    [0x00000001, 0x11000100, 0x23001000, 0x03000108, 0x03008100, 0x30000020, 0x30002000].all
      (fun v => (decodeTableWord 32 v).isNone) ∧
    [0x23000900, 0x23000F00].all (fun v => (decodeTableWord 32 v).isNone) := by decide

/-- The encoder gives the words of the rules' examples (R98, R116, R107). -/
theorem test_encode_examples :
    encode (.setcfg .toy .mul false 5) = 0x03000503 ∧ encode (.akgLoad 7 11) = 0x30000B07 ∧
    encode (.cfbEnc 8 0x48) = 0x23000848 := by decide

/-- A table word runs as the first command after reset: V-ENC4. -/
theorem test_table_word_runs :
    decodeTableWord 32 0x30000B07 = some (.akgLoad 7 11) ∧
    (nextOf (step (State.reset.withFetchWord 32 0x30000B07))).map (fun s => s.engine.akv) = some true := by decide

/-! ### The bus (spec/95_test_vectors.md, section 2.2) -/

/-- V-BUS1 to V-BUS3. -/
theorem test_reads :
    serving (.transaction (.read 0x50 .bits32)) Engine.reset = some (Engine.reset, [.readValue 0x48434531]) ∧
    serving (.transaction (.read 0x00 .bits32)) Engine.reset = some (Engine.reset, [.readValue 0]) ∧
    serving (.transaction (.read 0xFC .bits32)) Engine.reset = some (Engine.reset, [.readValue 0]) := by decide

/-- V-BUS4 and V-BUS7: a write to STATUS is ignored, a 16-bit write of NOP to CMD executes nothing. -/
theorem test_writes :
    serving (.transaction (.write 0x04 .bits32 0xFFFFFFFF)) Engine.reset = some (Engine.reset, [.writeDone]) ∧
    serving (.transaction (.write 0x00 .bits16 0)) Engine.reset = some (Engine.reset, [.busErr]) := by decide

/-- V-BUS6: offset 0x02, and an 8-bit read of 0x04. -/
theorem test_bad_reads :
    serving (.transaction (.read 0x02 .bits32)) Engine.reset = some (Engine.reset, [.busErr]) ∧
    serving (.transaction (.read 0x04 .bits8)) Engine.reset = some (Engine.reset, [.busErr]) := by decide

/-- STATUS and AKST after the TOY setup and HYB_INIT (section 2.7, R33). -/
theorem test_status_and_akst :
    readRegister (toy .add false 1) 0x04 = 0x02101E00 ∧ readRegister (toy .add false 1) 0x44 = 0x0B070B07 := by decide

/-- CFG, SR_HI and SR_LO read back (V-ENC3, V-CTL8). -/
theorem test_cfg_and_sr_read_back :
    readRegister (toy .mul false 5) 0x08 = 0x00000503 ∧ readRegister (k87 1) 0x10 = 0x01234567 ∧
    readRegister (k87 1) 0x14 = 0x89ABCDEF := by decide

/-- The signals of R138 as an input: size 2 is 32 bits. -/
theorem test_signals :
    signalInput ⟨false, true, true, 0x00, 2, 0x02000000⟩ = some (.transaction (.write 0x00 .bits32 0x02000000)) ∧
    signalInput ⟨true, false, false, 0, 0, 0⟩ = some .reset := by decide

/-! ### Commands: one step each -/

/-- R113: LASTERR 4 becomes 0, ERRSEEN stays. -/
theorem test_nop :
    (after 0x00000000 { Engine.reset with lasterr := 4, errseen := true }).map (fun e => (e.lasterr, e.errseen)) =
      some (0, true) := by decide

/-- V-CTL2: the registers after SOFTRST. -/
theorem test_softrst : after 0x01000000 (toy .mul true 7) = some Engine.reset := by decide

/-- R115: STATUS[8:0] becomes 0. -/
theorem test_clrerr :
    (after 0x02000000 { Engine.reset with lasterr := 2, errseen := true }).map statusWord = some 0 := by decide

/-- R115: an illegal CLRERR word sets ERRSEEN. -/
theorem test_clrerr_illegal : (after 0x02000001 Engine.reset).map statusWord = some 0x00000101 := by decide

/-- V-CTL3 and V-CTL7. -/
theorem test_setcfg_refuses :
    (after 0x03000B01 Engine.reset).map (fun e => (e.lasterr, cfgWord e.cfg)) = some (5, 0x00000100) ∧
    (after 0x03004100 Engine.reset).map (fun e => (e.lasterr, cfgWord e.cfg)) = some (5, 0x00000100) := by decide

/-- V-CTL8: SETCFG keeps KEYCNT and IVCNT and ends the session. -/
theorem test_setcfg :
    (after 0x03000100 (k87 1)).map (fun e => (e.sr, e.ks, statusWord e)) = some (0, 0, 0x08101000) := by decide

/-- V-BC21. -/
theorem test_clrkey :
    (after 0x10000000 (toy .add false 1)).map (fun e => (e.key3, e.keycnt, e.cfbrdy, e.akrdy)) =
      some (0, 0, false, true) := by decide

/-- R77: byte 0 goes to KEY0[31:24], byte 15 to KEY3[7:0]. -/
theorem test_ldkeyb :
    (after 0x11000012 Engine.reset).map (fun e => (e.key0, e.keycnt)) = some (0x12000000, 1) ∧
    (after 0x11000021 { Engine.reset with key3 := 0x87654300, keycnt := 15 }).map (fun e => (e.key3, e.keycnt)) =
      some (0x87654321, 16) := by decide

/-- V-BC19 and V-BC20: a 17th byte leaves the key, and the count stops at 31. -/
theorem test_ldkeyb_beyond :
    (after 0x110000AA (k87 1)).map (fun e => (e.key0, e.keycnt)) = some (0x12345678, 17) ∧
    (after 0x110000AA { k87 1 with keycnt := 31 }).map (fun e => e.keycnt) = some 31 := by decide

/-- V-BC6 and V-BC11. -/
theorem test_bc_enc :
    (after 0x12000000 { k87 1 with sr := 0 }).map (fun e => (e.bcout, e.sr)) = some (0x1D9591A8BA4F0FEE, 0) ∧
    (after 0x12000000 (toy .add false 1)).map (fun e => e.bcout) = some 0x286 := by decide +kernel

/-- R71 by hand: with DELTA_32 = 0, a zero key and a zero block every term is 0, so another machine of R8 gives 0 where
V-BC1's gives 0x41EA3A0A94BAA940. -/
theorem test_bc_enc_parameters :
    (nextOf (exec .bcEnc { State.resetWith ⟨0, 0, 4, 5⟩ with engine := { zeroKey with bcout := 1 } })).map
      (fun s => s.engine.bcout) = some 0 ∧
    (nextOf (exec .bcEnc (holding zeroKey))).map (fun s => s.engine.bcout) = some 0x41EA3A0A94BAA940 := by
  decide +kernel

/-- V-BC18, V-BC16: 15 key bytes are refused; only KEYi[4:0] counts in TOY mode. -/
theorem test_bc_enc_key :
    (after 0x12000000 { k87 1 with keycnt := 15 }).map (fun e => e.lasterr) = some 2 ∧
    (after 0x12000000 { toy .add false 1 with key0 := 0xFFFFFFE1, key1 := 0x22, key2 := 0x43, key3 := 0x64 }).map
      (fun e => e.bcout) = some 0x286 := by decide +kernel

/-- R81. -/
theorem test_clriv :
    (after 0x20000000 (k87 1)).map (fun e => (e.ivreg, e.ivcnt, e.sr)) = some (0, 0, 0x0123456789ABCDEF) := by decide

/-- R82: the example, and V-CFB19's saturation with the oldest byte pushed out. -/
theorem test_ldivb :
    (after 0x21000023 { Engine.reset with ivreg := 1, ivcnt := 1 }).map (fun e => (e.ivreg, e.ivcnt)) =
      some (0x0123, 2) ∧
    (after 0x21000013 { Engine.reset with ivreg := 0x0B0C0D0E0F101112, ivcnt := 15 }).map
      (fun e => (e.ivreg, e.ivcnt)) = some (0x0C0D0E0F10111213, 15) := by decide

/-- V-CFB18: a 3-byte TOY IV is masked to 10 bits. -/
theorem test_cfb_init :
    (after 0x22000000 { toy .add false 1 with ivreg := 0xFFFEA5, ivcnt := 3, sr := 0 }).map
      (fun e => (e.lasterr, e.sr, e.hybrdy)) = some (0, 0x2A5, false) := by decide

/-- V-CFB21 and V-CFB22: nine IV bytes are refused, and the key is checked first. -/
theorem test_cfb_init_refuses :
    (after 0x22000000 { k87 1 with ivcnt := 9 }).map (fun e => e.lasterr) = some 3 ∧
    (after 0x22000000 { k87 1 with keycnt := 15, ivcnt := 0 }).map (fun e => e.lasterr) = some 2 := by decide

/-- V-CFB6 and V-CFB9. -/
theorem test_cfb_enc :
    (after 0x230008FF zeroKey).map (fun e => (e.dout, e.sr, e.ks)) = some (0xE4, 0xE4, 0x8BED11441DA30220) ∧
    (after 0x230003FA (k87 1)).map (fun e => (e.dout, e.sr)) = some (0x06, 0x091A2B3C4D5E6F7E) := by decide +kernel

/-- V-CFB10 and the second command of P6: no bit leaves DOUT, and a chunk goes on from the latched KS. -/
theorem test_cfb_enc_chunks :
    after 0x23000055 { k87 1 with dout := 0xDB } = some { k87 1 with dout := 0xDB } ∧
    ((after 0x23000302 (k87 3)).bind (after 0x23000508)).map (fun e => (e.dout, e.phase)) = some (0x0D, 2) := by
  decide +kernel

/-- V-CFB8d. -/
theorem test_cfb_dec :
    (after 0x240008E4 zeroKey).map (fun e => (e.dout, e.sr)) = some (0xFF, 0xE4) := by decide +kernel

/-- The second command of V-CFB13: after `CFB_ENC 4, 0x4`, a decryption feeds back its own bits. -/
theorem test_cfb_mixed :
    ((after 0x23000404 (k87 1)).bind (after 0x24000408)).map (fun e => (e.dout, e.sr)) =
      some (0x0B, 0x23456789ABCDEFD8) := by decide +kernel

/-- V-AK1 and V-AK13. -/
theorem test_akg_load :
    (after 0x30000B07 Engine.reset).map (fun e => (akstWord e, statusWord e)) = some (0x0B070B07, 0x00001400) ∧
    (after 0x30001919 Engine.reset).map akstWord = some 0x19191919 := by decide

/-- V-AK12. -/
theorem test_akg_load_refuses :
    (after 0x3000001A Engine.reset).map (fun e => (statusWord e, akstWord e)) = some (0x00000107, 0) := by decide

/-- V-AK2 and V-AK9's first letter: ADD, and MUL with 13 times 2. -/
theorem test_akg_enc :
    (after 0x31000049 (k87 1)).map (fun e => (e.dout, e.ka, e.kb, e.akj)) = some (0x50, 11, 18, 1) ∧
    (after 0x31000041 { toy .mul false 1 with ka := 13, kb := 2 }).map (fun e => (e.dout, e.kb)) =
      some (0x4E, 0) := by decide

/-- V-AK5 and V-AK11: 'Z' wraps to 'A'; ' ' under STRICT fails with 0x06. -/
theorem test_akg_enc_edges :
    (after 0x3100005A { k87 1 with ka := 1, kb := 0 }).map (fun e => e.dout) = some 0x41 ∧
    (after 0x31000020 { toy .add true 1 with dout := 0x50 }).map (fun e => (e.lasterr, e.dout, e.akj)) =
      some (6, 0x50, 0) := by decide

/-- V-AK3 and V-AK6. -/
theorem test_akg_dec :
    (after 0x32000050 (k87 1)).map (fun e => e.dout) = some 0x49 ∧
    (after 0x32000041 (k87 1)).map (fun e => e.dout) = some 0x54 := by decide

/-- R106: the restart values. -/
theorem test_hyb_init :
    after 0x40000000 { toy .add false 1 with sr := 0x11, ks := 3, ka := 2, kb := 9, akj := 5, pos := 8, hybrdy := false } =
      some (toy .add false 1) := by decide

/-- V-HYB8 to V-HYB10. -/
theorem test_hyb_init_refuses :
    (after 0x40000000 { toy .add false 1 with akv := false }).map (fun e => e.lasterr) = some 4 ∧
    (after 0x40000000 { toy .add false 1 with ivcnt := 0, akv := false }).map (fun e => e.lasterr) = some 3 ∧
    (after 0x40000000 Engine.reset).map (fun e => e.lasterr) = some 2 := by decide

/-- V-HYB1. -/
theorem test_hyb_enc :
    (after 0x41000049 (toy .add false 1)).map (fun e => (e.dout, e.pos, e.sr, e.ks)) =
      some (0xC4, 2, 0x1C4, 0x229) := by decide +kernel

/-- V-HYB5's last symbol: ' ' at position 4 under STRICT fails and leaves POS. -/
theorem test_hyb_enc_strict :
    (after 0x41000020 { toy .add true 1 with pos := 4, dout := 0x7F }).map (fun e => (e.lasterr, e.pos, e.dout)) =
      some (6, 4, 0x7F) := by decide

/-- V-HYB2d's first symbol, and P3's second: 'P' at position 2 becomes 'I'. -/
theorem test_hyb_dec :
    (after 0x420000C4 (toy .add false 1)).map (fun e => (e.dout, e.pos, e.sr)) = some (0x49, 2, 0x1C4) ∧
    (after 0x42000050 { toy .add false 1 with pos := 2 }).map (fun e => (e.dout, e.akj)) = some (0x49, 1) := by
  decide +kernel

/-- Round 1 of V-BC11's trace: sum 25, v0 = 2, v1 = 1 from v0 = 21, v1 = 5. -/
theorem test_round : feistelRound Config.specDefaults 25#5 ⟨1, 2, 3, 4⟩ ⟨0, 21, 5⟩ = ⟨25, 2, 1⟩ := by decide

/-- The first two bits of V-HYB1's trace. -/
theorem test_cfb_bit :
    (cfbBit Config.specDefaults .enc false (toy .add false 1)).1 = true ∧ (cfbBit Config.specDefaults .enc false (toy .add false 1)).2.sr = 0x14B ∧
    (cfbBit Config.specDefaults .enc true { toy .add false 1 with sr := 0x14B }).1 = true := by decide +kernel

/-! ### Assembler (R67, R68; the listings of part 3) -/

theorem test_assemble :
    assembleLine "SETCFG TOY, MUL, 0, 5".toList = some [0x03000503] ∧
    assembleLine "HYB_ENC ','".toList = some [0x4100002C] ∧
    assembleLine ".word 0x23000941 ; N = 9".toList = some [0x23000941] := by decide

theorem test_assemble_pseudo :
    assembleLine "LDIVT 0x2A5".toList = some [0x20000000, 0x21000002, 0x210000A5] ∧
    (assembleLine "LDKEYT 1, 2, 3, 4".toList).map List.length = some 17 := by decide

/-- An operand that does not fit its field is an assembly error. -/
theorem test_assemble_refuses :
    assembleLine "CFB_ENC 9, 0".toList = none ∧ assembleLine "LDKEYB 256".toList = none ∧
    assembleLine "SETCFG TOY, ADD, 0, 128".toList = none := by decide

/-! ### Witnesses: for each statement with hypotheses, concrete values that meet them, at the edges of their ranges -/

theorem witness_EncodedCommandDecodesToItself :
    WellFormed (.cfbEnc 0 0xFF) ∧ WellFormed (.cfbDec 8 0xFF) ∧ WellFormed (.setcfg .toy .mul true 127) := by decide

theorem witness_DecodedWordIsTheWordOfItsCommand :
    decode 0x230008FF = .ok (.cfbEnc 8 0xFF) ∧ decode 0x03007F07 = .ok (.setcfg .toy .mul true 127) := by decide

/-- A word that a row of the map selects. -/
theorem witness_AtMostOneRowMatchesAWord :
    (opcodeTable[10]?).map (fun r => (r.opc, r.selects 0x23000848)) = some (0x23, true) ∧
    (opcodeTable[17]?).map (fun r => (r.opc, r.selects 0x42000050)) = some (0x42, true) := by decide

/-- The ends of the reserved ranges, N = 9 and N = 15 are illegal; N = 8 and the assigned opcodes beside them are not. -/
theorem witness_IllegalWordRaisesIllegalCommandOnly :
    [0x04000000, 0x0F000000, 0x13000000, 0x1F000000, 0x25000000, 0x2F000000].all illegalWord = true ∧
    [0x33000000, 0x3F000000, 0x43000000, 0xFF000000, 0x23000900, 0x24000F00, 0x00000001].all illegalWord = true ∧
    [0x03000000, 0x10000000, 0x12000000, 0x20000000, 0x240008FF, 0x30000000, 0x42000000].any illegalWord = false := by
  decide

/-- For each opcode a word with a must-be-zero bit set, as `MbzBitsIllegal` asks. -/
theorem witness_MbzBitsIllegal :
    [(0x00, 0xFFFFFFFF#32, 0x00000000#32, 0x00000001#32), (0x01, 0xFFFFFFFF, 0x01000000, 0x01800000),
      (0x02, 0xFFFFFFFF, 0x02000000, 0x02000001), (0x03, 0xFFFF80F8, 0x03000000, 0x03008100),
      (0x10, 0xFFFFFFFF, 0x10000000, 0x10000001), (0x11, 0xFFFFFF00, 0x11000000, 0x11000100),
      (0x12, 0xFFFFFFFF, 0x12000000, 0x12000001), (0x20, 0xFFFFFFFF, 0x20000000, 0x20000001),
      (0x21, 0xFFFFFF00, 0x21000000, 0x21000100), (0x22, 0xFFFFFFFF, 0x22000000, 0x22000001),
      (0x30, 0xFFFFE0E0, 0x30000000, 0x30000020), (0x31, 0xFFFFFF00, 0x31000000, 0x31800000),
      (0x32, 0xFFFFFF00, 0x32000000, 0x32000100), (0x40, 0xFFFFFFFF, 0x40000000, 0x40000001)].all
      (fun r => r.2.2.2.toNat / 2 ^ 24 == r.1 && r.2.2.2 &&& r.2.1 != r.2.2.1) = true := by decide

theorem witness_DataBitsAboveTheCountAreIgnored :
    (0xFA#8).toNat % 2 ^ (3#4).toNat = (0x02#8).toNat % 2 ^ (3#4).toNat ∧
    (0xFF#8).toNat % 2 ^ (0#4).toNat = (0x00#8).toNat % 2 ^ (0#4).toNat ∧
    (0x55#8).toNat % 2 ^ (8#4).toNat = (0x55#8).toNat % 2 ^ (8#4).toNat := by decide

theorem witness_StepExecutesTheWrittenCommand :
    (State.reset.withFetchWord 32 0x30000B07).inputs = [.transaction (.write 0x00 .bits32 0x30000B07)] ∧
    decode 0x30000B07 = .ok (.akgLoad 7 11) ∧ decode 0x04000000 = .error .reservedOpcode := by decide

theorem witness_IdleMachineHoldsItsState : State.reset.inputs = [] := by decide

theorem witness_ReadAnswersTheRegister :
    ({ State.reset with inputs := [.transaction (.read 0xFC .bits32)] } : State).inputs =
      [.transaction (.read 0xFC .bits32)] ∧ (0xFC#8).toNat % 4 = 0 ∧ (0x00#8).toNat % 4 = 0 := by decide

theorem witness_WindowShowsAllOfTheState :
    ∃ e e' : Engine, ∀ a : BitVec 8, a.toNat % 4 = 0 → readRegister e a = readRegister e' a :=
  ⟨k87 3, k87 3, fun _ _ => rfl⟩

/-- The first and the last reserved offset, and a read-only register. -/
theorem witness_ReservedOffsetsReadZeroAndIgnoreWrites :
    (0x54 ≤ (0x54#8).toNat ∧ (0x54#8).toNat % 4 = 0) ∧ (0x54 ≤ (0xFC#8).toNat ∧ (0xFC#8).toNat % 4 = 0) ∧
    ({ State.reset with inputs := [.transaction (.write 0x50 .bits32 1)] } : State).inputs =
      [.transaction (.write 0x50 .bits32 1)] ∧ (0x50#8).toNat % 4 = 0 ∧ 0x50#8 ≠ 0x00#8 := by decide

theorem witness_BadTransactionGetsABusError :
    ({ State.reset with inputs := [.transaction (.read 0x02 .bits32)] } : State).inputs =
      [.transaction (.read 0x02 .bits32)] ∧ (0x02#8).toNat % 4 ≠ 0 ∧
    ({ State.reset with inputs := [.transaction (.write 0x00 .bits16 0)] } : State).inputs =
      [.transaction (.write 0x00 .bits16 0)] ∧ BusSize.bits16 ≠ BusSize.bits32 := by decide

theorem witness_OnlyCommandWritesChangeTheEngine :
    ∃ u, step (State.reset.withFetchWord 32 0x30000B07) = .next u ∧ u.engine ≠ State.reset.engine :=
  ⟨_, rfl, by decide⟩

theorem witness_OverlappingTransactionIsRefused :
    ({ State.reset with inputs := [.resetOverlapping (.read 0x04 .bits32)] } : State).inputs =
      [.resetOverlapping (.read 0x04 .bits32)] := by decide

theorem witness_EveryRunServesAllItsInputs :
    ∀ t : Transaction, HostInput.resetOverlapping t ∉
      [HostInput.transaction (.write 0x00 .bits32 0x04000000), .reset, .transaction (.read 0x02 .bits8)] := by
  intro t
  simp

theorem witness_ResetRestoresEveryField :
    ({ holding (toy .mul true 7) with inputs := [.reset] } : State).inputs = [.reset] ∧ (0x4C#8).toNat % 4 = 0 := by
  decide

/-- c = 1, 64 and 10 are legal; 0, 65 and 11 are not. -/
theorem witness_SetcfgWritesCfgOrRefusesTheWidth :
    (1 ≤ (64#7).toNat ∧ (64#7).toNat ≤ widthOf .byte) ∧ (1 ≤ (10#7).toNat ∧ (10#7).toNat ≤ widthOf .toy) ∧
    (1 ≤ (1#7).toNat ∧ (1#7).toNat ≤ widthOf .toy) ∧ (0#7).toNat = 0 ∧ widthOf .byte < (65#7).toNat ∧
    widthOf .toy < (11#7).toNat := by decide

theorem witness_LdkeybAppendsOneKeyByte :
    (15 : Nat) < 16 ∧ ({ Engine.reset with keycnt := 15 } : Engine).keycnt.toNat = 15 ∧
    ({ Engine.reset with keycnt := 31 } : Engine).keycnt.toNat = 31 := by decide

theorem witness_BcEncWritesBcoutOnly :
    (k87 1).keycnt = 16 ∧ ({ k87 1 with keycnt := 15 } : Engine).keycnt ≠ 16 ∧
    ({ k87 1 with keycnt := 17 } : Engine).keycnt ≠ 16 := by decide

/-- The key; then the IV lengths 8, 7 and 9 in BYTE mode, 1, 15 and 0 in TOY mode. -/
theorem witness_CfbInitStartsASession :
    ((k87 1).keycnt = 16 ∧ ivLengthOk (k87 1) = true) ∧ ({ k87 1 with keycnt := 17 } : Engine).keycnt ≠ 16 ∧
    ivLengthOk { k87 1 with ivcnt := 7 } = false ∧ ivLengthOk { k87 1 with ivcnt := 9 } = false ∧
    ivLengthOk { toy .add false 1 with ivcnt := 1 } = true ∧ ivLengthOk { toy .add false 1 with ivcnt := 15 } = true ∧
    ivLengthOk { toy .add false 1 with ivcnt := 0 } = false := by decide

/-- The first and the last bit of a chunk, in both modes. -/
theorem witness_CfbBitFollowsThePseudocode :
    ((k87 1).cfg.fbw.toNat ≠ 0 ∧ (k87 1).phase.toNat < widthOf (k87 1).cfg.mode) ∧
    ((k87 64).cfg.fbw.toNat ≠ 0 ∧ ({ k87 64 with phase := 63 } : Engine).phase.toNat < widthOf .byte) ∧
    ((toy .add false 10).cfg.fbw.toNat ≠ 0 ∧ ({ toy .add false 10 with phase := 9 } : Engine).phase.toNat < widthOf .toy) := by
  decide

/-- N = 0 and N = 8 in a session, N = 8 without one, N = 9 and N = 15. -/
theorem witness_CfbEncRunsItsBits :
    ((0#4).toNat ≤ 8 ∧ (k87 1).cfbrdy = true) ∧ ((8#4).toNat ≤ 8 ∧ Engine.reset.cfbrdy = false) ∧
    8 < (9#4).toNat ∧ 8 < (15#4).toNat := by decide

theorem witness_CfbDecRunsItsBits :
    ((8#4).toNat ≤ 8 ∧ (toy .mul false 5).cfbrdy = true) ∧ ((0#4).toNat ≤ 8 ∧ Engine.reset.cfbrdy = false) ∧
    8 < (9#4).toNat := by decide

/-- c = 1, c = RW in BYTE mode and c = RW in TOY mode. -/
theorem witness_ChunkIsOneCipherCall :
    (1 ≤ (k87 1).cfg.fbw.toNat ∧ (k87 1).phase = 0 ∧ [true].length = (k87 1).cfg.fbw.toNat) ∧
    ((k87 64).cfg.fbw.toNat ≤ widthOf .byte ∧ (List.replicate 64 true).length = (k87 64).cfg.fbw.toNat) ∧
    ((toy .add false 10).cfg.fbw.toNat ≤ widthOf .toy ∧ (toy .add false 10).phase = 0 ∧
      (List.replicate 10 false).length = (toy .add false 10).cfg.fbw.toNat) := by decide

/-- `CFB_ENC 8, 0x48` against `CFB_ENC 3, 2`, `CFB_ENC 0, 0x55`, `CFB_ENC 5, 8` (V-CFB11). -/
theorem witness_GroupingOfBitsDoesNotMatter :
    (k87 3).cfbrdy = true ∧
    (∀ i ∈ [Instr.cfbEnc 8 0x48] ++ [.cfbEnc 3 0x02, .cfbEnc 0 0x55, .cfbEnc 5 0x08],
      ∃ dir n d, i = cfbCommand dir n d ∧ n.toNat ≤ 8) ∧
    [Instr.cfbEnc 8 0x48].flatMap streamBits =
      [Instr.cfbEnc 3 0x02, .cfbEnc 0 0x55, .cfbEnc 5 0x08].flatMap streamBits := by
  refine ⟨by decide, ?_, by decide⟩
  intro i hi
  simp only [List.cons_append, List.nil_append, List.mem_cons, List.not_mem_nil, or_false] at hi
  rcases hi with rfl | rfl | rfl | rfl
  · exact ⟨.enc, 8, 0x48, rfl, by decide⟩
  · exact ⟨.enc, 3, 0x02, rfl, by decide⟩
  · exact ⟨.enc, 0, 0x55, rfl, by decide⟩
  · exact ⟨.enc, 5, 0x08, rfl, by decide⟩

/-- V-CFB6: 0xFF as one command, its ciphertext 0xE4 decrypted as two. -/
theorem witness_CfbDecryptionInvertsEncryption :
    Succeeds .cfbInit (holding zeroKey) (holding zeroKey) ∧
    (∀ i ∈ [Instr.cfbEnc 8 0xFF], ∃ n d, i = .cfbEnc n d) ∧
    (∃ t, cfbSession [.cfbEnc 8 0xFF] (holding zeroKey) = some (dataBits 8 0xE4, t)) ∧
    (∀ i ∈ [Instr.cfbDec 3 0x07, .cfbDec 5 0x04], ∃ n d, i = .cfbDec n d ∧ n.toNat ≤ 8) ∧
    [Instr.cfbDec 3 0x07, .cfbDec 5 0x04].flatMap streamBits =
      (dataBits 8 0xE4).map (fun b => (Direction.dec, b)) := by
  refine ⟨⟨rfl, by decide⟩, ?_, ?_, ?_, by decide⟩
  · intro i hi
    rw [List.mem_singleton] at hi
    exact ⟨8, 0xFF, hi⟩
  · have h : (cfbSession [.cfbEnc 8 0xFF] (holding zeroKey)).map Prod.fst = some (dataBits 8 0xE4) := by
      decide +kernel
    obtain ⟨⟨out, t⟩, h₁, h₂⟩ := Option.map_eq_some_iff.1 h
    exact ⟨t, by rw [h₁, ← h₂]⟩
  · intro i hi
    simp only [List.mem_cons, List.not_mem_nil, or_false] at hi
    rcases hi with rfl | rfl
    · exact ⟨3, 0x07, rfl, by decide⟩
    · exact ⟨5, 0x04, rfl, by decide⟩

/-- One stream encrypts 1, the other decrypts the ciphertext bit 1 that came out (V-CFB6's first bit). -/
theorem witness_KeystreamDependsOnCiphertextOnly :
    SameKey zeroKey zeroKey ∧ SameStream zeroKey zeroKey ∧
    ciphertextSide [(.enc, true)] (cfbStream Config.specDefaults [(.enc, true)] zeroKey).1 =
      ciphertextSide [(.dec, true)] (cfbStream Config.specDefaults [(.dec, true)] zeroKey).1 := by
  refine ⟨⟨rfl, rfl, rfl, rfl⟩, ⟨rfl, rfl, rfl⟩, by decide +kernel⟩

/-- N = 1 and N = 8 succeed in a session. -/
theorem witness_OutputHasTheLengthOfTheInput :
    (1#4 ≠ 0 ∧ ∃ t, Succeeds (cfbCommand .enc 1 0xFF) (holding zeroKey) t) ∧
    (8#4 ≠ 0 ∧ ∃ t, Succeeds (cfbCommand .dec 8 0xE4) (holding zeroKey) t) ∧ zeroKey.cfbrdy = true :=
  ⟨⟨by decide, _, rfl, rfl⟩, ⟨by decide, _, rfl, rfl⟩, rfl⟩

theorem witness_CipherCallsAreBounded :
    (k87 1).phase.toNat < (k87 1).cfg.fbw.toNat ∧
    ({ k87 64 with phase := 63 } : Engine).phase.toNat < (k87 64).cfg.fbw.toNat := by decide

theorem witness_AkgLoadRestartsTheKeystream :
    ((25#5).toNat ≤ 25 ∧ (0#5).toNat ≤ 25) ∧ 25 < (26#5).toNat ∧ 25 < (31#5).toNat := by decide

/-- The ends of both letter ranges, and the symbols beside them. -/
theorem witness_letters :
    LetterOfBase 0x41 0x41 ∧ LetterOfBase 0x41 0x5A ∧ LetterOfBase 0x61 0x61 ∧ LetterOfBase 0x61 0x7A ∧
    [0x40, 0x5B, 0x60, 0x7B, 0x00, 0xFF].any isLetterCode = false := by
  unfold LetterOfBase
  decide

theorem witness_AkgEncTransformsOneSymbol :
    ((k87 1).akrdy = true ∧ LetterOfBase 0x41 0x5A) ∧
    ((k87 1).akrdy = true ∧ isLetterCode 0x5B = false ∧ (k87 1).cfg.strict = false) ∧
    ((toy .add true 1).akrdy = true ∧ isLetterCode 0x60 = false ∧ (toy .add true 1).cfg.strict = true) ∧
    Engine.reset.akrdy = false := by
  unfold LetterOfBase
  decide

theorem witness_AkgDecTransformsOneSymbol :
    ((k87 1).akrdy = true ∧ LetterOfBase 0x61 0x61) ∧
    ((k87 1).akrdy = true ∧ isLetterCode 0x40 = false ∧ (k87 1).cfg.strict = false) ∧
    ((toy .add true 1).akrdy = true ∧ isLetterCode 0x7B = false ∧ (toy .add true 1).cfg.strict = true) ∧
    Engine.reset.akrdy = false := by
  unfold LetterOfBase
  decide

/-- A ready generator at j = 0, whose next step is a letter. -/
theorem witness_KeystreamStaysOnCourse :
    (k87 1).akrdy = true ∧ KeystreamOnCourse (k87 1) ∧
    ∃ t, step ((holding (k87 1)).withFetchWord 32 0x31000049) = .next t :=
  ⟨rfl, fun _ => ⟨0, by decide, by decide, by decide⟩, _, rfl⟩

/-- "IZ", encrypted with keys 7, 11 to "PK". -/
theorem witness_AkgDecryptionInvertsEncryption :
    Succeeds (.akgLoad 7 11) (holding (k87 1)) (holding (k87 1)) ∧
    ∃ t, hostMessage .akgEnc [0x49, 0x5A] (holding (k87 1)) = some ([0x50, 0x4B], t) :=
  ⟨⟨rfl, rfl⟩, _, rfl⟩

theorem witness_ZeroTermAbsorbsUnderMul :
    (toy .mul false 1).cfg.akrule = .mul ∧ ({ toy .mul false 1 with ka := 0 } : Engine).ka = 0 := by decide

theorem witness_HybInitRestartsBothHalves :
    ((toy .add false 1).keycnt = 16 ∧ ivLengthOk (toy .add false 1) = true ∧ (toy .add false 1).akv = true) ∧
    Engine.reset.keycnt ≠ 16 ∧ ivLengthOk { toy .add false 1 with ivcnt := 0 } = false ∧
    ({ toy .add false 1 with akv := false } : Engine).akv = false := by decide

/-- Odd and even positions, the wrap of POS among them. -/
theorem witness_HybEncRoutesByPosition :
    ((toy .add false 1).hybrdy = true ∧ (toy .add false 1).pos.toNat % 2 = 1 ∧ (0xFFFFFFFF#32).toNat % 2 = 1) ∧
    (({ toy .add false 1 with pos := 0 } : Engine).pos.toNat % 2 = 0 ∧ LetterOfBase 0x41 0x41) ∧
    (({ toy .add true 1 with pos := 2 } : Engine).pos.toNat % 2 = 0 ∧ isLetterCode 0x20 = false) ∧
    Engine.reset.hybrdy = false := by
  unfold LetterOfBase
  decide

theorem witness_HybDecRoutesByPosition :
    ((toy .mul true 5).hybrdy = true ∧ (toy .mul true 5).pos.toNat % 2 = 1) ∧
    (({ toy .mul true 5 with pos := 0xFFFFFFFE } : Engine).pos.toNat % 2 = 0 ∧ LetterOfBase 0x61 0x7A) ∧
    (isLetterCode 0x7B = false ∧ (toy .mul true 5).cfg.strict = true ∧ (toy .mul false 5).cfg.strict = false) ∧
    Engine.reset.hybrdy = false := by
  unfold LetterOfBase
  decide

/-- A CFB session and a keystream session of the TOY setup's own material, and the message "HI" (V-HYB5). -/
theorem witness_HybridEqualsSplitAndMerge :
    Succeeds .hybInit (holding (toy .add true 1)) (holding (toy .add true 1)) ∧
    (∃ uc, Succeeds .cfbInit (holding (toy .add true 1)) uc) ∧
    (∃ uk, Succeeds (.akgLoad (toy .add true 1).ak0 (toy .add true 1).ak1) (holding (toy .add true 1)) uk) ∧
    ∃ t, hostMessage (hybCommand .enc) [0x48, 0x49] (holding (toy .add true 1)) = some ([0xC5, 0x50], t) := by
  refine ⟨⟨rfl, rfl⟩, ⟨_, rfl, rfl⟩, ⟨_, rfl, rfl⟩, ?_⟩
  have h : (hostMessage (hybCommand .enc) [0x48, 0x49] (holding (toy .add true 1))).map Prod.fst = some [0xC5, 0x50] := by
    decide +kernel
  obtain ⟨⟨out, t⟩, h₁, h₂⟩ := Option.map_eq_some_iff.1 h
  exact ⟨t, by rw [h₁, ← h₂]⟩

theorem witness_HybDecryptionInvertsEncryption :
    Succeeds .hybInit (holding (toy .add true 1)) (holding (toy .add true 1)) ∧
    (∃ t, hostMessage .hybEnc [0x48, 0x49] (holding (toy .add true 1)) = some ([0xC5, 0x50], t)) ∧
    evenPositionsAreLetters [0x48, 0x49] = true ∧ (toy .add false 1).cfg.strict = false :=
  ⟨⟨rfl, rfl⟩, witness_HybridEqualsSplitAndMerge.2.2.2, by decide, rfl⟩

/-- A message with a non-letter at an odd position only, and any message when STRICT = 0. -/
theorem witness_CheckedMessageNeverFails :
    Succeeds .hybInit (holding (toy .add true 1)) (holding (toy .add true 1)) ∧
    evenPositionsAreLetters [0x48, 0x49, 0x2C] = true ∧ (toy .add false 1).cfg.strict = false ∧
    evenPositionsAreLetters [0x48, 0x20] = false :=
  ⟨⟨rfl, rfl⟩, by decide, rfl, by decide⟩

/-- A word that fails, one that is illegal, and one that succeeds. -/
theorem witness_FailedCommandHasNoOtherEffect :
    (∃ t, executeWord 0x40000000 State.reset = .next t ∧ t.engine.lasterr ≠ 0) ∧
    (∃ t, executeWord 0x00000001 State.reset = .next t ∧ t.engine.lasterr ≠ 0) ∧
    ∃ t, executeWord 0x30000B07 State.reset = .next t ∧ t.engine.lasterr = 0 ∧
      decode 0x30000B07 ≠ .ok .clrerr ∧ decode 0x30000B07 ≠ .ok .softrst :=
  ⟨⟨_, rfl, by decide⟩, ⟨_, rfl, by decide⟩, _, rfl, rfl, by decide, by decide⟩

theorem witness_ResultCodeFollowsThePrecedence : illegalWord 0x23000F00 = true := by decide

theorem witness_SessionFlagsFollowTheTable :
    illegalWord 0x02000001 = true ∧
    ({ holding (toy .mul true 7) with inputs := [.reset] } : State).inputs = [.reset] := by decide

theorem witness_FailedWordFailsAgain :
    (∃ t, executeWord 0x12000000 State.reset = .next t ∧ t.engine.lasterr ≠ 0) ∧
    ∃ t, executeWord 0x04000000 State.reset = .next t ∧ t.engine.lasterr ≠ 0 :=
  ⟨⟨_, rfl, by decide⟩, _, rfl, by decide⟩

/-- SETCFG changes CFG and SR, AKG_LOAD the stream keys, LDIVB the IV, LDKEYB the key. -/
theorem witness_EachRegisterChangesOnlyAtItsWriters :
    (∃ t, exec (.setcfg .toy .mul true 10) (holding (k87 1)) = .next t ∧ t.engine.cfg ≠ (k87 1).cfg ∧
      t.engine.sr ≠ (k87 1).sr) ∧
    (∃ t, exec (.akgLoad 1 2) (holding (k87 1)) = .next t ∧ t.engine.ak0 ≠ (k87 1).ak0) ∧
    (∃ t, exec (.ldivb 1) (holding (k87 1)) = .next t ∧ t.engine.ivreg ≠ (k87 1).ivreg) ∧
    ∃ t, exec (.ldkeyb 1) State.reset = .next t ∧ keyBytes t.engine ≠ keyBytes Engine.reset :=
  ⟨⟨_, rfl, by decide, by decide⟩, ⟨_, rfl, by decide⟩, ⟨_, rfl, by decide⟩, _, rfl, by decide⟩

theorem witness_BootOrderMakesTheHybridReady :
    (1 ≤ (1#7).toNat ∧ (1#7).toNat ≤ 64) ∧ (1 ≤ (64#7).toNat ∧ (64#7).toNat ≤ 64) ∧ (25#5).toNat ≤ 25 ∧
    (0#5).toNat ≤ 25 := by decide

/-- Reset has the invariant, and so has a session in the middle of a chunk. -/
theorem witness_EveryStepKeepsTheInvariant :
    (Inv State.reset ∧ ∃ t, step (State.reset.withFetchWord 32 0x03000A01) = .next t) ∧
    Inv (holding { k87 64 with phase := 63 }) :=
  ⟨⟨by decide, _, rfl⟩, by decide⟩

theorem witness_EveryStepKeepsTheParameters :
    ∃ t, step ((State.resetWith ⟨1, 1, 3, 7⟩).withFetchWord 32 0x01000000) = .next t ∧ t.params = ⟨1, 1, 3, 7⟩ :=
  ⟨_, rfl, rfl⟩

theorem witness_EveryRunKeepsTheInvariant :
    ∃ t, hostRun Config.specDefaults [.transaction (.write 0x00 .bits32 0x03000A01), .transaction (.read 0x08 .bits32)] = .next t ∧
      observed t = [0x00000A01] :=
  ⟨_, rfl, by decide⟩

end Sys2Proof.Tests
end

section
/-! The parameters of R7 and R8: a step has no way to change them, and reset takes them as an argument (log 3). -/

namespace Sys2Proof.Machine

/-- R7, R8: idle, an answer, a command word and a reset each leave the parameters of the machine. -/
theorem step_keeps_params {s t : State} (h : step s = .next t) : t.params = s.params := by
  obtain ⟨-, rfl⟩ | ⟨_, _, -, ⟨_, rfl⟩ | ⟨_, -, rfl⟩ | ⟨-, rfl⟩⟩ := step_next_cases h
  · rfl
  · rfl
  · rfl
  · rfl

/-- R7, R8: the machine right after reset has the PRESUMED default parameters (log 3). -/
theorem reset_params : State.reset.params = Config.specDefaults := by
  rw [reset_eq_resetWith, resetWith_params]

/-- Settles O60, by the cases of a step that goes on and the argument of the reset state. -/
theorem everyStepKeepsTheParameters : Obligations.EveryStepKeepsTheParameters :=
  ⟨fun _ _ => step_keeps_params, resetWith_params, reset_params⟩

end Sys2Proof.Machine
end

section
/-! SUPPORT. What each command's effect has done where it succeeds: the checks it passed, and the fields it wrote. -/

namespace Sys2Proof.Machine

variable {p : Config.CipherParams} {e e' : Engine}

/-- R116: a SETCFG that succeeds has a legal FBW, and it writes CFG, clears SR, KS, BCOUT and PHASE and ends every session. -/
theorem setcfgEffect_ok {c : Cfg} (h : setcfgEffect c e = .ok e') :
    1 ≤ c.fbw.toNat ∧ c.fbw.toNat ≤ registerWidth c.mode ∧
      e' = endAllSessions { e with cfg := c, sr := 0, ks := 0, bcout := 0, phase := 0 } := by
  unfold setcfgEffect at h
  split at h
  · cases h
  · rename_i hc
    obtain ⟨h0, hw⟩ := not_or.mp hc
    have hpos : c.fbw.toNat ≠ 0 := fun hz => h0 (BitVec.eq_of_toNat_eq hz)
    cases h
    exact ⟨by omega, by omega, rfl⟩

/-- R77: a key byte writes the key words and KEYCNT and ends the CFB and hybrid sessions. -/
theorem ldkeyb_ok {b : Byte} (h : commandEffect p (.ldkeyb b) e = .ok e') :
    ∃ k0 k1 k2 k3, e' = endCfbSessions { e with
      key0 := k0, key1 := k1, key2 := k2, key3 := k3, keycnt := nextKeyCount e.keycnt } := by
  cases h
  rw [storeKeyByte_frame]
  exact ⟨_, _, _, _, rfl⟩

/-- R78: BC_ENC writes BCOUT alone. -/
theorem bcEncEffect_ok (h : bcEncEffect p e = .ok e') : e' = { e with bcout := blockCipher p e e.sr } := by
  unfold bcEncEffect at h
  split at h
  · cases h
    rfl
  · cases h

/-- R83: CFB_INIT passed both length checks, starts the CFB unit from the IV and ends a hybrid session. -/
theorem cfbInitEffect_ok (h : cfbInitEffect e = .ok e') :
    keyOk e = true ∧ ivOk e = true ∧ e' = { startCfb e with cfbrdy := true, hybrdy := false } := by
  unfold cfbInitEffect at h
  split at h
  · split at h
    · cases h
      exact ⟨‹_›, ‹_›, rfl⟩
    · cases h
  · cases h

/-- R86, R87: a CFB data command that succeeds leaves what its stream of bits leaves, and an output in DOUT. -/
theorem cfbData_ok {dir : Direction} {n : BitVec 4} {d : Byte} (h : cfbData p dir n d e = .ok e') :
    ∃ xs o, e' = { e with
      sr := (cfbStream p xs e).2.sr, ks := (cfbStream p xs e).2.ks, phase := (cfbStream p xs e).2.phase, dout := o } := by
  rcases cfbData_cases p dir n d e with ⟨-, hd⟩ | ⟨-, -, hd⟩ | ⟨-, -, hd⟩ <;> rw [hd] at h <;> cases h
  exact ⟨_, _, rfl⟩

/-- R98: AKG_LOAD has keys in range, stores them, restarts the keystream and ends a hybrid session. -/
theorem akgLoadEffect_ok {k0 k1 : BitVec 5} (h : akgLoadEffect k0 k1 e = .ok e') :
    k0.toNat ≤ 25 ∧ k1.toNat ≤ 25 ∧
      e' = startKeystream { e with ak0 := k0, ak1 := k1, akv := true, akrdy := true, hybrdy := false } := by
  unfold akgLoadEffect at h
  split at h
  · cases h
  · rename_i hk
    cases h
    exact ⟨by omega, by omega, rfl⟩

/-- R99, R100: a keystream data command that succeeds writes what its symbol wrote, and DOUT. -/
theorem akgData_ok {dir : Direction} {b : Byte} (h : akgData dir b e = .ok e') :
    ∃ o e₁, akSymbol dir b e = .ok (o, e₁) ∧ e' = { e with ka := e₁.ka, kb := e₁.kb, akj := e₁.akj, dout := o } := by
  rcases akgData_cases dir b e with ⟨-, hd⟩ | ⟨-, -, -, hd⟩ | ⟨-, o, e₁, hs, hd⟩ <;> rw [hd] at h <;> cases h
  exact ⟨o, e₁, hs, rfl⟩

/-- R106: HYB_INIT passed its three checks, restarts both halves and the position, and makes all three sessions ready. -/
theorem hybInitEffect_ok (h : hybInitEffect e = .ok e') :
    keyOk e = true ∧ ivOk e = true ∧ e.akv = true ∧
      e' = { startKeystream (startCfb e) with pos := 1, cfbrdy := true, akrdy := true, hybrdy := true } := by
  unfold hybInitEffect at h
  split at h
  · split at h
    · split at h
      · cases h
        exact ⟨‹_›, ‹_›, ‹_›, rfl⟩
      · cases h
    · cases h
  · cases h

/-- R107, R108: a hybrid data command that succeeds writes what its half wrote, DOUT, and POS. -/
theorem hybData_ok {dir : Direction} {b : Byte} (h : hybData p dir b e = .ok e') :
    (∃ xs o, e' = { e with
      sr := (cfbStream p xs e).2.sr, ks := (cfbStream p xs e).2.ks, phase := (cfbStream p xs e).2.phase
      dout := o, pos := e.pos + 1 }) ∨
    ∃ o e₁, akSymbol dir b e = .ok (o, e₁) ∧
      e' = { e with ka := e₁.ka, kb := e₁.kb, akj := e₁.akj, dout := o, pos := e.pos + 1 } := by
  rcases hybData_cases p dir b e with ⟨-, hd⟩ | ⟨-, -, -, -, hd⟩ | ⟨-, -, hd⟩ | ⟨-, -, o, e₁, hs, hd⟩ <;>
    rw [hd] at h <;> cases h
  · exact .inl ⟨(dataBits 8 b).map fun x => (dir, x), _, rfl⟩
  · exact .inr ⟨o, e₁, hs, rfl⟩

end Sys2Proof.Machine
end

section
/-! The invariants of R39: each effect keeps them, so every command, every step and every run does. -/

namespace Sys2Proof.Machine

open Sys2Proof.Safety

variable {p : Config.CipherParams} {e e' : Engine}

/-! ### The two data units -/

/-- R39, 3: the latched cipher output fits the register where KS does. -/
theorem chunkKeystream_toNat_lt (hks : e.ks.toNat < 2 ^ registerWidth e.cfg.mode) :
    (chunkKeystream p e).toNat < 2 ^ registerWidth e.cfg.mode := by
  unfold chunkKeystream
  split
  · exact blockCipher_toNat_lt p e e.sr
  · exact hks

theorem cfbBit_keeps_engineInv (dir : Direction) (b : Bool) (h : EngineInv e) : EngineInv (cfbBit p dir b e).2 := by
  obtain ⟨hfbw, -, ⟨-, hks, hbc⟩, hkeys, hflags⟩ := h
  have hphase : (nextPhase e.cfg.fbw e.phase).toNat < e.cfg.fbw.toNat := nextPhase_toNat_lt (by omega) e.phase
  exact ⟨hfbw, hphase, ⟨modRegister_toNat_lt _ _, chunkKeystream_toNat_lt hks, hbc⟩, hkeys, hflags⟩

theorem cfbStream_keeps_engineInv (xs : List (Direction × Bool)) (h : EngineInv e) : EngineInv (cfbStream p xs e).2 := by
  induction xs generalizing e with
  | nil => exact h
  | cons x xs ih =>
    obtain ⟨dir, b⟩ := x
    rw [cfbStream_cons]
    exact ih (cfbBit_keeps_engineInv dir b h)

/-- What a stream of bits leaves in SR, KS and PHASE, with any DOUT and POS: R39 bounds neither of those. -/
theorem engineInv_of_cfbStream (xs : List (Direction × Bool)) (o : Byte) (q : Word) (h : EngineInv e) :
    EngineInv { e with
      sr := (cfbStream p xs e).2.sr, ks := (cfbStream p xs e).2.ks, phase := (cfbStream p xs e).2.phase
      dout := o, pos := q } := by
  have hs := cfbStream_keeps_engineInv (p := p) xs h
  rw [cfbStream_snd] at hs
  exact hs

/-- R39, 4: the recurrence gives residues. -/
theorem akAdvance_keeps_residues (h : KeysAreResidues e) : KeysAreResidues (akAdvance e) := by
  obtain ⟨h0, h1, -, hkb⟩ := h
  have hrec := recurrence_lt e.cfg.akrule e.kb.toNat e.ka.toNat
  refine ⟨h0, h1, hkb, ?_⟩
  rw [akAdvance_kb, BitVec.toNat_ofNat]
  omega

theorem akSymbol_keeps_residues {dir : Direction} {b o : Byte} (hs : akSymbol dir b e = .ok (o, e'))
    (h : KeysAreResidues e) : KeysAreResidues e' := by
  rcases akSymbol_cases dir b e with ⟨-, -, hk⟩ | ⟨-, -, hk⟩ | ⟨_, _, -, -, -, hk⟩ <;> rw [hk] at hs <;> cases hs
  · exact h
  · exact akAdvance_keeps_residues h

/-- What a symbol leaves in KA, KB and AKJ, with any DOUT and POS. -/
theorem engineInv_of_akSymbol {dir : Direction} {b o : Byte} (hs : akSymbol dir b e = .ok (o, e')) (q : Word)
    (h : EngineInv e) : EngineInv { e with ka := e'.ka, kb := e'.kb, akj := e'.akj, dout := o, pos := q } := by
  obtain ⟨hfbw, hphase, hregs, hkeys, hflags⟩ := h
  obtain ⟨-, -, hka, hkb⟩ := akSymbol_keeps_residues hs hkeys
  obtain ⟨h0, h1, -, -⟩ := hkeys
  exact ⟨hfbw, hphase, hregs, ⟨h0, h1, hka, hkb⟩, hflags⟩

/-! ### Sessions -/

/-- R39, 5 and 7 ask nothing of an engine whose CFB and hybrid sessions have ended, whatever its key and IV. -/
theorem endCfbSessions_engineInv (hfbw : FbwLegal e) (hphase : PhaseInChunk e) (hregs : RegistersFit e)
    (hkeys : KeysAreResidues e) (hakv : e.akrdy = true → e.akv = true) : EngineInv (endCfbSessions e) :=
  ⟨hfbw, hphase, hregs, hkeys, by simp, hakv, by simp⟩

/-- A CFB unit started from the IV is at the start of a chunk, and its registers fit (R83). -/
theorem startCfb_fits (hfbw : FbwLegal e) (hregs : RegistersFit e) :
    PhaseInChunk (startCfb e) ∧ RegistersFit (startCfb e) :=
  ⟨hfbw.1, modRegister_toNat_lt _ _, Nat.two_pow_pos _, hregs.2.2⟩

/-! ### Commands -/

theorem setcfgEffect_keeps_engineInv {c : Cfg} (hok : setcfgEffect c e = .ok e') (h : EngineInv e) : EngineInv e' := by
  obtain ⟨hlow, hhigh, rfl⟩ := setcfgEffect_ok hok
  obtain ⟨-, -, -, hkeys, -⟩ := h
  have hzero : (0 : DWord).toNat < 2 ^ registerWidth c.mode := Nat.two_pow_pos _
  exact ⟨⟨hlow, hhigh⟩, hlow, ⟨hzero, hzero, hzero⟩, hkeys, by simp, by simp, by simp⟩

theorem bcEncEffect_keeps_engineInv (hok : bcEncEffect p e = .ok e') (h : EngineInv e) : EngineInv e' := by
  obtain rfl := bcEncEffect_ok hok
  obtain ⟨hfbw, hphase, ⟨hsr, hks, -⟩, hkeys, hflags⟩ := h
  exact ⟨hfbw, hphase, ⟨hsr, hks, blockCipher_toNat_lt p e e.sr⟩, hkeys, hflags⟩

theorem cfbInitEffect_keeps_engineInv (hok : cfbInitEffect e = .ok e') (h : EngineInv e) : EngineInv e' := by
  obtain ⟨hkey, hiv, rfl⟩ := cfbInitEffect_ok hok
  obtain ⟨hfbw, -, hregs, hkeys, -, hakv, -⟩ := h
  obtain ⟨hphase, hregs⟩ := startCfb_fits hfbw hregs
  exact ⟨hfbw, hphase, hregs, hkeys, by simp, hakv, fun _ => ⟨hkey, hiv⟩⟩

theorem akgLoadEffect_keeps_engineInv {k0 k1 : BitVec 5} (hok : akgLoadEffect k0 k1 e = .ok e') (h : EngineInv e) :
    EngineInv e' := by
  obtain ⟨h0, h1, rfl⟩ := akgLoadEffect_ok hok
  obtain ⟨hfbw, hphase, hregs, -, -, -, hcfb⟩ := h
  exact ⟨hfbw, hphase, hregs, ⟨h0, h1, h0, h1⟩, by simp, by simp, hcfb⟩

theorem hybInitEffect_keeps_engineInv (hok : hybInitEffect e = .ok e') (h : EngineInv e) : EngineInv e' := by
  obtain ⟨hkey, hiv, hakv, rfl⟩ := hybInitEffect_ok hok
  obtain ⟨hfbw, -, hregs, ⟨h0, h1, -, -⟩, -⟩ := h
  obtain ⟨hphase, hregs⟩ := startCfb_fits hfbw hregs
  exact ⟨hfbw, hphase, hregs, ⟨h0, h1, h0, h1⟩, fun _ => ⟨rfl, rfl⟩, fun _ => hakv, fun _ => ⟨hkey, hiv⟩⟩

theorem cfbData_keeps_engineInv {dir : Direction} {n : BitVec 4} {d : Byte} (hok : cfbData p dir n d e = .ok e')
    (h : EngineInv e) : EngineInv e' := by
  obtain ⟨xs, o, rfl⟩ := cfbData_ok hok
  exact engineInv_of_cfbStream xs o e.pos h

theorem akgData_keeps_engineInv {dir : Direction} {b : Byte} (hok : akgData dir b e = .ok e') (h : EngineInv e) :
    EngineInv e' := by
  obtain ⟨o, e₁, hs, rfl⟩ := akgData_ok hok
  exact engineInv_of_akSymbol hs e.pos h

theorem hybData_keeps_engineInv {dir : Direction} {b : Byte} (hok : hybData p dir b e = .ok e') (h : EngineInv e) :
    EngineInv e' := by
  obtain ⟨xs, o, rfl⟩ | ⟨o, e₁, hs, rfl⟩ := hybData_ok hok
  · exact engineInv_of_cfbStream xs o _ h
  · exact engineInv_of_akSymbol hs _ h

/-- R39, 1 to 7, and R117 hold right after reset. -/
theorem reset_engineInv : EngineInv Engine.reset ∧ ResultCodeKnown Engine.reset := by decide

theorem commandEffect_keeps_engineInv {i : Instr} (hok : commandEffect p i e = .ok e') (h : EngineInv e) :
    EngineInv e' := by
  have ⟨hfbw, hphase, hregs, hkeys, _, hakv, _⟩ := h
  cases i with
  | nop | clrerr => cases hok; exact h
  | softrst => cases hok; exact reset_engineInv.1
  | clrkey | clriv | ldivb => cases hok; exact endCfbSessions_engineInv hfbw hphase hregs hkeys hakv
  | ldkeyb b =>
    obtain ⟨_, _, _, _, rfl⟩ := ldkeyb_ok hok
    exact endCfbSessions_engineInv hfbw hphase hregs hkeys hakv
  | setcfg => exact setcfgEffect_keeps_engineInv hok h
  | bcEnc => exact bcEncEffect_keeps_engineInv hok h
  | cfbInit => exact cfbInitEffect_keeps_engineInv hok h
  | cfbEnc | cfbDec => exact cfbData_keeps_engineInv hok h
  | akgLoad => exact akgLoadEffect_keeps_engineInv hok h
  | akgEnc | akgDec => exact akgData_keeps_engineInv hok h
  | hybInit => exact hybInitEffect_keeps_engineInv hok h
  | hybEnc | hybDec => exact hybData_keeps_engineInv hok h

/-- A word's effect is a command's or none, so it keeps what every command keeps (R65). -/
theorem wordEffect_keeps_engineInv {v : Word} (hok : wordEffect p v e = .ok e') (h : EngineInv e) : EngineInv e' := by
  unfold wordEffect at hok
  split at hok
  · exact commandEffect_keeps_engineInv hok h
  · cases hok

/-- The end of a command reports a code of R117 and, where it failed, leaves what R39 speaks of (R118). -/
theorem conclude_keeps_inv {r : Except ErrorCode Engine} (hr : ∀ e', r = .ok e' → EngineInv e') (h : EngineInv e) :
    EngineInv (conclude e r) ∧ ResultCodeKnown (conclude e r) := by
  cases r with
  | ok e' => exact ⟨hr e' rfl, Nat.zero_le 7⟩
  | error c => exact ⟨h, code_le_seven c⟩

/-! ### Steps and runs -/

theorem step_keeps_inv {s t : State} (hstep : step s = .next t) (h : Safety.Inv s) : Safety.Inv t := by
  obtain ⟨-, rfl⟩ | ⟨_, _, -, ⟨_, rfl⟩ | ⟨v, -, rfl⟩ | ⟨-, rfl⟩⟩ := step_next_cases hstep
  · exact h
  · exact h
  · exact conclude_keeps_inv (fun _ hok => wordEffect_keeps_engineInv hok h.1) h.1
  · exact reset_engineInv

/-- What every step of a machine keeps, every run of it keeps. -/
theorem run_keeps {M : Host.Core} {P : M.State → Prop} (hstep : ∀ s t, M.step s = .next t → P s → P t) {k : Nat}
    {s t : M.State} (hrun : M.run k s = .next t) (h : P s) : P t := by
  induction k generalizing s with
  | zero =>
    cases hrun
    exact h
  | succ k ih =>
    unfold Host.Core.run at hrun
    split at hrun
    · exact ih hrun (hstep _ _ ‹_› h)
    · cases hrun
    · cases hrun

/-- Settles O57, by the cases of a step that goes on: nothing, an answer, a command word or a reset. -/
theorem everyStepKeepsTheInvariant : Obligations.EveryStepKeepsTheInvariant :=
  fun _ _ h hstep => step_keeps_inv hstep h

/-- Settles O58, by evaluation of the reset values of R18. -/
theorem resetStateHasTheInvariant : Obligations.ResetStateHasTheInvariant := reset_engineInv

/-- Settles O59, by induction on the inputs of the run: reset has the invariant and every step keeps it. -/
theorem everyRunKeepsTheInvariant : Obligations.EveryRunKeepsTheInvariant :=
  fun _ _ _ hrun =>
    (run_keeps (M := Sys2Proof.core) (P := Safety.Inv) (fun _ _ => step_keeps_inv) hrun reset_engineInv).1

end Sys2Proof.Machine
end

section
/-! Which words are no command, and what commands do to the session flags (R38) and to each register (R25 to R35). -/

namespace Sys2Proof.Machine

open Sys2Proof.Reference

variable {p : Config.CipherParams} {e e' : Engine}

/-! ### Illegal words (R66) -/

theorem opcField_toNat (v : Word) : (opcField v).toNat = v.toNat / 2 ^ 24 := by
  have hv := v.isLt
  rw [opcField, BitVec.extractLsb'_toNat, Nat.shiftRight_eq_div_pow, Nat.mod_eq_of_lt (by omega)]

theorem countField_toNat (v : Word) : (countField v).toNat = v.toNat / 2 ^ 8 % 2 ^ 4 := by
  rw [countField, BitVec.extractLsb'_toNat, Nat.shiftRight_eq_div_pow]

/-- R64, R66: every row of the opcode map has an opcode that is not reserved, is a row of the spec's table, and has format D
where the spec says so. -/
theorem opcodeTable_row {r : OpcodeRow} (h : r ∈ opcodeTable) :
    reservedOpcode r.opc.toNat = false ∧ (r.matchWord, r.mask) ∈ rows ∧
      (r.opc.toNat = 0x23 ∨ r.opc.toNat = 0x24 → r.format = .d) := by
  revert r
  decide

/-- R66: a word that decodes is none of the illegal words. -/
theorem illegalWord_eq_false_of_decode {v : Word} {i : Instr} (h : decode v = .ok i) : illegalWord v = false := by
  obtain ⟨r, hmem, hopc, hsel, hcount, -⟩ := decode_eq_ok h
  obtain ⟨hres, hrow, hd⟩ := opcodeTable_row hmem
  rw [hopc, opcField_toNat] at hres hd
  rw [countField_toNat] at hcount
  have hmatch : v &&& r.mask = r.matchWord := by simpa [OpcodeRow.selects] using hsel
  have hno : noRowMatches v = false := List.all_eq_false.mpr ⟨_, hrow, by simp [hmatch]⟩
  have hbits : bitCountIllegal v = false := decide_eq_false fun ⟨ho, hc⟩ => hcount ⟨hd ho, hc⟩
  rw [illegalWord, hres, hno, hbits]
  rfl

/-- R66: an illegal word raises ILLEGAL_COMMAND and has no other effect. -/
theorem executeWord_of_illegalWord {v : Word} (h : illegalWord v = true) (s : State) :
    executeWord v s = .next { s with engine := raiseError .illegalCommand s.engine } := by
  cases hd : decode v with
  | ok i => rw [illegalWord_eq_false_of_decode hd] at h; cases h
  | error err => exact executeWord_of_error hd s

/-! ### The session flags (R38) -/

/-- R38: a command that succeeds writes the flags of its row. -/
theorem commandEffect_flags {i : Instr} (hok : commandEffect p i e = .ok e') :
    flagsOf e' = flagsAfter i (flagsOf e) := by
  cases i with
  | nop | softrst | clrerr | clrkey | clriv | ldivb => cases hok; rfl
  | ldkeyb b => obtain ⟨_, _, _, _, rfl⟩ := ldkeyb_ok hok; rfl
  | setcfg => obtain ⟨-, -, rfl⟩ := setcfgEffect_ok hok; rfl
  | bcEnc => obtain rfl := bcEncEffect_ok hok; rfl
  | cfbInit => obtain ⟨-, -, rfl⟩ := cfbInitEffect_ok hok; rfl
  | cfbEnc | cfbDec => obtain ⟨_, _, rfl⟩ := cfbData_ok hok; rfl
  | akgLoad => obtain ⟨-, -, rfl⟩ := akgLoadEffect_ok hok; rfl
  | akgEnc | akgDec => obtain ⟨_, _, -, rfl⟩ := akgData_ok hok; rfl
  | hybInit => obtain ⟨-, -, -, rfl⟩ := hybInitEffect_ok hok; rfl
  | hybEnc | hybDec => obtain ⟨_, _, rfl⟩ | ⟨_, _, -, rfl⟩ := hybData_ok hok <;> rfl

/-- R38, R118: at a command's end the flags are those of its row, or as before but for ERRSEEN. -/
theorem conclude_flags {f : Flags} {r : Except ErrorCode Engine} (hr : ∀ e', r = .ok e' → flagsOf e' = f) :
    flagsOf (conclude e r) =
      if (conclude e r).lasterr = 0 then f else { flagsOf e with errseen := true } := by
  cases r with
  | ok e' =>
    rw [if_pos (show (conclude e (.ok e')).lasterr = 0 from okCode_eq_zero)]
    exact hr e' rfl
  | error c =>
    rw [if_neg (show (conclude e (.error c)).lasterr ≠ 0 from code_ne_zero c)]
    rfl

/-- Settles O53, by the cases of the commands that succeed; a failure and an illegal word record an error, and a reset clears. -/
theorem sessionFlagsFollowTheTable : Obligations.SessionFlagsFollowTheTable := by
  refine ⟨fun i s => ?_, fun v s hv => ?_, fun s rest hin => ?_⟩
  · exact ⟨_, exec_eq_finish i s, conclude_flags fun _ hok => commandEffect_flags hok⟩
  · exact ⟨_, executeWord_of_illegalWord hv s, rfl⟩
  · exact ⟨{ s with engine := resetEngine s.engine, inputs := rest }, by simp [step, hin, serve], rfl⟩

/-! ### Who writes what -/

/-- The writers of each register (R25, R26, R28 to R31, R34, R35): a register of `e'` that is not as in `e` was written by `i`. -/
def ChangesAtWriters (i : Instr) (e e' : Engine) : Prop :=
  (e'.cfg ≠ e.cfg → ∃ m r st c, i = .setcfg m r st c) ∧
  (keyBytes e' ≠ keyBytes e ∨ e'.keycnt ≠ e.keycnt → i = .clrkey ∨ ∃ b, i = .ldkeyb b) ∧
  (e'.ivreg ≠ e.ivreg ∨ e'.ivcnt ≠ e.ivcnt → i = .clriv ∨ ∃ b, i = .ldivb b) ∧
  (e'.bcout ≠ e.bcout → i = .bcEnc ∨ ∃ m r st c, i = .setcfg m r st c) ∧
  (e'.sr ≠ e.sr ∨ e'.ks ≠ e.ks ∨ e'.phase ≠ e.phase →
    i = .cfbInit ∨ i = .hybInit ∨ (∃ m r st c, i = .setcfg m r st c) ∨ (∃ dir n d, i = cfbCommand dir n d) ∨
      ∃ dir b, i = hybCommand dir b) ∧
  (e'.ak0 ≠ e.ak0 ∨ e'.ak1 ≠ e.ak1 ∨ e'.akv ≠ e.akv → ∃ k0 k1, i = .akgLoad k0 k1) ∧
  (e'.ka ≠ e.ka ∨ e'.kb ≠ e.kb ∨ e'.akj ≠ e.akj →
    i = .hybInit ∨ (∃ k0 k1, i = .akgLoad k0 k1) ∨ (∃ dir b, i = akgCommand dir b) ∨ ∃ dir b, i = hybCommand dir b) ∧
  (e'.pos ≠ e.pos → i = .hybInit ∨ ∃ dir b, i = hybCommand dir b) ∧
  (e'.dout ≠ e.dout → (∃ dir n d, i = cfbCommand dir n d) ∨ (∃ dir b, i = akgCommand dir b) ∨
    ∃ dir b, i = hybCommand dir b)

/-- Nothing changes, so no writer is asked for. -/
theorem ChangesAtWriters.refl (i : Instr) (e : Engine) : ChangesAtWriters i e e := by
  simp [ChangesAtWriters]

theorem cfbData_changes {dir : Direction} {n : BitVec 4} {d : Byte} (hok : cfbData p dir n d e = .ok e') :
    ChangesAtWriters (cfbCommand dir n d) e e' := by
  have hw : ∃ dir' n' d', cfbCommand dir n d = cfbCommand dir' n' d' := ⟨dir, n, d, rfl⟩
  obtain ⟨_, _, rfl⟩ := cfbData_ok hok
  simp [ChangesAtWriters, keyBytes, hw]

theorem akgData_changes {dir : Direction} {b : Byte} (hok : akgData dir b e = .ok e') :
    ChangesAtWriters (akgCommand dir b) e e' := by
  have hw : ∃ dir' b', akgCommand dir b = akgCommand dir' b' := ⟨dir, b, rfl⟩
  obtain ⟨_, _, -, rfl⟩ := akgData_ok hok
  simp [ChangesAtWriters, keyBytes, hw]

theorem hybData_changes {dir : Direction} {b : Byte} (hok : hybData p dir b e = .ok e') :
    ChangesAtWriters (hybCommand dir b) e e' := by
  have hw : ∃ dir' b', hybCommand dir b = hybCommand dir' b' := ⟨dir, b, rfl⟩
  obtain ⟨_, _, rfl⟩ | ⟨_, _, -, rfl⟩ := hybData_ok hok
  · simp [ChangesAtWriters, keyBytes, hw]
  · simp [ChangesAtWriters, keyBytes, hw]

/-- A command other than SOFTRST that succeeds changes only the registers it is a writer of. -/
theorem commandEffect_changes {i : Instr} (hok : commandEffect p i e = .ok e') (hi : i ≠ .softrst) :
    ChangesAtWriters i e e' := by
  cases i with
  | nop | clrerr => cases hok; exact ChangesAtWriters.refl _ e
  | softrst => exact absurd rfl hi
  | clrkey | clriv | ldivb => cases hok; simp [ChangesAtWriters, keyBytes]
  | ldkeyb => obtain ⟨_, _, _, _, rfl⟩ := ldkeyb_ok hok; simp [ChangesAtWriters]
  | setcfg => obtain ⟨-, -, rfl⟩ := setcfgEffect_ok hok; simp [ChangesAtWriters, keyBytes]
  | bcEnc => obtain rfl := bcEncEffect_ok hok; simp [ChangesAtWriters, keyBytes]
  | cfbInit => obtain ⟨-, -, rfl⟩ := cfbInitEffect_ok hok; simp [ChangesAtWriters, keyBytes]
  | cfbEnc => exact cfbData_changes (dir := .enc) hok
  | cfbDec => exact cfbData_changes (dir := .dec) hok
  | akgLoad => obtain ⟨-, -, rfl⟩ := akgLoadEffect_ok hok; simp [ChangesAtWriters, keyBytes]
  | akgEnc => exact akgData_changes (dir := .enc) hok
  | akgDec => exact akgData_changes (dir := .dec) hok
  | hybInit => obtain ⟨-, -, -, rfl⟩ := hybInitEffect_ok hok; simp [ChangesAtWriters, keyBytes]
  | hybEnc => exact hybData_changes (dir := .enc) hok
  | hybDec => exact hybData_changes (dir := .dec) hok

/-- A command's end changes no register: LASTERR and ERRSEEN are none (R118). -/
theorem conclude_changes {i : Instr} {r : Except ErrorCode Engine} (hr : ∀ e', r = .ok e' → ChangesAtWriters i e e') :
    ChangesAtWriters i e (conclude e r) := by
  cases r with
  | ok e' => exact hr e' rfl
  | error c => exact ChangesAtWriters.refl i e

/-- Settles O55, by the cases of the commands that succeed: each changes only the registers it is a writer of. -/
theorem eachRegisterChangesOnlyAtItsWriters : Obligations.EachRegisterChangesOnlyAtItsWriters := by
  intro i s t hexec hi
  obtain rfl := (exec_next_iff i s t).mp hexec
  obtain ⟨hcfg, hkey, hiv, hbcout, hcfb, hkeys, hstream, hpos, hdout⟩ :=
    conclude_changes fun _ hok => commandEffect_changes (p := s.params) hok hi
  exact ⟨hcfg, hkey, hiv, hbcout, hcfb, hkeys, hstream, hpos, hdout, rfl, rfl, rfl⟩

end Sys2Proof.Machine
end

section
/-! The register window and the bus (R22 to R45): where each field of the state is read, that no field is hidden, and what a
write does. -/

namespace Sys2Proof.Machine

open Sys2Proof.Safety Sys2Proof.Reference

/-! ### Fields of a word -/

/-- Bits put side by side are the sum of their place values (R9, R10). -/
theorem toNat_append_eq_add {m n : Nat} (x : BitVec m) (y : BitVec n) :
    (x ++ y).toNat = x.toNat * 2 ^ n + y.toNat := by
  rw [BitVec.toNat_append, ← Nat.shiftLeft_add_eq_or_of_lt y.isLt, Nat.shiftLeft_eq]

/-- A 64-bit register is read as its two halves (R22). -/
theorem toNat_halves (x : DWord) :
    (x.extractLsb' 32 32).toNat * 2 ^ 32 + (x.extractLsb' 0 32).toNat = x.toNat := by
  have hx := x.isLt
  simp only [BitVec.extractLsb'_toNat, Nat.shiftRight_eq_div_pow]
  omega

/-- STATUS (R24). -/
theorem statusWord_toNat (e : Engine) :
    (statusWord e).toNat = e.lasterr.toNat + 2 ^ 8 * e.errseen.toNat + 2 ^ 9 * e.cfbrdy.toNat + 2 ^ 10 * e.akrdy.toNat +
      2 ^ 11 * e.hybrdy.toNat + 2 ^ 12 * e.akv.toNat + 2 ^ 16 * e.keycnt.toNat + 2 ^ 24 * e.ivcnt.toNat := by
  simp only [statusWord, BitVec.toNat_cast, toNat_append_eq_add, BitVec.toNat_ofBool, BitVec.toNat_ofNat]
  omega

theorem mode_bit_toNat (m : Mode) : m.bit.toNat = if m = .toy then 1 else 0 := by cases m <;> rfl

theorem akRule_bit_toNat (r : AkRule) : r.bit.toNat = if r = .mul then 1 else 0 := by cases r <;> rfl

/-- CFG (R25). -/
theorem cfgWord_toNat (c : Cfg) :
    (cfgWord c).toNat = (if c.mode = .toy then 1 else 0) + (if c.akrule = .mul then 2 else 0) + 4 * c.strict.toNat +
      2 ^ 8 * c.fbw.toNat := by
  simp only [cfgWord, configBits, BitVec.toNat_cast, toNat_append_eq_add, BitVec.toNat_ofBool, BitVec.toNat_ofNat,
    mode_bit_toNat, akRule_bit_toNat]
  split <;> split <;> omega

/-- CFBPH (R32). -/
theorem cfbphWord_toNat (e : Engine) : (cfbphWord e).toNat = e.phase.toNat := by
  simp only [cfbphWord, BitVec.toNat_cast, toNat_append_eq_add, BitVec.toNat_ofNat]
  omega

/-- AKST (R33). -/
theorem akstWord_toNat (e : Engine) :
    (akstWord e).toNat = e.ka.toNat + 2 ^ 8 * e.kb.toNat + 2 ^ 16 * e.ak0.toNat + 2 ^ 24 * e.ak1.toNat := by
  simp only [akstWord, BitVec.toNat_cast, toNat_append_eq_add, BitVec.toNat_ofNat]
  omega

/-- DOUT (R26). -/
theorem doutWord_toNat (e : Engine) : (e.dout.setWidth 32).toNat = e.dout.toNat :=
  BitVec.toNat_setWidth_of_le (by decide)

/-- Settles O10, register by register; `readRegister` at a fixed offset is its register. -/
theorem windowFieldsStandWhereTheMapPutsThem : Obligations.WindowFieldsStandWhereTheMapPutsThem :=
  fun e => ⟨statusWord_toNat e, cfgWord_toNat e.cfg, doutWord_toNat e, toNat_halves e.sr, toNat_halves e.ks,
    toNat_halves e.bcout, toNat_halves e.ivreg, rfl, rfl, rfl, rfl, cfbphWord_toNat e, akstWord_toNat e, rfl, rfl, rfl, rfl⟩

/-! ### No field is hidden (R40) -/

section
variable {e e' : Engine}

theorem boolToNat_injective : Function.Injective Bool.toNat := by decide

/-- Equal halves make equal registers. -/
theorem eq_of_halves {x y : DWord} (hhigh : x.extractLsb' 32 32 = y.extractLsb' 32 32)
    (hlow : x.extractLsb' 0 32 = y.extractLsb' 0 32) : x = y := by
  apply BitVec.eq_of_toNat_eq
  rw [← toNat_halves x, ← toNat_halves y, hhigh, hlow]

/-- STATUS shows its eight fields: their place values do not overlap (R24). -/
theorem statusWord_injective (h : statusWord e = statusWord e') :
    e.lasterr = e'.lasterr ∧ e.errseen = e'.errseen ∧ e.cfbrdy = e'.cfbrdy ∧ e.akrdy = e'.akrdy ∧
      e.hybrdy = e'.hybrdy ∧ e.akv = e'.akv ∧ e.keycnt = e'.keycnt ∧ e.ivcnt = e'.ivcnt := by
  have hnat := congrArg BitVec.toNat h
  rw [statusWord_toNat, statusWord_toNat] at hnat
  have := e.lasterr.isLt; have := e'.lasterr.isLt
  have := e.errseen.toNat_lt; have := e'.errseen.toNat_lt
  have := e.cfbrdy.toNat_lt; have := e'.cfbrdy.toNat_lt
  have := e.akrdy.toNat_lt; have := e'.akrdy.toNat_lt
  have := e.hybrdy.toNat_lt; have := e'.hybrdy.toNat_lt
  have := e.akv.toNat_lt; have := e'.akv.toNat_lt
  have := e.keycnt.isLt; have := e'.keycnt.isLt
  have := e.ivcnt.isLt; have := e'.ivcnt.isLt
  refine ⟨BitVec.eq_of_toNat_eq ?_, boolToNat_injective ?_, boolToNat_injective ?_, boolToNat_injective ?_,
    boolToNat_injective ?_, boolToNat_injective ?_, BitVec.eq_of_toNat_eq ?_, BitVec.eq_of_toNat_eq ?_⟩ <;> omega

/-- CFG shows its four fields (R25). -/
theorem cfgWord_injective {c c' : Cfg} (h : cfgWord c = cfgWord c') : c = c' := by
  have hnat := congrArg BitVec.toNat h
  rw [cfgWord_toNat, cfgWord_toNat] at hnat
  obtain ⟨m, r, st, f⟩ := c
  obtain ⟨m', r', st', f'⟩ := c'
  have := st.toNat_lt; have := st'.toNat_lt
  have hf : f = f' := BitVec.eq_of_toNat_eq (by grind)
  have hst : st = st' := boolToNat_injective (by grind)
  have hm : m = m' := by cases m <;> cases m' <;> grind
  have hr : r = r' := by cases r <;> cases r' <;> grind
  rw [hf, hst, hm, hr]

/-- AKST shows its four fields (R33). -/
theorem akstWord_injective (h : akstWord e = akstWord e') :
    e.ka = e'.ka ∧ e.kb = e'.kb ∧ e.ak0 = e'.ak0 ∧ e.ak1 = e'.ak1 := by
  have hnat := congrArg BitVec.toNat h
  rw [akstWord_toNat, akstWord_toNat] at hnat
  have := e.ka.isLt; have := e'.ka.isLt
  have := e.kb.isLt; have := e'.kb.isLt
  have := e.ak0.isLt; have := e'.ak0.isLt
  have := e.ak1.isLt; have := e'.ak1.isLt
  refine ⟨BitVec.eq_of_toNat_eq ?_, BitVec.eq_of_toNat_eq ?_, BitVec.eq_of_toNat_eq ?_, BitVec.eq_of_toNat_eq ?_⟩ <;>
    omega

theorem cfbphWord_injective (h : cfbphWord e = cfbphWord e') : e.phase = e'.phase := by
  apply BitVec.eq_of_toNat_eq
  rw [← cfbphWord_toNat, h, cfbphWord_toNat]

theorem doutWord_injective (h : e.dout.setWidth 32 = e'.dout.setWidth 32) : e.dout = e'.dout := by
  apply BitVec.eq_of_toNat_eq
  rw [← doutWord_toNat, h, doutWord_toNat]

end

/-- Settles O11: every field of R18 is in a register of the window, and each register shows its fields. -/
theorem windowShowsAllOfTheState : Obligations.WindowShowsAllOfTheState := by
  intro e e' h
  obtain ⟨hlasterr, herrseen, hcfbrdy, hakrdy, hhybrdy, hakv, hkeycnt, hivcnt⟩ := statusWord_injective (h 0x04 rfl)
  have hcfg := cfgWord_injective (h 0x08 rfl)
  have hdout := doutWord_injective (h 0x0C rfl)
  have hsr := eq_of_halves (h 0x10 rfl) (h 0x14 rfl)
  have hks := eq_of_halves (h 0x18 rfl) (h 0x1C rfl)
  have hbcout := eq_of_halves (h 0x20 rfl) (h 0x24 rfl)
  have hivreg := eq_of_halves (h 0x28 rfl) (h 0x2C rfl)
  have hkey0 : e.key0 = e'.key0 := h 0x30 rfl
  have hkey1 : e.key1 = e'.key1 := h 0x34 rfl
  have hkey2 : e.key2 = e'.key2 := h 0x38 rfl
  have hkey3 : e.key3 = e'.key3 := h 0x3C rfl
  have hphase := cfbphWord_injective (h 0x40 rfl)
  obtain ⟨hka, hkb, hak0, hak1⟩ := akstWord_injective (h 0x44 rfl)
  have hakj : e.akj = e'.akj := h 0x48 rfl
  have hpos : e.pos = e'.pos := h 0x4C rfl
  cases e
  cases e'
  simp only [Engine.mk.injEq]
  exact ⟨hcfg, hkey0, hkey1, hkey2, hkey3, hkeycnt, hivreg, hivcnt, hsr, hks, hphase, hbcout, hak0, hak1, hka, hkb, hakj,
    hakv, hpos, hcfbrdy, hakrdy, hhybrdy, hdout, hlasterr, herrseen⟩

/-! ### Writes (R23, R37, R44) -/

section
variable {s : State} {a : BitVec 8} {v : Word} {rest : List HostInput}

/-- R23, R44: an aligned 32-bit write to CMD executes its word, its answer given. -/
theorem step_write_cmd (hin : s.inputs = .transaction (.write 0x00 .bits32 v) :: rest) :
    step s = executeWord v { s with inputs := rest, responses := s.responses ++ [.writeDone] } := by
  simp only [step, hin, serve]
  rfl

/-- R37, R44: an aligned 32-bit write to any other offset is answered and has no other effect. -/
theorem step_write_other (hin : s.inputs = .transaction (.write a .bits32 v) :: rest) (ha : a.toNat % 4 = 0)
    (hne : a ≠ cmdOffset) :
    step s = .next { s with inputs := rest, responses := s.responses ++ [.writeDone] } := by
  have hacc : busAccepts a .bits32 = true := (busAccepts_iff a .bits32).mpr ⟨rfl, ha⟩
  simp only [step, hin, serve, hostWrite, if_pos hacc, if_neg hne]
  rfl

end

/-- R37: past ID every offset is reserved and reads 0. -/
theorem readRegister_reserved (e : Engine) {a : BitVec 8} (ha : 0x54 ≤ a.toNat) : readRegister e a = 0 := by
  unfold readRegister
  split
  rotate_right
  · rfl
  all_goals omega

/-- Settles O7, by what a write to CMD executes and the two answers of the decoder. -/
theorem stepExecutesTheWrittenCommand : Obligations.StepExecutesTheWrittenCommand := by
  intro s v rest hin
  rw [step_write_cmd hin]
  refine ⟨fun i hi => executeWord_of_decode hi _, fun hnone => ?_⟩
  cases hd : decode v with
  | ok i => exact absurd hd (hnone i)
  | error err => exact executeWord_of_error hd _

/-- Settles O12, by the default row of the window and what a write to another offset does. -/
theorem reservedOffsetsReadZeroAndIgnoreWrites : Obligations.ReservedOffsetsReadZeroAndIgnoreWrites :=
  ⟨fun e _ ha _ => readRegister_reserved e ha, fun _ _ _ _ hin ha hne => step_write_other hin ha hne⟩

end Sys2Proof.Machine
end

section
/-! Transactions on the bus (R44, R45, R48, R122): what an accepted read answers, what a bad transaction gets, and which
transaction can change the engine. -/

namespace Sys2Proof.Machine

section
variable {s : State} {a : BitVec 8} {size : BusSize} {rest : List HostInput}

/-- R45: another size or alignment is not accepted. -/
theorem not_busAccepts_of_bad (hbad : size ≠ .bits32 ∨ a.toNat % 4 ≠ 0) : ¬ busAccepts a size = true := by
  rw [busAccepts_iff, not_and_or]
  exact hbad

/-- R44, R48: a read the bus accepts answers the register it names. -/
theorem hostRead_of_accepts (hacc : busAccepts a size = true) :
    hostRead a size s = .next (respond (.readValue (readRegister s.engine a)) s) := if_pos hacc

/-- R45, R122: a read the bus does not accept. -/
theorem hostRead_of_not_accepts (hacc : ¬ busAccepts a size = true) :
    hostRead a size s = .next (respond .busErr s) := if_neg hacc

/-- R45, R122: a write the bus does not accept, to CMD or elsewhere. -/
theorem hostWrite_of_not_accepts (hacc : ¬ busAccepts a size = true) (v : Word) :
    hostWrite a size v s = .next (respond .busErr s) := if_neg hacc

theorem step_of_inputs_cons {input : HostInput} (hin : s.inputs = input :: rest) :
    step s = serve input { s with inputs := rest } := by
  simp only [step, hin]

end

/-- Settles O13: a bad read and a bad write are not accepted, so each is answered BUSERR. -/
theorem badTransactionGetsABusError : Obligations.BadTransactionGetsABusError := by
  intro s a size v rest hin hbad
  have hacc := not_busAccepts_of_bad hbad
  rcases hin with hread | hwrite
  · rw [step_of_inputs_cons hread]
    exact hostRead_of_not_accepts hacc
  · rw [step_of_inputs_cons hwrite]
    exact hostWrite_of_not_accepts hacc v

/-- Settles O14, by the cases of a step that goes on: on a transaction, only a command word does not leave the engine. -/
theorem onlyCommandWritesChangeTheEngine : Obligations.OnlyCommandWritesChangeTheEngine := by
  intro s u t rest hin hstep hne
  obtain ⟨hnil, -⟩ | ⟨input, rest', hcons, hcase⟩ := step_next_cases hstep
  · rw [hin] at hnil
    cases hnil
  · rw [hin] at hcons
    cases hcons
    obtain ⟨_, rfl⟩ | ⟨v, hwrite, -⟩ | ⟨hreset, -⟩ := hcase
    · exact absurd rfl hne
    · exact ⟨v, HostInput.transaction.inj hwrite⟩
    · cases hreset

/-- Settles O9: the bus accepts an aligned 32-bit read, so it answers the register. -/
theorem readAnswersTheRegister : Obligations.ReadAnswersTheRegister := by
  intro s a rest hin haligned
  rw [step_of_inputs_cons hin]
  exact hostRead_of_accepts ((busAccepts_iff a .bits32).mpr ⟨rfl, haligned⟩)

end Sys2Proof.Machine
end

section
/-! The decoder and the encoder undo each other (R57 to R65): a row of the opcode map fixes the word of the commands it
builds, and every command is built by a row from its own word. -/

namespace Sys2Proof

open Sys2Proof.Machine Sys2Proof.Reference

/-! ### Rows of the opcode map (R64) -/

/-- R64: the opcode map has the match and mask columns of the spec's table. -/
theorem opcodeTable_columns : opcodeTable.map (fun r => (r.matchWord, r.mask)) = rows := by decide

/-- R64: no two rows have the same opcode. -/
theorem opcodeTable_opcodes_nodup : (opcodeTable.map (·.opc)).Nodup := by decide

/-- R65: the row of an assigned opcode is the one row that has it. -/
theorem rowOf_opc {r : OpcodeRow} (h : r ∈ opcodeTable) : rowOf r.opc = some r := by
  cases hq : rowOf r.opc with
  | none => exact absurd (List.find?_eq_none.mp hq r h) (by simp)
  | some q =>
    obtain ⟨hmem, hopc⟩ := rowOf_some hq
    rw [List.inj_on_of_nodup_map opcodeTable_opcodes_nodup hmem h hopc]

/-- R65: a word that a row selects decodes to the row's command, where format D's bit count is legal. -/
theorem decode_of_selects {r : OpcodeRow} {v : Word} (h : r ∈ opcodeTable) (hsel : r.selects v = true)
    (hcount : ¬(r.format = .d ∧ 8 < (countField v).toNat)) : decode v = .ok (r.build v) := by
  have hrow : rowOf (opcField v) = some r := opc_of_selects hsel ▸ rowOf_opc h
  simp only [decode, hrow, if_pos hsel, if_neg hcount]

/-- The word that an opcode and the fields of `v` make in a format (R58 to R62). -/
def formatWord (f : Format) (o : BitVec 8) (v : Word) : Word :=
  match f with
  | .n => wordN o
  | .b => wordB o (byteField v)
  | .d => wordD o (countField v) (byteField v)
  | .c => wordC o (modeField v) (ruleField v) (strictField v) (fbwField v)
  | .k => wordK o (k0Field v) (k1Field v)

/-- A word with the fixed bits of a format is the word its fields make: no bit is outside both. -/
theorem formatWord_of_mask {f : Format} {o : BitVec 8} {v : Word} (h : v &&& f.mask = wordN o) : formatWord f o v = v := by
  cases f with
  | n => exact wordN_of_mask h
  | b => exact wordB_of_mask h
  | d => exact wordD_of_mask h
  | c => exact wordC_of_mask h
  | k => exact wordK_of_mask h

/-- R58 to R64: a row's command has the row's opcode and, in the row's format, the fields of the word it was built from. -/
theorem encode_build {r : OpcodeRow} (h : r ∈ opcodeTable) (v : Word) :
    encode (r.build v) = formatWord r.format r.opc v := by
  fin_cases h <;> rfl

/-- R60, R65: a row's command is well-formed unless it is of format D with a bit count above 8. -/
theorem wellFormed_build_iff {r : OpcodeRow} (h : r ∈ opcodeTable) (v : Word) :
    WellFormed (r.build v) ↔ ¬(r.format = .d ∧ 8 < (countField v).toNat) := by
  have hwf : (r.build v).wf = if r.format = .d then legalBitCount (countField v) else true := by
    fin_cases h <;> rfl
  rw [WellFormed, hwf]
  split <;> simp_all [legalBitCount]

/-- Settles O2: the row that a decode went through has the word's fixed bits, so the word is the one its fields make. -/
theorem decodedWordIsTheWordOfItsCommand : Obligations.DecodedWordIsTheWordOfItsCommand := by
  intro v i hdec
  obtain ⟨r, hmem, -, hsel, hcount, rfl⟩ := decode_eq_ok hdec
  refine ⟨(wellFormed_build_iff hmem v).mpr hcount, ?_⟩
  rw [encode_build hmem, formatWord_of_mask ((selects_iff r v).mp hsel)]

/-- Settles O3: a row that selects a word has the word's opcode, and no two rows have the same. -/
theorem atMostOneRowMatchesAWord : Obligations.AtMostOneRowMatchesAWord := by
  refine ⟨opcodeTable_columns, fun v i j r q hi hj hr hq => ?_⟩
  have hopc : r.opc = q.opc := (opc_of_selects hr).trans (opc_of_selects hq).symm
  obtain ⟨hlt, rfl⟩ := List.getElem?_eq_some_iff.mp hi
  obtain ⟨hlt', rfl⟩ := List.getElem?_eq_some_iff.mp hj
  apply (opcodeTable_opcodes_nodup.getElem_inj_iff (hi := by simpa using hlt) (hj := by simpa using hlt')).mp
  simpa using hopc

/-- Settles O5, by evaluation of the decoder at each word. -/
theorem writtenOutWordsDecode : Obligations.WrittenOutWordsDecode := by
  unfold Obligations.WrittenOutWordsDecode
  decide

/-! ### Fields of an encoded word -/

theorem wordB_toNat (o : BitVec 8) (b : Byte) : (wordB o b).toNat = 2 ^ 24 * o.toNat + b.toNat := by
  simp only [wordB, BitVec.toNat_cast, toNat_append_eq_add, BitVec.toNat_ofNat]
  omega

theorem wordD_toNat (o : BitVec 8) (n : BitVec 4) (d : Byte) :
    (wordD o n d).toNat = 2 ^ 24 * o.toNat + 2 ^ 8 * n.toNat + d.toNat := by
  simp only [wordD, BitVec.toNat_cast, toNat_append_eq_add, BitVec.toNat_ofNat]
  omega

theorem wordK_toNat (o : BitVec 8) (k0 k1 : BitVec 5) :
    (wordK o k0 k1).toNat = 2 ^ 24 * o.toNat + 2 ^ 8 * k1.toNat + k0.toNat := by
  simp only [wordK, BitVec.toNat_cast, toNat_append_eq_add, BitVec.toNat_ofNat]
  omega

theorem wordC_toNat (o : BitVec 8) (m : Mode) (r : AkRule) (st : Bool) (c : BitVec 7) :
    (wordC o m r st c).toNat =
      2 ^ 24 * o.toNat + 2 ^ 8 * c.toNat + 4 * st.toNat + 2 * r.bit.toNat + m.bit.toNat := by
  simp only [wordC, configBits, BitVec.toNat_cast, toNat_append_eq_add, BitVec.toNat_ofNat, BitVec.toNat_ofBool]
  omega

theorem byteField_toNat (v : Word) : (byteField v).toNat = v.toNat % 2 ^ 8 := by
  rw [byteField, BitVec.extractLsb'_toNat, Nat.shiftRight_zero]

theorem fbwField_toNat (v : Word) : (fbwField v).toNat = v.toNat / 2 ^ 8 % 2 ^ 7 := by
  rw [fbwField, BitVec.extractLsb'_toNat, Nat.shiftRight_eq_div_pow]

theorem k0Field_toNat (v : Word) : (k0Field v).toNat = v.toNat % 2 ^ 5 := by
  rw [k0Field, BitVec.extractLsb'_toNat, Nat.shiftRight_zero]

theorem k1Field_toNat (v : Word) : (k1Field v).toNat = v.toNat / 2 ^ 8 % 2 ^ 5 := by
  rw [k1Field, BitVec.extractLsb'_toNat, Nat.shiftRight_eq_div_pow]

@[simp] theorem byteField_wordB (o : BitVec 8) (b : Byte) : byteField (wordB o b) = b := by
  apply BitVec.eq_of_toNat_eq
  rw [byteField_toNat, wordB_toNat]
  omega

@[simp] theorem countField_wordD (o : BitVec 8) (n : BitVec 4) (d : Byte) : countField (wordD o n d) = n := by
  apply BitVec.eq_of_toNat_eq
  rw [countField_toNat, wordD_toNat]
  omega

@[simp] theorem byteField_wordD (o : BitVec 8) (n : BitVec 4) (d : Byte) : byteField (wordD o n d) = d := by
  apply BitVec.eq_of_toNat_eq
  rw [byteField_toNat, wordD_toNat]
  omega

@[simp] theorem k0Field_wordK (o : BitVec 8) (k0 k1 : BitVec 5) : k0Field (wordK o k0 k1) = k0 := by
  apply BitVec.eq_of_toNat_eq
  rw [k0Field_toNat, wordK_toNat]
  omega

@[simp] theorem k1Field_wordK (o : BitVec 8) (k0 k1 : BitVec 5) : k1Field (wordK o k0 k1) = k1 := by
  apply BitVec.eq_of_toNat_eq
  rw [k1Field_toNat, wordK_toNat]
  omega

section
variable (o : BitVec 8) (m : Mode) (r : AkRule) (st : Bool) (c : BitVec 7)

@[simp] theorem fbwField_wordC : fbwField (wordC o m r st c) = c := by
  have := st.toNat_lt
  apply BitVec.eq_of_toNat_eq
  rw [fbwField_toNat, wordC_toNat]
  omega

@[simp] theorem strictField_wordC : strictField (wordC o m r st c) = st := by
  simp only [strictField, wordC, configBits, BitVec.getLsbD_cast, BitVec.getLsbD_append]
  simp

@[simp] theorem ruleField_wordC : ruleField (wordC o m r st c) = r := by
  simp only [ruleField, wordC, configBits, BitVec.getLsbD_cast, BitVec.getLsbD_append]
  cases r <;> simp [AkRule.bit]

@[simp] theorem modeField_wordC : modeField (wordC o m r st c) = m := by
  simp only [modeField, wordC, configBits, BitVec.getLsbD_cast, BitVec.getLsbD_append]
  cases m <;> simp [Mode.bit]

end

/-! ### The round trip -/

/-- R65: a well-formed command whose word has the fixed bits of a row, and which the row builds from that word, is what
the word decodes to. -/
theorem decode_encode_of_rowOf {opc : BitVec 8} {r : OpcodeRow} {i : Instr} (hrow : rowOf opc = some r)
    (hmatch : encode i &&& r.mask = r.matchWord) (hbuild : r.build (encode i) = i) (hwf : WellFormed i) :
    decode (encode i) = .ok i := by
  have hmem : r ∈ opcodeTable := (rowOf_some hrow).1
  have hcount := (wellFormed_build_iff hmem (encode i)).mp (by rwa [hbuild])
  rw [decode_of_selects hmem (beq_iff_eq.mpr hmatch) hcount, hbuild]

/-- Settles O1, command by command: its word has the fixed bits of its row, and its fields are the command's operands. -/
theorem encodedCommandDecodesToItself : Obligations.EncodedCommandDecodesToItself := by
  intro i hwf
  cases i with
  | nop => exact decode_encode_of_rowOf (opc := 0x00) rfl Laws.TableRow.nop rfl hwf
  | softrst => exact decode_encode_of_rowOf (opc := 0x01) rfl Laws.TableRow.softrst rfl hwf
  | clrerr => exact decode_encode_of_rowOf (opc := 0x02) rfl Laws.TableRow.clrerr rfl hwf
  | setcfg m r st c => exact decode_encode_of_rowOf (opc := 0x03) rfl (Laws.TableRow.setcfg m r st c) (by simp [encode]) hwf
  | clrkey => exact decode_encode_of_rowOf (opc := 0x10) rfl Laws.TableRow.clrkey rfl hwf
  | ldkeyb b => exact decode_encode_of_rowOf (opc := 0x11) rfl (Laws.TableRow.ldkeyb b) (by simp [encode]) hwf
  | bcEnc => exact decode_encode_of_rowOf (opc := 0x12) rfl Laws.TableRow.bcEnc rfl hwf
  | clriv => exact decode_encode_of_rowOf (opc := 0x20) rfl Laws.TableRow.clriv rfl hwf
  | ldivb b => exact decode_encode_of_rowOf (opc := 0x21) rfl (Laws.TableRow.ldivb b) (by simp [encode]) hwf
  | cfbInit => exact decode_encode_of_rowOf (opc := 0x22) rfl Laws.TableRow.cfbInit rfl hwf
  | cfbEnc n d => exact decode_encode_of_rowOf (opc := 0x23) rfl (Laws.TableRow.cfbEnc n d) (by simp [encode]) hwf
  | cfbDec n d => exact decode_encode_of_rowOf (opc := 0x24) rfl (Laws.TableRow.cfbDec n d) (by simp [encode]) hwf
  | akgLoad k0 k1 => exact decode_encode_of_rowOf (opc := 0x30) rfl (Laws.TableRow.akgLoad k0 k1) (by simp [encode]) hwf
  | akgEnc b => exact decode_encode_of_rowOf (opc := 0x31) rfl (Laws.TableRow.akgEnc b) (by simp [encode]) hwf
  | akgDec b => exact decode_encode_of_rowOf (opc := 0x32) rfl (Laws.TableRow.akgDec b) (by simp [encode]) hwf
  | hybInit => exact decode_encode_of_rowOf (opc := 0x40) rfl Laws.TableRow.hybInit rfl hwf
  | hybEnc b => exact decode_encode_of_rowOf (opc := 0x41) rfl (Laws.TableRow.hybEnc b) (by simp [encode]) hwf
  | hybDec b => exact decode_encode_of_rowOf (opc := 0x42) rfl (Laws.TableRow.hybDec b) (by simp [encode]) hwf

end Sys2Proof
end

section
/-! The illegal words are the three kinds of R66. -/

namespace Sys2Proof.Machine

open Sys2Proof.Reference

/-- R60, R64: only the opcodes 0x23 and 0x24 have format D. -/
theorem opcode_of_format_d {r : OpcodeRow} (h : r ∈ opcodeTable) (hd : r.format = .d) :
    r.opc.toNat = 0x23 ∨ r.opc.toNat = 0x24 := by
  revert r
  decide

/-- R66: a word of none of the three kinds is selected by a row and has a legal bit count, so it decodes. -/
theorem exists_decode_of_not_illegalWord {v : Word} (h : illegalWord v = false) : ∃ i, decode v = .ok i := by
  obtain ⟨⟨-, hno⟩, hbits⟩ := by simpa only [illegalWord, Bool.or_eq_false_iff] using h
  obtain ⟨row, hrow, hmatch⟩ := List.all_eq_false.mp hno
  rw [← opcodeTable_columns] at hrow
  obtain ⟨r, hmem, rfl⟩ := List.mem_map.mp hrow
  have hsel : r.selects v = true := by simpa [OpcodeRow.selects] using hmatch
  refine ⟨_, decode_of_selects hmem hsel fun ⟨hd, hcount⟩ => ?_⟩
  have hopc := opcode_of_format_d hmem hd
  rw [opc_of_selects hsel, opcField_toNat] at hopc
  rw [countField_toNat] at hcount
  exact of_decide_eq_false hbits ⟨hopc, hcount⟩

/-- Settles O4: an illegal word does not decode and any other does; executing it ends in ILLEGAL_COMMAND. -/
theorem illegalWordRaisesIllegalCommandOnly : Obligations.IllegalWordRaisesIllegalCommandOnly := by
  refine fun v s => ⟨⟨fun hill i hdec => ?_, fun hnone => ?_⟩, fun hill => executeWord_of_illegalWord hill s⟩
  · rw [illegalWord_eq_false_of_decode hdec] at hill
    cases hill
  · by_contra hleg
    obtain ⟨i, hdec⟩ := exists_decode_of_not_illegalWord (Bool.eq_false_iff.mpr hleg)
    exact hnone i hdec

end Sys2Proof.Machine
end

section
/-! The data bits of format D (R60) and the expansion of LDKEY (R68). -/

namespace Sys2Proof.Machine

open Sys2Proof.Safety Sys2Proof.Reference

/-! ### Ignored data bits (R60) -/

/-- The data bits of a count are those of the byte mod 2^N. -/
theorem dataBits_congr {n : Nat} {d d' : Byte} (h : d.toNat % 2 ^ n = d'.toNat % 2 ^ n) : dataBits n d = dataBits n d' := by
  have hbit {j : Nat} (hj : j < n) : d.getLsbD j = d'.getLsbD j := by
    have := congrArg (Nat.testBit · j) h
    simpa [Nat.testBit_mod_two_pow, hj, BitVec.getLsbD] using this
  apply List.ext_getElem (by simp)
  intro i hi hi'
  rw [dataBits_length] at hi
  rw [getElem_dataBits, getElem_dataBits, hbit (by omega)]

/-- R86, R87: a data command reads its byte through its data bits alone. -/
theorem cfbData_congr (p : Config.CipherParams) (dir : Direction) {n : BitVec 4} {d d' : Byte} (e : Engine)
    (h : dataBits n.toNat d = dataBits n.toNat d') : cfbData p dir n d e = cfbData p dir n d' e := by
  simp only [cfbData, h]

theorem exec_cfbCommand (dir : Direction) (n : BitVec 4) (d : Byte) (s : State) :
    exec (cfbCommand dir n d) s = finish s (cfbData s.params dir n d s.engine) := by
  cases dir <;> rfl

/-- Settles O6: both commands put the same data bits through the CFB unit. -/
theorem dataBitsAboveTheCountAreIgnored : Obligations.DataBitsAboveTheCountAreIgnored := by
  intro dir n d d' s h
  rw [exec_cfbCommand, exec_cfbCommand, cfbData_congr s.params dir s.engine (dataBits_congr h)]

/-! ### The expansion of LDKEY (R68, R77) -/

/-- The key words and KEYCNT after commands that wrote them: the CFB and hybrid sessions have ended, LASTERR is 0. -/
def withKey (s : State) (k0 k1 k2 k3 : Word) (count : BitVec 5) : State :=
  { s with engine := { s.engine with
    key0 := k0, key1 := k1, key2 := k2, key3 := k3, keycnt := count, cfbrdy := false, hybrdy := false, lasterr := 0 } }

theorem execAll_append {xs : List Instr} {s t : State} (h : execAll xs s = .next t) (ys : List Instr) :
    execAll (xs ++ ys) s = execAll ys t := by
  induction xs generalizing s with
  | nil => cases h; rfl
  | cons x xs ih =>
    simp only [List.cons_append, execAll] at h ⊢
    split at h
    · exact ih h
    · cases h
    · cases h

/-- Bit `i` of byte lane `j` comes from the byte, every other bit stays. -/
theorem getLsbD_setByteLane (x : Word) (j : Nat) (b : Byte) (i : Nat) (hi : i < 32) :
    (setByteLane x j b).getLsbD i = if 8 * j ≤ i ∧ i < 8 * j + 8 then b.getLsbD (i - 8 * j) else x.getLsbD i := by
  have hff {m : Nat} : (0xFF#32).getLsbD m = decide (m < 8) := by
    rw [BitVec.getLsbD_ofNat, Nat.testBit_two_pow_sub_one (n := 8), ← Bool.decide_and]
    exact decide_eq_decide.mpr (by omega)
  simp only [setByteLane, BitVec.getLsbD_or, BitVec.getLsbD_and, BitVec.getLsbD_not, BitVec.getLsbD_shiftLeft,
    BitVec.getLsbD_setWidth, BitVec.ofNat_eq_ofNat, hff]
  grind

/-- The four bytes of a word, put into lanes 3 to 0, make the word, whatever the register held (R77). -/
theorem setByteLane_wordBytes (x k : Word) :
    setByteLane (setByteLane (setByteLane (setByteLane x 3 (k.extractLsb' 24 8)) 2 (k.extractLsb' 16 8)) 1
      (k.extractLsb' 8 8)) 0 (k.extractLsb' 0 8) = k := by
  apply BitVec.eq_of_getLsbD_eq
  intro i hi
  simp only [getLsbD_setByteLane, hi, BitVec.getLsbD_extractLsb']
  grind

/-- A count of fewer than 31 bytes goes up by one (R77). -/
theorem nextKeyCount_ofNat {j : Nat} (hj : j < 31) : nextKeyCount (BitVec.ofNat 5 j) = BitVec.ofNat 5 (j + 1) := by
  simp only [nextKeyCount, BitVec.toNat_ofNat]
  congr 1
  omega

/-- Four key bytes fill a key word: `f x n` is a state with `x` in the key word that the counts `4i` to `4i + 3` select. -/
theorem load_keyWord {f : Word → BitVec 5 → State} {i : Nat} (hi : i < 4)
    (hstep : ∀ x n b, n.toNat / 4 = i →
      exec (.ldkeyb b) (f x n) = .next (f (setByteLane x (3 - n.toNat % 4) b) (nextKeyCount n))) (x k : Word) :
    execAll ((wordBytes k).map .ldkeyb) (f x (BitVec.ofNat 5 (4 * i))) = .next (f k (BitVec.ofNat 5 (4 * i + 4))) := by
  have hbyte {j : Nat} (hj : j < 4) (y : Word) (b : Byte) (is : List Instr) :
      execAll (.ldkeyb b :: is) (f y (BitVec.ofNat 5 (4 * i + j))) =
        execAll is (f (setByteLane y (3 - j) b) (BitVec.ofNat 5 (4 * i + j + 1))) := by
    have hn : (BitVec.ofNat 5 (4 * i + j)).toNat = 4 * i + j := by rw [BitVec.toNat_ofNat]; omega
    rw [execAll, hstep _ _ _ (by omega), nextKeyCount_ofNat (by omega), hn, Nat.mul_add_mod, Nat.mod_eq_of_lt hj]
  simp only [wordBytes, List.map_cons, List.map_nil]
  have hfirst := hbyte (j := 0) (by decide)
  rw [Nat.add_zero] at hfirst
  rw [hfirst, hbyte (j := 1) (by decide), hbyte (j := 2) (by decide), hbyte (j := 3) (by decide),
    setByteLane_wordBytes, execAll]

/-! The four key words, each at its counts (R77). -/

section
variable (s : State) (k0 k1 k2 k3 k : Word)

theorem load_key0 :
    execAll ((wordBytes k).map .ldkeyb) (withKey s k0 k1 k2 k3 0) = .next (withKey s k k1 k2 k3 4) := by
  refine load_keyWord (f := (withKey s · k1 k2 k3)) (i := 0) (by decide) (fun x n b h => ?_) k0 k
  simp only [exec_eq_finish, withKey, commandEffect, storeKeyByte, h]
  rfl

theorem load_key1 :
    execAll ((wordBytes k).map .ldkeyb) (withKey s k0 k1 k2 k3 4) = .next (withKey s k0 k k2 k3 8) := by
  refine load_keyWord (f := (withKey s k0 · k2 k3)) (i := 1) (by decide) (fun x n b h => ?_) k1 k
  simp only [exec_eq_finish, withKey, commandEffect, storeKeyByte, h]
  rfl

theorem load_key2 :
    execAll ((wordBytes k).map .ldkeyb) (withKey s k0 k1 k2 k3 8) = .next (withKey s k0 k1 k k3 12) := by
  refine load_keyWord (f := (withKey s k0 k1 · k3)) (i := 2) (by decide) (fun x n b h => ?_) k2 k
  simp only [exec_eq_finish, withKey, commandEffect, storeKeyByte, h]
  rfl

theorem load_key3 :
    execAll ((wordBytes k).map .ldkeyb) (withKey s k0 k1 k2 k3 12) = .next (withKey s k0 k1 k2 k 16) := by
  refine load_keyWord (f := (withKey s k0 k1 k2 ·)) (i := 3) (by decide) (fun x n b h => ?_) k3 k
  simp only [exec_eq_finish, withKey, commandEffect, storeKeyByte, h]
  rfl

end

/-- Settles O23: CLRKEY sets KEYCNT to 0, and each four LDKEYB fill the next key word. -/
theorem ldkeyExpansionLoadsTheKey : Obligations.LdkeyExpansionLoadsTheKey := by
  intro k0 k1 k2 k3 s
  have hclear : execAll [.clrkey] s = .next (withKey s 0 0 0 0 0) := rfl
  rw [pseudoLdkey, ← List.singleton_append, execAll_append hclear, List.map_append, List.map_append, List.map_append,
    execAll_append (load_key0 ..), execAll_append (load_key1 ..), execAll_append (load_key2 ..), load_key3]
  rfl

end Sys2Proof.Machine
end

section
/-! The block cipher and its key (spec/40_block_cipher.md): the must-be-zero words of an opcode, CLRKEY, the byte that LDKEYB
writes, the cipher as R71's loop over numbers, and BC_ENC. -/

namespace Sys2Proof.Machine

open Sys2Proof.Reference

/-! ### Must-be-zero bits (R65) -/

/-- R65: a word with the opcode of a row that the row does not select does not decode, so it ends in ILLEGAL_COMMAND. -/
theorem mbzBitsIllegal_of_rowOf {opc : BitVec 8} {r : OpcodeRow} (hrow : rowOf opc = some r) :
    MbzBitsIllegal opc.toNat r.mask r.matchWord := by
  intro v s hopc hne
  have hfield : opcField v = opc := BitVec.eq_of_toNat_eq (by rw [opcField_toNat, hopc])
  have hdec : decode v = .error .mbzBitSet := by simp [decode, hfield, hrow, OpcodeRow.selects, hne]
  exact executeWord_of_error hdec s

/-! ### CLRKEY (R76) -/

/-- Settles O21: CLRKEY has no check, and what it writes does not depend on the state. -/
theorem clrkeyClearsTheKey : Obligations.ClrkeyClearsTheKey :=
  ⟨rfl, mbzBitsIllegal_of_rowOf (opc := 0x10) rfl, fun _ => rfl⟩

/-! ### LDKEYB (R77) -/

/-- `KEYi` for i < 4. -/
def keyWord (e : Engine) : Nat → Word
  | 0 => e.key0
  | 1 => e.key1
  | 2 => e.key2
  | _ => e.key3

/-- The big-endian key holds KEY0 in its top word and KEY3 in its bottom word. -/
theorem getLsbD_keyBytes (e : Engine) {q m : Nat} (hq : q < 4) (hm : m < 32) :
    (keyBytes e).getLsbD (32 * (3 - q) + m) = (keyWord e q).getLsbD m := by
  simp only [keyBytes, keyOf, BitVec.getLsbD_cast, BitVec.getLsbD_append]
  match q with
  | 0 | 1 | 2 | 3 => grind [keyWord]

/-- Key byte i is byte lane `3 - i mod 4` of `KEY(i div 4)`. -/
theorem extractLsb'_keyBytes (e : Engine) {i : Nat} (hi : i < 16) :
    (keyBytes e).extractLsb' (8 * (15 - i)) 8 = (keyWord e (i / 4)).extractLsb' (8 * (3 - i % 4)) 8 := by
  apply BitVec.eq_of_getLsbD_eq
  intro m hm
  have hidx : 8 * (15 - i) + m = 32 * (3 - i / 4) + (8 * (3 - i % 4) + m) := by omega
  rw [BitVec.getLsbD_extractLsb', BitVec.getLsbD_extractLsb', hidx, getLsbD_keyBytes e (by omega) (by omega)]

/-- A byte lane that is written holds the byte, and every other lane is as before. -/
theorem extractLsb'_setByteLane (x : Word) (b : Byte) {j l : Nat} (hl : l < 4) :
    (setByteLane x j b).extractLsb' (8 * l) 8 = if l = j then b else x.extractLsb' (8 * l) 8 := by
  apply BitVec.eq_of_getLsbD_eq
  intro m hm
  rw [BitVec.getLsbD_extractLsb', getLsbD_setByteLane x j b _ (by omega)]
  by_cases hlj : l = j
  · subst hlj
    rw [if_pos (by omega), if_pos rfl, Nat.add_sub_cancel_left, decide_eq_true hm, Bool.true_and]
  · rw [if_neg (by omega), if_neg hlj, BitVec.getLsbD_extractLsb']

/-- R77: the one key word that LDKEYB writes is the one KEYCNT selects, in the lane KEYCNT selects. -/
theorem keyWord_storeKeyByte (b : Byte) (e : Engine) {q : Nat} (hq : q < 4) :
    keyWord (storeKeyByte b e) q =
      if q = e.keycnt.toNat / 4 then setByteLane (keyWord e q) (3 - e.keycnt.toNat % 4) b else keyWord e q := by
  unfold storeKeyByte
  generalize e.keycnt.toNat / 4 = c
  match c with
  | 0 | 1 | 2 | 3 => interval_cases q <;> rfl
  | c + 4 => exact (if_neg (by omega)).symm

/-- R77: LDKEYB writes key byte number KEYCNT and no other; with KEYCNT above 15 it writes none. -/
theorem extractLsb'_keyBytes_storeKeyByte (b : Byte) (e : Engine) {i : Nat} (hi : i < 16) :
    (keyBytes (storeKeyByte b e)).extractLsb' (8 * (15 - i)) 8 =
      if i = e.keycnt.toNat then b else (keyBytes e).extractLsb' (8 * (15 - i)) 8 := by
  rw [extractLsb'_keyBytes _ hi, extractLsb'_keyBytes _ hi, keyWord_storeKeyByte b e (by omega)]
  by_cases hword : i / 4 = e.keycnt.toNat / 4
  · rw [if_pos hword, extractLsb'_setByteLane _ _ (by omega)]
    exact if_congr (by omega) rfl rfl
  · rw [if_neg hword, if_neg (by omega)]

/-- Settles O22: the key words of the next state are those `storeKeyByte` leaves, byte by byte. -/
theorem ldkeybAppendsOneKeyByte : Obligations.LdkeybAppendsOneKeyByte := by
  refine ⟨fun b => wordB_toNat 0x11 b, mbzBitsIllegal_of_rowOf (opc := 0x11) rfl, fun b s => ?_⟩
  refine ⟨_, _, _, _, ?_, fun i hi => extractLsb'_keyBytes_storeKeyByte b s.engine hi⟩
  rw [exec_eq_finish, commandEffect, storeKeyByte_frame]
  rfl

/-! ### The cipher over numbers (R69 to R73) -/

/-- What the rounds carry, as R71's loop over numbers carries it. -/
def RoundState.toNats {w : Nat} (r : RoundState w) : Nat × Nat × Nat := (r.sum.toNat, r.v0.toNat, r.v1.toNat)

section
variable {w : Nat} (p : Config.CipherParams)

theorem roundTerm_toNat (v sum ka kb : BitVec w) :
    (roundTerm p v sum ka kb).toNat =
      halfTerm (2 ^ w) p.shl p.shr v.toNat sum.toNat ka.toNat kb.toNat := by
  simp only [roundTerm, halfTerm, BitVec.toNat_xor, BitVec.toNat_add, BitVec.toNat_shiftLeft, BitVec.toNat_ushiftRight,
    Nat.shiftLeft_eq, Nat.shiftRight_eq_div_pow]

theorem feistelRound_toNats (delta : BitVec w) (k : RoundKeys w) (r : RoundState w) :
    (feistelRound p delta k r).toNats =
      cipherRound (2 ^ w) delta.toNat p.shl p.shr k.k0.toNat k.k1.toNat k.k2.toNat k.k3.toNat r.toNats := by
  simp only [RoundState.toNats, feistelRound, cipherRound, BitVec.toNat_add, roundTerm_toNat]

/-- The last of the rounds can be split off as the first is. -/
theorem feistelRounds_succ (delta : BitVec w) (k : RoundKeys w) (n : Nat) (r : RoundState w) :
    feistelRounds p delta k (n + 1) r = feistelRound p delta k (feistelRounds p delta k n r) := by
  induction n generalizing r with
  | zero => rfl
  | succ n ih => exact ih (feistelRound p delta k r)

theorem feistelRounds_toNats (delta : BitVec w) (k : RoundKeys w) (n : Nat) (r : RoundState w) :
    (feistelRounds p delta k n r).toNats =
      Nat.repeat (cipherRound (2 ^ w) delta.toNat p.shl p.shr k.k0.toNat k.k1.toNat k.k2.toNat k.k3.toNat) n
        r.toNats := by
  induction n with
  | zero => rfl
  | succ n ih => rw [feistelRounds_succ, feistelRound_toNats, ih, Nat.repeat]

/-- R70: the upper half, the lower half, and `sum` at 0. -/
theorem splitBlock_toNats (w : Nat) (x : DWord) :
    (splitBlock w x).toNats = (0, x.toNat / 2 ^ w % 2 ^ w, x.toNat % 2 ^ w) := by
  simp [RoundState.toNats, splitBlock, Nat.shiftRight_eq_div_pow]

/-- R70: a joined block that fits the 64-bit register. -/
theorem joinBlock_toNat (hw : w + w ≤ 64) (r : RoundState w) :
    (joinBlock r).toNat = r.toNats.2.1 * 2 ^ w + r.toNats.2.2 := by
  rw [joinBlock, BitVec.toNat_setWidth_of_le hw, toNat_append_eq_add, RoundState.toNats]

/-- R71: at a width whose blocks fit the register, the bit-vector cipher is the loop over numbers. -/
theorem encryptBlock_toNat (hw : w + w ≤ 64) (delta : BitVec w) (e : Engine) (x : DWord) :
    (encryptBlock p delta (roundKeys w e) x).toNat =
      cipher w delta.toNat p.shl p.shr e.key0.toNat e.key1.toNat e.key2.toNat e.key3.toNat x.toNat := by
  rw [encryptBlock, joinBlock_toNat hw, feistelRounds_toNats, splitBlock_toNats]
  simp only [roundKeys, BitVec.toNat_setWidth, cipher, Config.rounds]

end

/-- Settles O24: each mode runs the loop at its own width. -/
theorem blockCipherRefinesThePseudocode : Obligations.BlockCipherRefinesThePseudocode := by
  intro p e x
  unfold blockCipher
  cases e.cfg.mode with
  | byte => exact encryptBlock_toNat p (by decide) p.delta32 e x
  | toy => exact encryptBlock_toNat p (by decide) p.delta5 e x

/-! ### BC_ENC (R75, R78) -/

/-- KeyOK (R75). -/
theorem keyOk_iff (e : Engine) : keyOk e = true ↔ e.keycnt = 16 := beq_iff_eq

/-- Settles O25, by the two outcomes of the key-length check. -/
theorem bcEncWritesBcoutOnly : Obligations.BcEncWritesBcoutOnly := by
  refine ⟨rfl, mbzBitsIllegal_of_rowOf (opc := 0x12) rfl, fun s hcnt => ?_, fun s hcnt => ?_⟩
  · rw [exec_eq_finish, commandEffect, bcEncEffect, if_pos ((keyOk_iff _).mpr hcnt)]
    rfl
  · rw [exec_eq_finish, commandEffect, bcEncEffect, if_neg (mt (keyOk_iff _).mp hcnt)]
    rfl

end Sys2Proof.Machine
end

section
/-! The CFB unit (spec/41_cfb.md), first part: the IV and CFB_INIT (R79 to R83), one stream bit over numbers (R84), and a
whole chunk (R85). -/

namespace Sys2Proof.Machine

open Sys2Proof.Reference

/-! ### CLRIV and LDIVB (R81, R82) -/

/-- Settles O27: CLRIV has no check, and what it writes does not depend on the state. -/
theorem clrivClearsTheIv : Obligations.ClrivClearsTheIv :=
  ⟨rfl, mbzBitsIllegal_of_rowOf (opc := 0x20) rfl, fun _ => rfl⟩

/-- R82: the byte takes the eight places the shift frees, so IVREG is a number mod 2^64. -/
theorem shiftLeft_or_byte (x : DWord) (b : Byte) :
    (x <<< 8) ||| b.setWidth 64 = BitVec.ofNat 64 ((x.toNat * 2 ^ 8 + b.toNat) % 2 ^ 64) := by
  have hsum : x.toNat * 2 ^ 8 + b.toNat = (x.toNat <<< 8) ||| b.toNat := by
    rw [← Nat.shiftLeft_add_eq_or_of_lt b.isLt, Nat.shiftLeft_eq]
  apply BitVec.eq_of_toNat_eq
  rw [hsum, Nat.or_mod_two_pow]
  simp

/-- Settles O28: LDIVB has no check, and its shift is one over numbers. -/
theorem ldivbShiftsInOneIvByte : Obligations.LdivbShiftsInOneIvByte := by
  refine ⟨fun b => wordB_toNat 0x21 b, mbzBitsIllegal_of_rowOf (opc := 0x21) rfl, fun b s => ?_⟩
  rw [exec_eq_finish, commandEffect, shiftLeft_or_byte]
  rfl

/-! ### CFB_INIT (R79, R80, R83) -/

theorem widthOf_eq_registerWidth (m : Mode) : widthOf m = registerWidth m := by cases m <;> rfl

/-- IVOK (R79). -/
theorem ivOk_eq_ivLengthOk (e : Engine) : ivOk e = ivLengthOk e := by
  unfold ivOk ivLengthOk
  cases e.cfg.mode with
  | byte =>
    rw [if_pos rfl, Bool.eq_iff_iff, beq_iff_eq, decide_eq_true_iff]
    exact BitVec.toNat_inj.symm
  | toy => rfl

/-- IVVAL (R80). -/
theorem ivVal_eq_ofNat (e : Engine) : ivVal e = BitVec.ofNat 64 (e.ivreg.toNat % 2 ^ widthOf e.cfg.mode) := by
  rw [widthOf_eq_registerWidth, ← modRegister_toNat, BitVec.ofNat_toNat, BitVec.setWidth_eq]
  rfl

/-- Settles O29, by the outcomes of the two checks, the key's first. -/
theorem cfbInitStartsASession : Obligations.CfbInitStartsASession := by
  refine ⟨rfl, mbzBitsIllegal_of_rowOf (opc := 0x22) rfl, fun s hcnt hiv => ?_, fun s hcnt => ?_,
    fun s hcnt hiv => ?_⟩ <;>
    rw [exec_eq_finish, commandEffect, cfbInitEffect]
  · rw [if_pos ((keyOk_iff _).mpr hcnt), if_pos ((ivOk_eq_ivLengthOk _).trans hiv), startCfb, ivVal_eq_ofNat]
    rfl
  · rw [if_neg (mt (keyOk_iff _).mp hcnt)]
    rfl
  · rw [if_pos ((keyOk_iff _).mpr hcnt), ivOk_eq_ivLengthOk, hiv]
    rfl

/-! ### One stream bit over numbers (R84) -/

theorem toNat_xor_mod_two (a b : Bool) : (a ^^ b).toNat = (a.toNat + b.toNat) % 2 := by
  cases a <;> cases b <;> rfl

/-- R84: where PHASE names a bit of the register, it is the bit RW - 1 - PHASE of KS. -/
theorem keystreamBit_toNat {m : Mode} {phase : BitVec 7} (h : phase.toNat < registerWidth m) (ks : DWord) :
    (keystreamBit m ks phase).toNat = ks.toNat / 2 ^ (registerWidth m - 1 - phase.toNat) % 2 := by
  rw [keystreamBit, if_pos h, BitVec.getLsbD, Nat.toNat_testBit]

/-- R84: a new cipher call exactly where PHASE = 0. -/
theorem chunkKeystream_eq_ite (p : Config.CipherParams) (e : Engine) :
    chunkKeystream p e = if e.phase.toNat = 0 then blockCipher p e e.sr else e.ks :=
  if_congr BitVec.toNat_inj.symm rfl rfl

theorem feedbackBit_eq_ite (dir : Direction) (b o : Bool) : feedbackBit dir b o = if dir = .enc then o else b := by
  cases dir <;> rfl

/-- Settles O30, field by field: the outgoing bit, then SR and PHASE; KS is the chunk's by definition. -/
theorem cfbBitFollowsThePseudocode : Obligations.CfbBitFollowsThePseudocode := by
  intro p dir b e hfbw hphase ks kbit o fb
  have hks : chunkKeystream p e = ks := chunkKeystream_eq_ite p e
  have hout : (cfbBit p dir b e).1.toNat = o := by
    rw [widthOf_eq_registerWidth] at hphase
    rw [cfbBit_fst, hks, toNat_xor_mod_two, keystreamBit_toNat hphase, ← widthOf_eq_registerWidth]
  have hfb : (feedbackBit dir b (cfbBit p dir b e).1).toNat = fb := by
    rw [feedbackBit_eq_ite, apply_ite Bool.toNat, hout]
  have hsr : (cfbBit p dir b e).2.sr = BitVec.ofNat 64 ((2 * e.sr.toNat + fb) % 2 ^ widthOf e.cfg.mode) := by
    rw [cfbBit_sr, ← hfb, widthOf_eq_registerWidth, ← shiftIn_toNat, BitVec.ofNat_toNat, BitVec.setWidth_eq]
  have hph : (cfbBit p dir b e).2.phase = BitVec.ofNat 7 ((e.phase.toNat + 1) % e.cfg.fbw.toNat) := by
    rw [cfbBit_phase, ← nextPhase_toNat hfbw, BitVec.ofNat_toNat, BitVec.setWidth_eq]
  refine Prod.ext ?_ ?_
  · rw [← hout]
    cases (cfbBit p dir b e).1 <;> rfl
  · rw [cfbBit_snd, cfbBit_ks, hks, hsr, hph]

/-! ### Bits as numbers (R85) -/

theorem bitsNumber_concat (bits : List Bool) (b : Bool) : bitsNumber (bits ++ [b]) = 2 * bitsNumber bits + b.toNat := by
  simp [bitsNumber]

theorem bitsNumber_cons (b : Bool) (bits : List Bool) :
    bitsNumber (b :: bits) = b.toNat * 2 ^ bits.length + bitsNumber bits := by
  induction bits using List.reverseRecOn with
  | nil => simp [bitsNumber]
  | append_singleton bits c ih =>
    rw [← List.cons_append, bitsNumber_concat, bitsNumber_concat, ih, List.length_append, List.length_singleton]
    ring

theorem two_mul_add_xor (a b : Nat) (x y : Bool) :
    (2 * a + x.toNat) ^^^ (2 * b + y.toNat) = 2 * (a ^^^ b) + (x ^^ y).toNat := by
  simpa only [Nat.bit_val] using Nat.xor_bit x a y b

/-- R84: KS is read from its most significant bit down, one bit for each value of PHASE. -/
theorem topBits_succ {m : Mode} {phase : BitVec 7} (h : phase.toNat < registerWidth m) (ks : DWord) :
    ks.toNat / 2 ^ (registerWidth m - (phase.toNat + 1)) =
      2 * (ks.toNat / 2 ^ (registerWidth m - phase.toNat)) + (keystreamBit m ks phase).toNat := by
  have hexp : registerWidth m - phase.toNat = registerWidth m - 1 - phase.toNat + 1 := by omega
  rw [keystreamBit_toNat h, hexp, pow_succ, ← Nat.div_div_eq_div_mul, Nat.add_comm phase.toNat, ← Nat.sub_sub,
    Nat.div_add_mod]

/-- R17, R84: the ciphertext-side bit is the one `cfb_bit` feeds back. -/
theorem ciphertextSide_cons (dir : Direction) (b o : Bool) (xs : List (Direction × Bool)) (os : List Bool) :
    ciphertextSide ((dir, b) :: xs) (o :: os) = feedbackBit dir b o :: ciphertextSide xs os := by
  cases dir <;> rfl

theorem ciphertextSide_length : ∀ (xs : List (Direction × Bool)) (os : List Bool), xs.length = os.length →
    (ciphertextSide xs os).length = xs.length
  | [], _, _ => rfl
  | (dir, b) :: xs, o :: os, h => by
    rw [ciphertextSide_cons, List.length_cons, ciphertextSide_length xs os (Nat.succ.inj h), List.length_cons]

/-- Where all bits go one way, the ciphertext side is what comes out or what goes in. -/
theorem ciphertextSide_map (dir : Direction) : ∀ bits os : List Bool, bits.length = os.length →
    ciphertextSide (bits.map fun b => (dir, b)) os = if dir = .enc then os else bits
  | [], [], _ => by cases dir <;> rfl
  | b :: bits, o :: os, h => by
    rw [List.map_cons, ciphertextSide_cons, ciphertextSide_map dir bits os (Nat.succ.inj h)]
    cases dir <;> rfl

/-! ### SR and PHASE after any stream (R84) -/

section
variable (p : Config.CipherParams)

theorem cfbStream_concat (xs : List (Direction × Bool)) (x : Direction × Bool) (e : Engine) :
    cfbStream p (xs ++ [x]) e =
      ((cfbStream p xs e).1 ++ [(cfbBit p x.1 x.2 (cfbStream p xs e).2).1],
        (cfbBit p x.1 x.2 (cfbStream p xs e).2).2) :=
  cfbStream_append p xs [x] e

theorem cfbStream_cfg (xs : List (Direction × Bool)) (e : Engine) : (cfbStream p xs e).2.cfg = e.cfg := by
  rw [cfbStream_snd]

/-- PHASE counts the bits of a stream mod c. -/
theorem cfbStream_phase_toNat (xs : List (Direction × Bool)) {e : Engine} (h : e.phase.toNat < e.cfg.fbw.toNat) :
    (cfbStream p xs e).2.phase.toNat = (e.phase.toNat + xs.length) % e.cfg.fbw.toNat := by
  induction xs using List.reverseRecOn with
  | nil => exact (Nat.mod_eq_of_lt h).symm
  | append_singleton xs x ih =>
    rw [cfbStream_concat, cfbBit_phase, cfbStream_cfg, nextPhase_toNat (by omega), ih, Nat.mod_add_mod,
      List.length_append]
    rfl

/-- A stream shifts its ciphertext-side bits into SR, whatever the chunks are. -/
theorem cfbStream_sr_modEq (xs : List (Direction × Bool)) (e : Engine) :
    (cfbStream p xs e).2.sr.toNat ≡
      e.sr.toNat * 2 ^ xs.length + bitsNumber (ciphertextSide xs (cfbStream p xs e).1)
      [MOD 2 ^ registerWidth e.cfg.mode] := by
  induction xs generalizing e with
  | nil => simp [ciphertextSide, bitsNumber, Nat.ModEq.refl]
  | cons x xs ih =>
    obtain ⟨dir, b⟩ := x
    rw [cfbStream_cons, ciphertextSide_cons, bitsNumber_cons,
      ciphertextSide_length xs _ (cfbStream_length p xs _).symm, List.length_cons]
    generalize hfb : feedbackBit dir b (cfbBit p dir b e).1 = fb
    have hsr : (cfbBit p dir b e).2.sr.toNat ≡ 2 * e.sr.toNat + fb.toNat [MOD 2 ^ registerWidth e.cfg.mode] := by
      rw [cfbBit_sr, hfb, shiftIn_toNat]
      exact Nat.mod_modEq _ _
    have hsum (t : Nat) : e.sr.toNat * 2 ^ (xs.length + 1) + (fb.toNat * 2 ^ xs.length + t) =
        (2 * e.sr.toNat + fb.toNat) * 2 ^ xs.length + t := by ring
    rw [hsum]
    exact (ih (cfbBit p dir b e).2).trans ((hsr.mul_right _).add_right _)

/-- A stream with a bit in it leaves SR below 2^RW. -/
theorem cfbStream_sr_toNat_lt {xs : List (Direction × Bool)} (hxs : xs ≠ []) (e : Engine) :
    (cfbStream p xs e).2.sr.toNat < 2 ^ registerWidth e.cfg.mode := by
  obtain ⟨ys, x, rfl⟩ := (List.eq_nil_or_concat' xs).resolve_left hxs
  rw [cfbStream_concat, cfbBit_sr, cfbStream_cfg]
  exact modRegister_toNat_lt _ _

/-! ### One chunk (R85) -/

section
variable {e : Engine} (h0 : e.phase.toNat = 0)
include h0

/-- R84: from PHASE = 0, PHASE is the number of bits so far while the chunk lasts. -/
theorem cfbStream_phase_in_chunk {xs : List (Direction × Bool)} (h : xs.length < e.cfg.fbw.toNat) :
    (cfbStream p xs e).2.phase.toNat = xs.length := by
  rw [cfbStream_phase_toNat p xs (by omega), h0, Nat.zero_add, Nat.mod_eq_of_lt h]

/-- R84, R28: every bit of a chunk uses the one cipher call at its start. -/
theorem chunkKeystream_in_chunk {xs : List (Direction × Bool)} (h : xs.length < e.cfg.fbw.toNat) :
    chunkKeystream p (cfbStream p xs e).2 = blockCipher p e e.sr := by
  induction xs using List.reverseRecOn with
  | nil => rw [chunkKeystream_eq_ite, cfbStream_nil, if_pos h0]
  | append_singleton xs x ih =>
    have hphase := cfbStream_phase_in_chunk p h0 h
    rw [List.length_append, List.length_singleton] at h hphase
    rw [chunkKeystream_eq_ite, if_neg (by omega), cfbStream_concat, cfbBit_ks, ih (by omega)]

/-- R85: the first m bits of a chunk are XORed with the m most significant bits of one cipher call. -/
theorem bitsNumber_cfbStream (hw : e.cfg.fbw.toNat ≤ registerWidth e.cfg.mode) {xs : List (Direction × Bool)}
    (h : xs.length ≤ e.cfg.fbw.toNat) :
    bitsNumber (cfbStream p xs e).1 = bitsNumber (xs.map Prod.snd) ^^^
      ((blockCipher p e e.sr).toNat / 2 ^ (registerWidth e.cfg.mode - xs.length)) := by
  induction xs using List.reverseRecOn with
  | nil => simp [bitsNumber, Nat.div_eq_of_lt (blockCipher_toNat_lt p e e.sr)]
  | append_singleton xs x ih =>
    rw [List.length_append, List.length_singleton] at h ⊢
    have hphase := cfbStream_phase_in_chunk p h0 (xs := xs) (by omega)
    have htop := topBits_succ (m := e.cfg.mode) (phase := (cfbStream p xs e).2.phase) (by omega) (blockCipher p e e.sr)
    rw [hphase] at htop
    rw [cfbStream_concat, List.map_append, List.map_singleton, bitsNumber_concat, bitsNumber_concat, cfbBit_fst,
      cfbStream_cfg, chunkKeystream_in_chunk p h0 (by omega), ih (by omega), htop, two_mul_add_xor]

end

end

/-- Settles O33: the output from `bitsNumber_cfbStream`, SR from the stream's shift, PHASE from its count of bits. -/
theorem chunkIsOneCipherCall : Obligations.ChunkIsOneCipherCall := by
  intro p dir bits e hpos hw h0 hlen r
  rw [widthOf_eq_registerWidth] at hw ⊢
  have h0' : e.phase.toNat = 0 := congrArg BitVec.toNat h0
  obtain ⟨xs, hxs⟩ : ∃ xs, xs = bits.map fun b => (dir, b) := ⟨_, rfl⟩
  have hr : r = cfbStream p xs e := by rw [hxs]; rfl
  have hxlen : xs.length = e.cfg.fbw.toNat := by rw [hxs, List.length_map, hlen]
  have hside : ciphertextSide xs r.1 = if dir = .enc then r.1 else bits := by
    rw [hxs, ciphertextSide_map dir bits _ (cfbBits_length p dir bits e).symm]
  rw [← hside, ← hxlen, hr]
  refine ⟨?_, ?_, ?_⟩
  · rw [bitsNumber_cfbStream p h0' hw hxlen.le, hxs, List.map_map]
    congr
    exact List.map_id bits
  · have hne : xs ≠ [] := List.length_pos_iff.mp (by omega)
    rw [← cfbStream_sr_modEq, Nat.mod_eq_of_lt (cfbStream_sr_toNat_lt p hne e)]
  · apply BitVec.eq_of_toNat_eq
    rw [cfbStream_phase_toNat p xs (by omega), h0', hxlen, Nat.zero_add, Nat.mod_self]
    rfl

end Sys2Proof.Machine
end

section
/-! The CFB unit (spec/41_cfb.md), second part: what the data commands do to their bits (R86, R87) and how much they put out
(R92). -/

namespace Sys2Proof.Machine

open Sys2Proof.Safety Sys2Proof.Reference

/-! ### The loop over data bits (R86, R87) -/

/-- The first bit of a packed list stands above the others. -/
theorem packBits_cons (n : Nat) (b : Bool) (bits : List Bool) :
    packBits n (b :: bits) = (if b then 1#n <<< bits.length else 0#n) ||| packBits n bits := by
  apply BitVec.eq_of_getLsbD_eq
  intro j hj
  have hfirst : (if b then 1#n <<< bits.length else 0#n).getLsbD j = (b && decide (j = bits.length)) := by
    cases b with
    | false => simp
    | true =>
      rw [if_pos rfl, ← BitVec.twoPow_eq, BitVec.getLsbD_twoPow, Bool.true_and, Bool.eq_iff_iff]
      simp only [Bool.and_eq_true, decide_eq_true_iff]
      omega
  rw [BitVec.getLsbD_or, hfirst, getLsbD_packBits n _ j hj, getLsbD_packBits n _ j hj, List.length_cons]
  rcases lt_trichotomy j bits.length with h | h | h
  · have hpos : bits.length + 1 - 1 - j = bits.length - 1 - j + 1 := by omega
    rw [if_pos (by omega), if_pos h, hpos, List.getD_cons_succ, decide_eq_false h.ne, Bool.and_false, Bool.false_or]
  · simp [h]
  · simp [h.ne', h.not_gt, Nat.not_lt.mpr (Nat.succ_le_of_lt h)]

section
variable (p : Config.CipherParams) (dir : Direction) (d : Byte)

theorem cfbBits_dataBits_succ (n : Nat) (e : Engine) :
    cfbBits p dir (dataBits (n + 1) d) e =
      ((cfbBit p dir (d.getLsbD n) e).1 :: (cfbBits p dir (dataBits n d) (cfbBit p dir (d.getLsbD n) e).2).1,
        (cfbBits p dir (dataBits n d) (cfbBit p dir (d.getLsbD n) e).2).2) := rfl

theorem dataLoop_succ (n : Nat) (out : Byte) (e : Engine) :
    dataLoop p dir d (n + 1) (out, e) =
      dataLoop p dir d n (out ||| (if (cfbBit p dir (d.getLsbD n) e).1 then 1#8 <<< n else 0#8),
        (cfbBit p dir (d.getLsbD n) e).2) := by
  rw [dataLoop]
  cases hbit : cfbBit p dir (d.getLsbD n) e with
  | mk o e' => cases o <;> simp

theorem dataOut_length (n : Nat) (e : Engine) : (cfbBits p dir (dataBits n d) e).1.length = n := by
  rw [cfbBits_length, dataBits_length]

/-- R86: writing `out[i]` bit by bit is packing what comes out. -/
theorem dataLoop_eq (n : Nat) (out : Byte) (e : Engine) :
    dataLoop p dir d n (out, e) =
      (out ||| packBits 8 (cfbBits p dir (dataBits n d) e).1, (cfbBits p dir (dataBits n d) e).2) := by
  induction n generalizing out e with
  | zero => simp [dataLoop, dataBits, cfbBits, packBits]
  | succ n ih => rw [dataLoop_succ, ih, cfbBits_dataBits_succ, packBits_cons, dataOut_length, BitVec.or_assoc]

end

/-! ### One data command (R86, R87) -/

/-- The state after a data command that succeeded: SR, KS and PHASE as its bits leave them, its output in DOUT if it has
any, and LASTERR 0. -/
def afterData (dir : Direction) (n : BitVec 4) (d : Byte) (s : State) : State :=
  let r := cfbBits s.params dir (dataBits n.toNat d) s.engine
  { s with engine := { s.engine with
    sr := r.2.sr, ks := r.2.ks, phase := r.2.phase
    dout := if n.toNat = 0 then s.engine.dout else packBits 8 r.1
    lasterr := 0 } }

/-- R86, R87 in the terms of the loop. -/
theorem afterData_eq_dataLoop (dir : Direction) (n : BitVec 4) (d : Byte) (s : State) :
    afterData dir n d s =
      let r := dataLoop s.params dir d n.toNat (0, s.engine)
      { s with engine := { s.engine with
        sr := r.2.sr, ks := r.2.ks, phase := r.2.phase
        dout := if n.toNat = 0 then s.engine.dout else r.1
        lasterr := 0 } } := by
  rw [dataLoop_eq]
  simp only [BitVec.ofNat_eq_ofNat, BitVec.zero_or]
  rfl

theorem not_succeeds_of_failed {i : Instr} {c : Byte} {s t : State} (hc : c ≠ 0) (h : exec i s = .next (failed c s)) :
    ¬ Succeeds i s t := by
  rintro ⟨hexec, hok⟩
  cases h.symm.trans hexec
  exact hc hok

section
variable (dir : Direction) {n : BitVec 4} (d : Byte) {s : State}

/-- R86, R87: at most 8 bits, in a session. -/
theorem exec_cfbCommand_of_ready (hn : n.toNat ≤ 8) (hr : s.engine.cfbrdy = true) :
    exec (cfbCommand dir n d) s = .next (afterData dir n d s) := by
  have hn0 : n = 0 ↔ n.toNat = 0 := BitVec.toNat_inj.symm
  rw [exec_cfbCommand]
  rcases cfbData_cases s.params dir n d s.engine with ⟨h, -⟩ | ⟨-, h, -⟩ | ⟨-, -, heff⟩
  · omega
  · exact absurd (hr.symm.trans h) (by decide)
  · rw [heff]
    simp only [hn0]
    rfl

theorem exec_cfbCommand_of_not_ready (hn : n.toNat ≤ 8) (hr : s.engine.cfbrdy = false) :
    exec (cfbCommand dir n d) s = .next (failed 0x04 s) := by
  have hl : legalBitCount n = true := decide_eq_true hn
  rw [exec_cfbCommand, cfbData, hl, hr]
  rfl

theorem exec_cfbCommand_of_illegal (hn : 8 < n.toNat) : exec (cfbCommand dir n d) s = .next (failed 0x01 s) := by
  have hl : legalBitCount n = false := decide_eq_false (by omega)
  rw [exec_cfbCommand, cfbData, hl]
  rfl

end

/-- A data command that succeeds has a legal count and a session. -/
theorem eq_afterData_of_succeeds {dir : Direction} {n : BitVec 4} {d : Byte} {s t : State}
    (h : Succeeds (cfbCommand dir n d) s t) :
    n.toNat ≤ 8 ∧ s.engine.cfbrdy = true ∧ t = afterData dir n d s := by
  rcases Nat.lt_or_ge 8 n.toNat with hn | hn
  · exact absurd h (not_succeeds_of_failed (by decide) (exec_cfbCommand_of_illegal dir d hn))
  · cases hr : s.engine.cfbrdy with
    | false => exact absurd h (not_succeeds_of_failed (by decide) (exec_cfbCommand_of_not_ready dir d hn hr))
    | true =>
      have hexec := h.1
      rw [exec_cfbCommand_of_ready dir d hn hr] at hexec
      cases hexec
      exact ⟨hn, rfl, rfl⟩

/-- Settles O31: the three outcomes of a data command, encrypting. -/
theorem cfbEncRunsItsBits : Obligations.CfbEncRunsItsBits := fun n d s =>
  ⟨fun hn hr => (exec_cfbCommand_of_ready .enc d hn hr).trans (congrArg _ (afterData_eq_dataLoop .enc n d s)),
    exec_cfbCommand_of_not_ready .enc d, exec_cfbCommand_of_illegal .enc d⟩

/-- Settles O32: the three outcomes of a data command, decrypting. -/
theorem cfbDecRunsItsBits : Obligations.CfbDecRunsItsBits := fun n d s =>
  ⟨fun hn hr => (exec_cfbCommand_of_ready .dec d hn hr).trans (congrArg _ (afterData_eq_dataLoop .dec n d s)),
    exec_cfbCommand_of_not_ready .dec d, exec_cfbCommand_of_illegal .dec d⟩

/-! ### The length of the output (R92) -/

/-- As many bits as were packed, and zeros above them. -/
theorem packBits_toNat_lt (n : Nat) (bits : List Bool) : (packBits n bits).toNat < 2 ^ bits.length := by
  apply Nat.lt_pow_two_of_testBit
  intro j hj
  by_cases hjn : j < n
  · exact (getLsbD_packBits n bits j hjn).trans (if_neg (by omega))
  · exact BitVec.getLsbD_of_ge _ _ (by omega)

theorem hostMessage_cons {command : Byte → Instr} {b : Byte} {s t : State} (h : Succeeds (command b) s t) (m : List Byte) :
    hostMessage command (b :: m) s = (hostMessage command m t).map fun r => (t.engine.dout :: r.1, r.2) := by
  obtain ⟨hexec, hok⟩ := h
  simp only [hostMessage, hexec, hok, okCode_eq_zero, if_true]
  cases hostMessage command m t <;> rfl

/-- R92: a byte message in a session has one output byte for each command. -/
theorem hostMessage_cfbCommand_length (dir : Direction) (m : List Byte) (s : State) (hr : s.engine.cfbrdy = true) :
    ∃ out t, hostMessage (cfbCommand dir 8) m s = some (out, t) ∧ out.length = m.length := by
  induction m generalizing s with
  | nil => exact ⟨[], s, rfl, rfl⟩
  | cons b m ih =>
    have hb : Succeeds (cfbCommand dir 8 b) s (afterData dir 8 b s) :=
      ⟨exec_cfbCommand_of_ready dir b (by decide) hr, rfl⟩
    obtain ⟨out, t, hm, hlen⟩ := ih (afterData dir 8 b s) hr
    rw [hostMessage_cons hb, hm]
    exact ⟨_, t, rfl, by simp [hlen]⟩

/-- Settles O37: DOUT packs the N bits that come out, and a byte message never fails. -/
theorem outputHasTheLengthOfTheInput : Obligations.OutputHasTheLengthOfTheInput := by
  refine ⟨fun dir n d s t hn0 h => ?_, hostMessage_cfbCommand_length⟩
  obtain ⟨-, -, rfl⟩ := eq_afterData_of_succeeds h
  have hdout : (afterData dir n d s).engine.dout = packBits 8 (cfbBits s.params dir (dataBits n.toNat d) s.engine).1 :=
    if_neg fun h => hn0 (BitVec.eq_of_toNat_eq h)
  have hlt := packBits_toNat_lt 8 (cfbBits s.params dir (dataBits n.toNat d) s.engine).1
  rwa [dataOut_length, ← hdout] at hlt

end Sys2Proof.Machine
end

section
/-! The CFB unit (spec/41_cfb.md), third part: what a stream depends on (R91), and sessions of data commands, however their
bits are grouped (R89) and with the receiver's half (R90). -/

namespace Sys2Proof.Machine

open Sys2Proof.Safety Sys2Proof.Reference

/-! ### What a bit depends on (R84, R91) -/

/-- Two engines that the CFB unit cannot tell apart: the same mode, c, key, SR, KS and PHASE. -/
structure CfbAlike (e e' : Engine) : Prop where
  mode : e.cfg.mode = e'.cfg.mode
  fbw : e.cfg.fbw = e'.cfg.fbw
  key : SameKey e e'
  stream : SameStream e e'

theorem CfbAlike.refl (e : Engine) : CfbAlike e e := ⟨rfl, rfl, ⟨rfl, rfl, rfl, rfl⟩, rfl, rfl, rfl⟩

theorem CfbAlike.symm {a b : Engine} (h : CfbAlike a b) : CfbAlike b a := by
  obtain ⟨hm, hf, ⟨h0, h1, h2, h3⟩, hsr, hks, hphase⟩ := h
  exact ⟨hm.symm, hf.symm, ⟨h0.symm, h1.symm, h2.symm, h3.symm⟩, hsr.symm, hks.symm, hphase.symm⟩

theorem CfbAlike.trans {a b c : Engine} (h : CfbAlike a b) (h' : CfbAlike b c) : CfbAlike a c := by
  obtain ⟨hm, hf, ⟨h0, h1, h2, h3⟩, hsr, hks, hphase⟩ := h
  obtain ⟨hm', hf', ⟨h0', h1', h2', h3'⟩, hsr', hks', hphase'⟩ := h'
  exact ⟨hm.trans hm', hf.trans hf', ⟨h0.trans h0', h1.trans h1', h2.trans h2', h3.trans h3'⟩, hsr.trans hsr',
    hks.trans hks', hphase.trans hphase'⟩

/-- The keystream bit a stream bit meets (R84). -/
def nextKeystreamBit (p : Config.CipherParams) (e : Engine) : Bool :=
  keystreamBit e.cfg.mode (chunkKeystream p e) e.phase

section
variable {p : Config.CipherParams} {e e' : Engine}

theorem cfbBit_fst_eq_xor (dir : Direction) (b : Bool) (e : Engine) :
    (cfbBit p dir b e).1 = (b ^^ nextKeystreamBit p e) := rfl

theorem CfbAlike.chunkKeystream_eq (h : CfbAlike e e') : chunkKeystream p e = chunkKeystream p e' := by
  obtain ⟨hm, -, ⟨h0, h1, h2, h3⟩, hsr, hks, hphase⟩ := h
  exact chunkKeystream_congr p hm h0 h1 h2 h3 hsr hks hphase

theorem CfbAlike.nextKeystreamBit_eq (h : CfbAlike e e') : nextKeystreamBit p e = nextKeystreamBit p e' := by
  obtain ⟨-, -, hphase⟩ := h.stream
  simp only [nextKeystreamBit, h.mode, h.chunkKeystream_eq, hphase]

/-- Of the bit itself only the ciphertext side reaches the registers. -/
theorem CfbAlike.bit_snd (h : CfbAlike e e') {dir dir' : Direction} {b b' : Bool}
    (hfb : feedbackBit dir b (cfbBit p dir b e).1 = feedbackBit dir' b' (cfbBit p dir' b' e').1) :
    CfbAlike (cfbBit p dir b e).2 (cfbBit p dir' b' e').2 := by
  obtain ⟨hsr, -, hphase⟩ := h.stream
  refine ⟨h.mode, h.fbw, h.key, ?_, ?_, ?_⟩
  · rw [cfbBit_sr, cfbBit_sr, h.mode, hsr, hfb]
  · rw [cfbBit_ks, cfbBit_ks, h.chunkKeystream_eq]
  · rw [cfbBit_phase, cfbBit_phase, h.fbw, hphase]

/-- R91: streams with the same ciphertext side leave engines that are alike. -/
theorem CfbAlike.stream_snd_of_ciphertextSide {xs ys : List (Direction × Bool)} (h : CfbAlike e e')
    (hside : ciphertextSide xs (cfbStream p xs e).1 = ciphertextSide ys (cfbStream p ys e').1) :
    CfbAlike (cfbStream p xs e).2 (cfbStream p ys e').2 := by
  induction xs generalizing ys e e' with
  | nil =>
    have hlen := congrArg List.length hside
    rw [ciphertextSide_length _ _ (cfbStream_length p ys e').symm] at hlen
    rw [List.length_eq_zero_iff.mp hlen.symm]
    exact h
  | cons x xs ih =>
    obtain ⟨dir, b⟩ := x
    cases ys with
    | nil => simp [ciphertextSide_cons, ciphertextSide] at hside
    | cons y ys =>
      obtain ⟨dir', b'⟩ := y
      rw [cfbStream_cons, cfbStream_cons, ciphertextSide_cons, ciphertextSide_cons, List.cons.injEq] at hside
      rw [cfbStream_cons, cfbStream_cons]
      exact ih (h.bit_snd hside.1) hside.2

/-- Alike engines put out the same bits for the same stream. -/
theorem CfbAlike.stream_fst (h : CfbAlike e e') (xs : List (Direction × Bool)) :
    (cfbStream p xs e).1 = (cfbStream p xs e').1 := by
  induction xs generalizing e e' with
  | nil => rfl
  | cons x xs ih =>
    obtain ⟨dir, b⟩ := x
    have hbit : (cfbBit p dir b e).1 = (cfbBit p dir b e').1 := by
      rw [cfbBit_fst_eq_xor, cfbBit_fst_eq_xor, h.nextKeystreamBit_eq]
    rw [cfbStream_cons, cfbStream_cons, hbit, ih (h.bit_snd (by rw [hbit]))]

theorem CfbAlike.stream_snd (h : CfbAlike e e') (xs : List (Direction × Bool)) :
    CfbAlike (cfbStream p xs e).2 (cfbStream p xs e').2 :=
  h.stream_snd_of_ciphertextSide (by rw [h.stream_fst])

/-- R90: decrypting what came out gives back what went in. -/
theorem CfbAlike.cfbBits_dec_enc (h : CfbAlike e e') (bits : List Bool) :
    (cfbBits p .dec (cfbBits p .enc bits e).1 e').1 = bits := by
  induction bits generalizing e e' with
  | nil => rfl
  | cons b bits ih =>
    have hnext : CfbAlike (cfbBit p .enc b e).2 (cfbBit p .dec (cfbBit p .enc b e).1 e').2 :=
      h.bit_snd rfl
    have hbit : (cfbBit p .dec (cfbBit p .enc b e).1 e').1 = b := by
      rw [cfbBit_fst_eq_xor, cfbBit_fst_eq_xor, h.nextKeystreamBit_eq, Bool.xor_assoc, Bool.xor_self, Bool.xor_false]
    exact congrArg₂ List.cons hbit (ih hnext)

/-- R90: the two halves feed back the same bits. -/
theorem CfbAlike.cfbBits_enc_dec (h : CfbAlike e e') (bits : List Bool) :
    CfbAlike (cfbBits p .enc bits e).2 (cfbBits p .dec (cfbBits p .enc bits e).1 e').2 := by
  refine h.stream_snd_of_ciphertextSide ?_
  have henc := ciphertextSide_map .enc bits _ (cfbBits_length p .enc bits e).symm
  have hdec := ciphertextSide_map .dec _ _ (cfbBits_length p .dec (cfbBits p .enc bits e).1 e').symm
  exact henc.trans hdec.symm

end

/-- Settles O36: streams with the same ciphertext side leave engines that are alike, and alike engines have the same next
keystream bit. -/
theorem keystreamDependsOnCiphertextOnly : Obligations.KeystreamDependsOnCiphertextOnly := by
  intro p xs ys e e' hmode hfbw hkey hstream hside dir dir' b b'
  have halike : CfbAlike (cfbStream p xs e).2 (cfbStream p ys e').2 :=
    CfbAlike.stream_snd_of_ciphertextSide ⟨hmode, hfbw, hkey, hstream⟩ hside
  rw [cfbBit_fst_eq_xor, cfbBit_fst_eq_xor, ← Bool.xor_assoc, ← Bool.xor_assoc, Bool.xor_self, Bool.xor_self,
    halike.nextKeystreamBit_eq]

/-! ### Sessions of data commands (R89) -/

/-- A data command with a legal count of bits (R60). -/
def LegalData (i : Instr) : Prop := ∃ dir n d, i = cfbCommand dir n d ∧ n.toNat ≤ 8

theorem streamBits_cfbCommand (dir : Direction) (n : BitVec 4) (d : Byte) :
    streamBits (cfbCommand dir n d) = (dataBits n.toNat d).map fun b => (dir, b) := by
  cases dir <;> rfl

theorem cfbSession_cons {i : Instr} {s t : State} (h : Succeeds i s t) (is : List Instr) :
    cfbSession (i :: is) s =
      (cfbSession is t).map fun r => (dataBits (streamLength i) t.engine.dout ++ r.1, r.2) := by
  obtain ⟨hexec, hok⟩ := h
  simp only [cfbSession, hexec, hok, okCode_eq_zero, if_true]
  cases cfbSession is t <;> rfl

/-- A session that runs to its end had a success at each command. -/
theorem succeeds_of_cfbSession_cons {i : Instr} {is : List Instr} {s : State} {r : List Bool × State}
    (h : cfbSession (i :: is) s = some r) : ∃ t r', Succeeds i s t ∧ cfbSession is t = some r' := by
  rw [cfbSession] at h
  split at h
  · rename_i t hexec
    split at h
    · rename_i hok
      cases hrest : cfbSession is t with
      | none => simp [hrest] at h
      | some r' => exact ⟨t, r', ⟨hexec, hok⟩, hrest⟩
    · cases h
  · cases h
  · cases h

/-- The N bits the host reads from DOUT are the bits that came out (R92). -/
theorem dataBits_afterData_dout (dir : Direction) {n : BitVec 4} (hn : n.toNat ≤ 8) (d : Byte) (s : State) :
    dataBits n.toNat (afterData dir n d s).engine.dout = (cfbBits s.params dir (dataBits n.toNat d) s.engine).1 := by
  have hlen := dataOut_length s.params dir d n.toNat s.engine
  by_cases h0 : n.toNat = 0
  · rw [h0] at hlen ⊢
    exact (List.length_eq_zero_iff.mp hlen).symm
  · have hpack := dataBits_packBits (hlen.trans_le hn)
    rw [hlen] at hpack
    rw [← hpack]
    exact congrArg _ (if_neg h0)

theorem afterData_alike (dir : Direction) (n : BitVec 4) (d : Byte) (s : State) :
    CfbAlike (cfbBits s.params dir (dataBits n.toNat d) s.engine).2 (afterData dir n d s).engine := by
  rw [cfbBits, cfbStream_snd]
  exact ⟨rfl, rfl, ⟨rfl, rfl, rfl, rfl⟩, rfl, rfl, rfl⟩

/-- R89: a session of legal commands runs to its end, and is one stream of its commands' bits. -/
theorem cfbSession_eq_stream {is : List Instr} (hlegal : ∀ i ∈ is, LegalData i) {s : State}
    (hr : s.engine.cfbrdy = true) :
    ∃ t, cfbSession is s = some ((cfbStream s.params (is.flatMap streamBits) s.engine).1, t) ∧
      CfbAlike (cfbStream s.params (is.flatMap streamBits) s.engine).2 t.engine := by
  induction is generalizing s with
  | nil => exact ⟨s, rfl, .refl s.engine⟩
  | cons i is ih =>
    obtain ⟨⟨dir, n, d, rfl, hn⟩, hrest⟩ := List.forall_mem_cons.mp hlegal
    have hsucc : Succeeds (cfbCommand dir n d) s (afterData dir n d s) := ⟨exec_cfbCommand_of_ready dir d hn hr, rfl⟩
    have hlen : streamLength (cfbCommand dir n d) = n.toNat := by
      rw [streamLength, streamBits_cfbCommand, List.length_map, dataBits_length]
    have hstart := afterData_alike dir n d s
    obtain ⟨t, hrun, hend⟩ := ih hrest (s := afterData dir n d s) hr
    rw [List.flatMap_cons, streamBits_cfbCommand, cfbStream_append]
    refine ⟨t, ?_, (hstart.stream_snd _).trans hend⟩
    rw [cfbSession_cons hsucc, hrun, hlen, dataBits_afterData_dout dir hn, ← hstart.stream_fst]
    rfl

/-- Settles O34: both sessions are the one stream of their bits. -/
theorem groupingOfBitsDoesNotMatter : Obligations.GroupingOfBitsDoesNotMatter := by
  intro cs cs' s hr hlegal hbits
  obtain ⟨hcs, hcs'⟩ := List.forall_mem_append.mp hlegal
  obtain ⟨t, hrun, halike⟩ := cfbSession_eq_stream hcs hr
  obtain ⟨t', hrun', halike'⟩ := cfbSession_eq_stream hcs' hr
  rw [← hbits] at hrun' halike'
  exact ⟨_, t, t', hrun, hrun', (halike.symm.trans halike').stream⟩

/-! ### The round trip (R90) -/

/-- A command that succeeds had an effect, and its end cleared LASTERR. -/
theorem effect_of_succeeds {i : Instr} {s t : State} (h : Succeeds i s t) :
    ∃ e', commandEffect s.params i s.engine = .ok e' ∧ t = { s with engine := succeed e' } := by
  obtain ⟨hexec, hok⟩ := h
  rw [exec_next_iff] at hexec
  subst hexec
  obtain ⟨e', he⟩ := (conclude_lasterr_eq_zero_iff _ _).mp hok
  exact ⟨e', he, by rw [he, conclude_ok]⟩

/-- R83: what CFB_INIT has done where it succeeds. -/
theorem eq_of_succeeds_cfbInit {s u : State} (h : Succeeds .cfbInit s u) :
    u = { s with engine := succeed { startCfb s.engine with cfbrdy := true, hybrdy := false } } := by
  obtain ⟨e', he, rfl⟩ := effect_of_succeeds h
  obtain ⟨-, -, rfl⟩ := cfbInitEffect_ok he
  rfl

theorem ready_of_succeeds_cfbInit {s u : State} (h : Succeeds .cfbInit s u) :
    u.params = s.params ∧ u.engine.cfbrdy = true := by
  rw [eq_of_succeeds_cfbInit h]
  exact ⟨rfl, rfl⟩

/-- R83: sessions started with the same mode, c, key and IVVAL are alike. -/
theorem cfbInit_alike {s s' u u' : State} (h : Succeeds .cfbInit s u) (h' : Succeeds .cfbInit s' u')
    (hmode : s.engine.cfg.mode = s'.engine.cfg.mode) (hfbw : s.engine.cfg.fbw = s'.engine.cfg.fbw)
    (hkey : SameKey s.engine s'.engine) (hiv : ivVal s.engine = ivVal s'.engine) : CfbAlike u.engine u'.engine := by
  rw [eq_of_succeeds_cfbInit h, eq_of_succeeds_cfbInit h']
  exact ⟨hmode, hfbw, hkey, hiv, rfl, rfl⟩

/-- Encrypting commands that ran to the end had legal counts. -/
theorem legal_of_cfbSession {is : List Instr} (henc : ∀ i ∈ is, ∃ n d, i = .cfbEnc n d) {s : State}
    {r : List Bool × State} (h : cfbSession is s = some r) : ∀ i ∈ is, LegalData i := by
  induction is generalizing s r with
  | nil => simp
  | cons i is ih =>
    obtain ⟨⟨n, d, rfl⟩, hrest⟩ := List.forall_mem_cons.mp henc
    obtain ⟨t, r', hsucc, hrun⟩ := succeeds_of_cfbSession_cons h
    obtain ⟨hn, -, -⟩ := eq_afterData_of_succeeds (dir := .enc) hsucc
    exact List.forall_mem_cons.mpr ⟨⟨.enc, n, d, rfl, hn⟩, ih hrest hrun⟩

theorem exists_bits_of_enc {is : List Instr} (henc : ∀ i ∈ is, ∃ n d, i = .cfbEnc n d) :
    ∃ bits : List Bool, is.flatMap streamBits = bits.map fun b => (Direction.enc, b) := by
  induction is with
  | nil => exact ⟨[], rfl⟩
  | cons i is ih =>
    obtain ⟨⟨n, d, rfl⟩, hrest⟩ := List.forall_mem_cons.mp henc
    obtain ⟨bits, hbits⟩ := ih hrest
    exact ⟨dataBits n.toNat d ++ bits, by rw [List.flatMap_cons, hbits, streamBits, List.map_append]⟩

/-- Settles O35: both sessions are streams from engines that are alike, and the second stream inverts the first. -/
theorem cfbDecryptionInvertsEncryption : Obligations.CfbDecryptionInvertsEncryption := by
  intro s s' u u' t cs cs' out hu hu' hparams hmode hfbw hkey hiv henc hrun hdec hbits'
  have hstart := cfbInit_alike hu hu' hmode hfbw hkey hiv
  obtain ⟨hp, hr⟩ := ready_of_succeeds_cfbInit hu
  obtain ⟨hp', hr'⟩ := ready_of_succeeds_cfbInit hu'
  have hpu : u'.params = u.params := by rw [hp, hp', hparams]
  have hlegal' : ∀ i ∈ cs', LegalData i := fun i hi => by
    obtain ⟨n, d, rfl, hn⟩ := hdec i hi
    exact ⟨.dec, n, d, rfl, hn⟩
  obtain ⟨bits, hbits⟩ := exists_bits_of_enc henc
  obtain ⟨t₁, hrun₁, hend⟩ := cfbSession_eq_stream (legal_of_cfbSession henc hrun) hr
  obtain ⟨t', hrun', hend'⟩ := cfbSession_eq_stream hlegal' hr'
  obtain ⟨rfl, rfl⟩ := Prod.mk.inj (Option.some.inj (hrun.symm.trans hrun₁))
  have hplain : (cs.flatMap streamBits).map Prod.snd = bits := by
    rw [hbits, List.map_map]
    exact List.map_id bits
  rw [hbits] at hend hbits'
  rw [hpu, hbits'] at hrun' hend'
  refine ⟨t', ?_, ((hend.symm.trans (hstart.cfbBits_enc_dec bits)).trans hend').stream⟩
  rw [hrun', hplain]
  exact congrArg (fun o => some (o, t')) (hstart.cfbBits_dec_enc bits)

end Sys2Proof.Machine
end

section
/-! The additive keystream generator (spec/42_additive.md), first part: the keystream stays on its course (R94 to R96),
whatever a step does. -/

namespace Sys2Proof.Machine

open Sys2Proof.Reference

variable {p : Config.CipherParams} {e e' : Engine}

/-! ### The recurrence (R94, R96) -/

theorem nextTerm_eq_recurrence (rule : AkRule) (a b : Nat) : nextTerm rule a b = recurrence rule a b := by
  cases rule <;> rfl

/-- R94: a term is a residue, so KB holds all of it. -/
theorem akAdvance_kb_toNat (e : Engine) :
    (akAdvance e).kb.toNat = nextTerm e.cfg.akrule e.kb.toNat e.ka.toNat := by
  have hlt := recurrence_lt e.cfg.akrule e.kb.toNat e.ka.toNat
  rw [akAdvance_kb, nextTerm_eq_recurrence, BitVec.toNat_ofNat, Nat.mod_eq_of_lt (by omega)]

theorem keystream_add_two (rule : AkRule) (k0 k1 j : Nat) :
    keystream rule k0 k1 (j + 2) = nextTerm rule (keystream rule k0 k1 (j + 1)) (keystream rule k0 k1 j) := rfl

/-! ### What keeps a generator on its course -/

/-- Nothing is asked of a generator that is not ready. -/
theorem keystreamOnCourse_of_not_ready (h : e.akrdy = false) : KeystreamOnCourse e :=
  fun hr => absurd (h.symm.trans hr) (by decide)

/-- R98, R106: a keystream at its start stands at position 0. -/
theorem keystreamOnCourse_of_start (hka : e.ka = e.ak0) (hkb : e.kb = e.ak1) (hakj : e.akj = 0) : KeystreamOnCourse e :=
  fun _ => ⟨0, hakj, congrArg BitVec.toNat hka, congrArg BitVec.toNat hkb⟩

/-- R95: an advance goes from position j to position j + 1. -/
theorem akAdvance_keeps_onCourse (h : KeystreamOnCourse e) : KeystreamOnCourse (akAdvance e) := by
  intro hr
  obtain ⟨j, hakj, hka, hkb⟩ := h hr
  refine ⟨j + 1, ?_, hkb, ?_⟩
  · rw [akAdvance_akj, hakj, BitVec.ofNat_add]
    rfl
  · rw [akAdvance_kb_toNat, hka, hkb]
    rfl

/-- R97: what a symbol leaves in KA, KB and AKJ, with any DOUT and POS. -/
theorem keystreamOnCourse_of_akSymbol {dir : Direction} {b o : Byte} (hs : akSymbol dir b e = .ok (o, e')) (q : Word)
    (h : KeystreamOnCourse e) :
    KeystreamOnCourse { e with ka := e'.ka, kb := e'.kb, akj := e'.akj, dout := o, pos := q } := by
  rcases akSymbol_cases dir b e with ⟨-, -, hk⟩ | ⟨-, -, hk⟩ | ⟨_, _, -, -, -, hk⟩ <;> rw [hk] at hs <;> cases hs
  · exact h
  · exact akAdvance_keeps_onCourse h

/-- R96: a command restarts the keystream, ends its session, puts a symbol through it, or leaves it as it is. -/
theorem commandEffect_keeps_onCourse {i : Instr} (hok : commandEffect p i e = .ok e') (h : KeystreamOnCourse e) :
    KeystreamOnCourse e' := by
  cases i with
  | nop | clrerr | clrkey | clriv | ldivb => cases hok; exact h
  | ldkeyb => obtain ⟨_, _, _, _, rfl⟩ := ldkeyb_ok hok; exact h
  | bcEnc => obtain rfl := bcEncEffect_ok hok; exact h
  | cfbInit => obtain ⟨-, -, rfl⟩ := cfbInitEffect_ok hok; exact h
  | cfbEnc | cfbDec => obtain ⟨_, _, rfl⟩ := cfbData_ok hok; exact h
  | softrst => cases hok; exact keystreamOnCourse_of_not_ready rfl
  | setcfg => obtain ⟨-, -, rfl⟩ := setcfgEffect_ok hok; exact keystreamOnCourse_of_not_ready rfl
  | akgLoad => obtain ⟨-, -, rfl⟩ := akgLoadEffect_ok hok; exact keystreamOnCourse_of_start rfl rfl rfl
  | hybInit => obtain ⟨-, -, -, rfl⟩ := hybInitEffect_ok hok; exact keystreamOnCourse_of_start rfl rfl rfl
  | akgEnc | akgDec => obtain ⟨_, _, hs, rfl⟩ := akgData_ok hok; exact keystreamOnCourse_of_akSymbol hs _ h
  | hybEnc | hybDec =>
    obtain ⟨_, _, rfl⟩ | ⟨_, _, hs, rfl⟩ := hybData_ok hok
    · exact h
    · exact keystreamOnCourse_of_akSymbol hs _ h

/-! ### Steps -/

/-- What every command that succeeds keeps of the engine, and the record of a result does not touch, every step keeps: a reset
does what SOFTRST does (R131). -/
theorem step_keeps_engine {P : Engine → Prop}
    (hcommand : ∀ {p i e e'}, commandEffect p i e = .ok e' → P e → P e')
    (hresult : ∀ {e} (code : Byte) (seen : Bool), P e → P { e with lasterr := code, errseen := seen })
    {s t : State} (hstep : step s = .next t) (h : P s.engine) : P t.engine := by
  obtain ⟨-, rfl⟩ | ⟨_, _, -, ⟨_, rfl⟩ | ⟨v, -, rfl⟩ | ⟨-, rfl⟩⟩ := step_next_cases hstep
  · exact h
  · exact h
  · change P (conclude s.engine (wordEffect s.params v s.engine))
    unfold wordEffect
    split
    · cases heff : commandEffect s.params _ s.engine with
      | ok e' => exact hresult _ _ (hcommand heff h)
      | error c => exact hresult _ _ h
    · exact hresult _ _ h
  · exact hcommand (p := s.params) (i := .softrst) rfl h

/-- Settles O42: every command keeps a generator on its course, and so does every step. -/
theorem keystreamStaysOnCourse : Obligations.KeystreamStaysOnCourse :=
  fun _ _ h hstep => step_keeps_engine (P := KeystreamOnCourse) commandEffect_keeps_onCourse (fun _ _ h => h) hstep h

end Sys2Proof.Machine
end

section
/-! The additive keystream generator (spec/42_additive.md), second part: AKG_LOAD (R98), AKG_ENC and AKG_DEC (R97, R99, R100),
the round trip of a message (R101), and a zero term under MUL (R102). -/

namespace Sys2Proof.Machine

open Sys2Proof.Safety Sys2Proof.Reference

/-! ### AKG_LOAD (R98) -/

/-- Settles O39, by the two outcomes of the range check. -/
theorem akgLoadRestartsTheKeystream : Obligations.AkgLoadRestartsTheKeystream := by
  refine ⟨wordK_toNat 0x30, mbzBitsIllegal_of_rowOf (opc := 0x30) rfl, fun k0 k1 s h0 h1 => ?_, fun k0 k1 s hk => ?_⟩ <;>
    rw [exec_eq_finish, commandEffect, akgLoadEffect]
  · rw [if_neg (by omega)]
    rfl
  · rw [if_pos hk]
    rfl

/-! ### One letter (R93, R97) -/

theorem shiftIndex_enc (idx : Nat) (k : BitVec 5) : shiftIndex .enc idx k = (idx + k.toNat) % 26 := by
  simp only [shiftIndex]
  omega

/-- R97, R10: the least non-negative residue of the difference; KA has 5 bits. -/
theorem shiftIndex_dec (idx : Nat) (k : BitVec 5) : shiftIndex .dec idx k = (idx + 52 - k.toNat) % 26 := by
  have hk := k.isLt
  simp only [shiftIndex]
  omega

theorem letterSymbol_shiftIndex (dir : Direction) (c : LetterCase) (b : Byte) (k : BitVec 5) :
    letterSymbol c (shiftIndex dir (b.toNat - letterBase c) k) = movedLetter dir (letterBase c) b k := by
  cases dir with
  | enc => rw [shiftIndex_enc]; rfl
  | dec => rw [shiftIndex_dec]; rfl

/-- R93: the class of a letter is its case and its distance from the base. -/
theorem classify_of_letterOfBase {base : Nat} {b : Byte} (h : LetterOfBase base b) :
    ∃ c, base = letterBase c ∧ classify b = .letter c (b.toNat - letterBase c) := by
  obtain ⟨rfl | rfl, hlow, hhigh⟩ := h
  · exact ⟨.upper, rfl, if_pos (by omega)⟩
  · exact ⟨.lower, rfl, (if_neg (by omega)).trans (if_pos (by omega))⟩

theorem classify_of_not_isLetterCode {b : Byte} (h : isLetterCode b = false) : classify b = .passthrough := by
  rw [isLetterCode, Bool.or_eq_false_iff, decide_eq_false_iff_not, decide_eq_false_iff_not] at h
  exact (classify_eq_passthrough_iff b).mpr h

theorem akSymbol_of_letter {c : LetterCase} {idx : Nat} {b : Byte} (h : classify b = .letter c idx) (dir : Direction)
    (e : Engine) : akSymbol dir b e = .ok (letterSymbol c (shiftIndex dir idx e.ka), akAdvance e) := by
  rw [akSymbol, h]

theorem akSymbol_of_passthrough {b : Byte} (h : classify b = .passthrough) (dir : Direction) (e : Engine) :
    akSymbol dir b e = if e.cfg.strict then .error .unsupportedCharacter else .ok (b, e) := by
  rw [akSymbol, h]

/-! ### AKG_ENC and AKG_DEC (R99, R100) -/

theorem exec_akgCommand (dir : Direction) (b : Byte) (s : State) :
    exec (akgCommand dir b) s = finish s (akgData dir b s.engine) := by
  cases dir <;> rfl

section
variable (dir : Direction) {b : Byte} {s : State}

/-- A keystream data command in a session does what its symbol does. -/
theorem exec_akgCommand_of_ready (hr : s.engine.akrdy = true) :
    exec (akgCommand dir b) s = finish s (putSymbol (akSymbol dir b s.engine)) := by
  rw [exec_akgCommand, akgData, if_pos hr]

theorem exec_akgCommand_of_not_ready (hr : s.engine.akrdy = false) :
    exec (akgCommand dir b) s = .next (failed 0x04 s) := by
  rw [exec_akgCommand, akgData, hr]
  rfl

/-- A letter is moved by KA within its case, and the keystream advances. -/
theorem exec_akgCommand_of_letter {base : Nat} (hr : s.engine.akrdy = true) (hb : LetterOfBase base b) :
    exec (akgCommand dir b) s = .next { s with engine := { s.engine with
      dout := movedLetter dir base b s.engine.ka, ka := s.engine.kb
      kb := BitVec.ofNat 5 (nextTerm s.engine.cfg.akrule s.engine.kb.toNat s.engine.ka.toNat)
      akj := s.engine.akj + 1, lasterr := 0 } } := by
  obtain ⟨c, rfl, hc⟩ := classify_of_letterOfBase hb
  rw [exec_akgCommand_of_ready dir hr, akSymbol_of_letter hc, nextTerm_eq_recurrence, ← letterSymbol_shiftIndex]
  rfl

/-- Any other symbol passes through and consumes no position, or is refused when STRICT = 1. -/
theorem exec_akgCommand_of_not_letter (hr : s.engine.akrdy = true) (hb : isLetterCode b = false) :
    (s.engine.cfg.strict = false →
      exec (akgCommand dir b) s = .next { s with engine := { s.engine with dout := b, lasterr := 0 } }) ∧
    (s.engine.cfg.strict = true → exec (akgCommand dir b) s = .next (failed 0x06 s)) := by
  rw [exec_akgCommand_of_ready dir hr, akSymbol_of_passthrough (classify_of_not_isLetterCode hb)]
  refine ⟨fun hs => ?_, fun hs => ?_⟩ <;> rw [hs] <;> rfl

end

/-- Settles O40: the outcomes of a keystream data command, encrypting. -/
theorem akgEncTransformsOneSymbol : Obligations.AkgEncTransformsOneSymbol :=
  ⟨wordB_toNat 0x31, mbzBitsIllegal_of_rowOf (opc := 0x31) rfl, fun _ _ _ => exec_akgCommand_of_letter .enc,
    fun _ _ => exec_akgCommand_of_not_letter .enc, fun _ _ => exec_akgCommand_of_not_ready .enc⟩

/-- Settles O41: the outcomes of a keystream data command, decrypting. -/
theorem akgDecTransformsOneSymbol : Obligations.AkgDecTransformsOneSymbol :=
  ⟨wordB_toNat 0x32, mbzBitsIllegal_of_rowOf (opc := 0x32) rfl, fun _ _ _ => exec_akgCommand_of_letter .dec,
    fun _ _ => exec_akgCommand_of_not_letter .dec, fun _ _ => exec_akgCommand_of_not_ready .dec⟩

/-! ### The round trip (R101) -/

/-- Two engines whose keystream generators are ready alike and behave alike: same AKRDY, AKRULE, STRICT, KA, KB and AKJ. -/
structure AkAlike (a b : Engine) : Prop where
  ready : a.akrdy = b.akrdy
  rule : a.cfg.akrule = b.cfg.akrule
  strict : a.cfg.strict = b.cfg.strict
  stream : SameKeystream a b

theorem AkAlike.advance {a b : Engine} (h : AkAlike a b) : AkAlike (akAdvance a) (akAdvance b) := by
  obtain ⟨hready, hrule, hstrict, hka, hkb, hakj⟩ := h
  refine ⟨hready, hrule, hstrict, ⟨hkb, ?_, ?_⟩⟩
  · rw [akAdvance_kb, akAdvance_kb, hrule, hka, hkb]
  · rw [akAdvance_akj, akAdvance_akj, hakj]

/-- R97, R101: of two generators that are alike, the second takes back what the first put out, and they stay alike. -/
theorem AkAlike.akSymbol_dec_enc {e e' e₁ : Engine} {b o : Byte} (h : AkAlike e e')
    (henc : akSymbol .enc b e = .ok (o, e₁)) : ∃ e₁', akSymbol .dec o e' = .ok (b, e₁') ∧ AkAlike e₁ e₁' := by
  have ⟨_, _, hstrict, hka, _, _⟩ := h
  rcases akSymbol_cases .enc b e with ⟨-, -, hk⟩ | ⟨hc, hs, hk⟩ | ⟨c, idx, hidx, rfl, -, hk⟩ <;> rw [hk] at henc <;>
    cases henc
  · exact ⟨e', by rw [akSymbol_of_passthrough hc, ← hstrict, hs]; rfl, h⟩
  · refine ⟨akAdvance e', ?_, h.advance⟩
    rw [akSymbol_of_letter (classify_letterSymbol c (shiftIndex_lt .enc idx e.ka)), hka, shiftIndex_dec_enc hidx]

section
variable {dir : Direction} {b : Byte} {s t : State}

theorem succeeds_akgCommand {o : Byte} {e₁ : Engine} (hr : s.engine.akrdy = true)
    (hs : akSymbol dir b s.engine = .ok (o, e₁)) :
    Succeeds (akgCommand dir b) s { s with engine := succeed { e₁ with dout := o } } :=
  ⟨by rw [exec_akgCommand_of_ready dir hr, hs]; rfl, rfl⟩

/-- R99, R100: a keystream data command that succeeds had a session, and a symbol that was not refused. -/
theorem symbol_of_succeeds_akgCommand (h : Succeeds (akgCommand dir b) s t) :
    s.engine.akrdy = true ∧ ∃ o e₁, akSymbol dir b s.engine = .ok (o, e₁) ∧
      t = { s with engine := succeed { e₁ with dout := o } } := by
  cases hr : s.engine.akrdy with
  | false => exact absurd h (not_succeeds_of_failed (by decide) (exec_akgCommand_of_not_ready dir hr))
  | true =>
    obtain ⟨hexec, hok⟩ := h
    rw [exec_akgCommand_of_ready dir hr] at hexec
    cases hs : akSymbol dir b s.engine with
    | ok r =>
      rw [hs] at hexec
      cases hexec
      exact ⟨rfl, _, _, rfl, rfl⟩
    | error c =>
      rw [hs] at hexec
      cases hexec
      exact absurd hok (code_ne_zero c)

end

/-- R101: one symbol through both sessions. -/
theorem AkAlike.succeeds_akgDec {s s' t : State} {b : Byte} (h : AkAlike s.engine s'.engine)
    (henc : Succeeds (akgCommand .enc b) s t) :
    ∃ t', Succeeds (akgCommand .dec t.engine.dout) s' t' ∧ t'.engine.dout = b ∧ AkAlike t.engine t'.engine := by
  obtain ⟨hr, o, e₁, hs, rfl⟩ := symbol_of_succeeds_akgCommand henc
  obtain ⟨e₁', hs', h₁⟩ := h.akSymbol_dec_enc hs
  exact ⟨_, succeeds_akgCommand (h.ready.symm.trans hr) hs', rfl, ⟨h₁.ready, h₁.rule, h₁.strict, h₁.stream⟩⟩

/-- A message that runs to its end had a success at its first symbol, whose output comes first. -/
theorem succeeds_of_hostMessage_cons {command : Byte → Instr} {b : Byte} {m out : List Byte} {s u : State}
    (h : hostMessage command (b :: m) s = some (out, u)) :
    ∃ t out', Succeeds (command b) s t ∧ hostMessage command m t = some (out', u) ∧ out = t.engine.dout :: out' := by
  rw [hostMessage] at h
  split at h
  · rename_i t hexec
    split at h
    · rename_i hok
      split at h
      · rename_i out' u' hrest
        cases h
        exact ⟨t, out', ⟨hexec, hok⟩, hrest, rfl⟩
      · cases h
    · cases h
  · cases h
  · cases h

/-- R101: a whole message through both sessions. -/
theorem AkAlike.hostMessage_akgDec {m out : List Byte} {s s' t : State} (h : AkAlike s.engine s'.engine)
    (henc : hostMessage (akgCommand .enc) m s = some (out, t)) :
    ∃ t', hostMessage (akgCommand .dec) out s' = some (m, t') ∧ AkAlike t.engine t'.engine := by
  induction m generalizing out s s' with
  | nil =>
    cases henc
    exact ⟨s', rfl, h⟩
  | cons b m ih =>
    obtain ⟨s₁, out', hsucc, hrest, rfl⟩ := succeeds_of_hostMessage_cons henc
    obtain ⟨s₁', hsucc', hdout, h₁⟩ := h.succeeds_akgDec hsucc
    obtain ⟨t', hrest', ht⟩ := ih h₁ hrest
    exact ⟨t', by rw [hostMessage_cons hsucc', hrest', hdout]; rfl, ht⟩

/-- R98: sessions started with the same rule, STRICT and keys are alike. -/
theorem akgLoad_alike {s s' u u' : State} {k0 k1 : BitVec 5} (h : Succeeds (.akgLoad k0 k1) s u)
    (h' : Succeeds (.akgLoad k0 k1) s' u') (hrule : s.engine.cfg.akrule = s'.engine.cfg.akrule)
    (hstrict : s.engine.cfg.strict = s'.engine.cfg.strict) : AkAlike u.engine u'.engine := by
  obtain ⟨_, he, rfl⟩ := effect_of_succeeds h
  obtain ⟨_, he', rfl⟩ := effect_of_succeeds h'
  obtain ⟨-, -, rfl⟩ := akgLoadEffect_ok he
  obtain ⟨-, -, rfl⟩ := akgLoadEffect_ok he'
  exact ⟨rfl, hrule, hstrict, ⟨rfl, rfl, rfl⟩⟩

/-- Settles O43, by induction on the message: both sessions are alike after the load, and after every symbol. -/
theorem akgDecryptionInvertsEncryption : Obligations.AkgDecryptionInvertsEncryption := by
  intro s s' u u' t k0 k1 m out hu hu' hrule hstrict henc
  obtain ⟨t', hdec, halike⟩ := (akgLoad_alike hu hu' hrule hstrict).hostMessage_akgDec henc
  exact ⟨t', hdec, halike.stream⟩

/-! ### A zero term under MUL (R102) -/

/-- R94: a product with a factor 0. -/
theorem akAdvance_kb_of_zero {e : Engine} (hrule : e.cfg.akrule = .mul) (h : e.ka = 0 ∨ e.kb = 0) :
    (akAdvance e).kb = 0 := by
  rw [akAdvance_kb, hrule]
  rcases h with h | h <;> simp [h, recurrence]

/-- R102: from a zero term on, KB is 0 after every advance. -/
theorem kb_of_repeat_akAdvance {e : Engine} (hrule : e.cfg.akrule = .mul) (hka : e.ka = 0) (n : Nat) :
    (Nat.repeat akAdvance (n + 1) e).cfg.akrule = .mul ∧ (Nat.repeat akAdvance (n + 1) e).kb = 0 := by
  induction n with
  | zero => exact ⟨hrule, akAdvance_kb_of_zero hrule (.inl hka)⟩
  | succ n ih =>
    obtain ⟨hrule', hkb⟩ := ih
    exact ⟨hrule', akAdvance_kb_of_zero hrule' (.inr hkb)⟩

/-- Settles O44: KA is the KB of one advance before. -/
theorem zeroTermAbsorbsUnderMul : Obligations.ZeroTermAbsorbsUnderMul := by
  intro e n hrule hka hn
  obtain ⟨m, rfl⟩ := Nat.exists_eq_add_of_le' hn
  exact (kb_of_repeat_akAdvance hrule hka m).2

end Sys2Proof.Machine
end

section
/-! The hybrid combiner (spec/43_hybrid.md), first part: HYB_INIT (R106), and one symbol of HYB_ENC and HYB_DEC (R103, R104,
R107, R108). -/

namespace Sys2Proof.Machine

open Sys2Proof.Safety Sys2Proof.Reference

/-! ### HYB_INIT (R106) -/

/-- Settles O45, by the outcomes of the three checks: the key, the IV, the stream keys. -/
theorem hybInitRestartsBothHalves : Obligations.HybInitRestartsBothHalves := by
  refine ⟨rfl, mbzBitsIllegal_of_rowOf (opc := 0x40) rfl, fun s hcnt hiv hakv => ?_, fun s hcnt => ?_,
    fun s hcnt hiv => ?_, fun s hcnt hiv hakv => ?_⟩ <;>
    rw [exec_eq_finish, commandEffect, hybInitEffect]
  · rw [if_pos ((keyOk_iff _).mpr hcnt), if_pos ((ivOk_eq_ivLengthOk _).trans hiv), if_pos hakv, startCfb,
      ivVal_eq_ofNat]
    rfl
  · rw [if_neg (mt (keyOk_iff _).mp hcnt)]
    rfl
  · rw [if_pos ((keyOk_iff _).mpr hcnt), ivOk_eq_ivLengthOk, hiv]
    rfl
  · rw [if_pos ((keyOk_iff _).mpr hcnt), if_pos ((ivOk_eq_ivLengthOk _).trans hiv), hakv]
    rfl

/-! ### One hybrid symbol (R103, R104) -/

/-- A state whose position has moved on. -/
def movedOn (s : State) : State := { s with engine := advancePosition s.engine }

/-- The state after a symbol of the keystream generator: what came out in DOUT, the engine it left, and LASTERR 0. -/
def afterSymbol (o : Byte) (e₁ : Engine) (s : State) : State := { s with engine := succeed { e₁ with dout := o } }

theorem exec_hybCommand (dir : Direction) (b : Byte) (s : State) :
    exec (hybCommand dir b) s = finish s (hybData s.params dir b s.engine) := by
  cases dir <;> rfl

section
variable (dir : Direction) {b : Byte} {s : State}

theorem exec_hybCommand_of_not_ready (hr : s.engine.hybrdy = false) :
    exec (hybCommand dir b) s = .next (failed 0x04 s) := by
  rw [exec_hybCommand, hybData, hr]
  rfl

/-- A hybrid data command in a session does what its symbol does. -/
theorem exec_hybCommand_of_ready (hr : s.engine.hybrdy = true) :
    exec (hybCommand dir b) s = finish s (putSymbol (hybSymbol s.params dir b s.engine)) := by
  rw [exec_hybCommand, hybData, if_pos hr]

/-- At an odd position a symbol is a CFB data command of 8 bits, and the position moves on. -/
theorem exec_hybCommand_of_odd (hr : s.engine.hybrdy = true) (hpos : s.engine.pos.toNat % 2 = 1) :
    exec (hybCommand dir b) s = .next (movedOn (afterData dir 8 b s)) := by
  rw [exec_hybCommand_of_ready dir hr, hybSymbol_odd _ hpos, cfbByte_snd]
  rfl

section
variable (hr : s.engine.hybrdy = true) (hpos : s.engine.pos.toNat % 2 = 0)
include hr hpos

/-- At an even position a symbol does what it does in the keystream generator, and the position moves on. -/
theorem exec_hybCommand_of_even {o : Byte} {e₁ : Engine} (hs : akSymbol dir b s.engine = .ok (o, e₁)) :
    exec (hybCommand dir b) s = .next (movedOn (afterSymbol o e₁ s)) := by
  rw [exec_hybCommand_of_ready dir hr, hybSymbol_even _ hpos, hs]
  rfl

/-- A symbol that the generator refuses leaves the position too. -/
theorem exec_hybCommand_of_refused {c : ErrorCode} (hs : akSymbol dir b s.engine = .error c) :
    exec (hybCommand dir b) s = .next (failed c.code s) := by
  rw [exec_hybCommand_of_ready dir hr, hybSymbol_even _ hpos, hs]
  rfl

theorem exec_hybCommand_of_letter {base : Nat} (hb : LetterOfBase base b) :
    exec (hybCommand dir b) s = .next { s with engine := { s.engine with
      dout := movedLetter dir base b s.engine.ka, ka := s.engine.kb
      kb := BitVec.ofNat 5 (nextTerm s.engine.cfg.akrule s.engine.kb.toNat s.engine.ka.toNat)
      akj := s.engine.akj + 1, pos := s.engine.pos + 1, lasterr := 0 } } := by
  obtain ⟨c, rfl, hc⟩ := classify_of_letterOfBase hb
  rw [exec_hybCommand_of_even dir hr hpos (akSymbol_of_letter hc dir _), nextTerm_eq_recurrence,
    ← letterSymbol_shiftIndex]
  rfl

theorem exec_hybCommand_of_not_letter (hb : isLetterCode b = false) :
    (s.engine.cfg.strict = false →
      exec (hybCommand dir b) s = .next { s with engine := { s.engine with
        dout := b, pos := s.engine.pos + 1, lasterr := 0 } }) ∧
    (s.engine.cfg.strict = true → exec (hybCommand dir b) s = .next (failed 0x06 s)) := by
  have hs := akSymbol_of_passthrough (classify_of_not_isLetterCode hb) dir s.engine
  refine ⟨fun hstrict => ?_, fun hstrict => ?_⟩ <;> rw [hstrict] at hs
  · exact exec_hybCommand_of_even dir hr hpos hs
  · exact exec_hybCommand_of_refused dir hr hpos hs

end

/-- R104 in the terms of the loop over the byte's bits. -/
theorem exec_hybCommand_of_odd_eq_dataLoop (hr : s.engine.hybrdy = true) (hpos : s.engine.pos.toNat % 2 = 1)
    {r : Byte × Engine} (hloop : dataLoop s.params dir b 8 (0, s.engine) = r) :
    exec (hybCommand dir b) s = .next { s with engine := { s.engine with
      sr := r.2.sr, ks := r.2.ks, phase := r.2.phase, dout := r.1, pos := s.engine.pos + 1, lasterr := 0 } } := by
  have hcount : (8 : BitVec 4).toNat = 8 := rfl
  have hdata := afterData_eq_dataLoop dir 8 b s
  simp only [hcount, hloop] at hdata
  rw [exec_hybCommand_of_odd dir hr hpos, hdata]
  rfl

end

/-- Settles O46: the outcomes of a hybrid data command, encrypting. -/
theorem hybEncRoutesByPosition : Obligations.HybEncRoutesByPosition :=
  ⟨fun _ _ hr hpos => exec_hybCommand_of_odd_eq_dataLoop .enc hr hpos rfl,
    fun _ _ _ hr hpos => exec_hybCommand_of_letter .enc hr hpos,
    fun _ _ => exec_hybCommand_of_not_letter .enc, fun _ _ => exec_hybCommand_of_not_ready .enc⟩

/-- Settles O47: the outcomes of a hybrid data command, decrypting. -/
theorem hybDecRoutesByPosition : Obligations.HybDecRoutesByPosition :=
  ⟨fun _ _ hr hpos => exec_hybCommand_of_odd_eq_dataLoop .dec hr hpos rfl,
    fun _ _ _ hr hpos => exec_hybCommand_of_letter .dec hr hpos,
    fun _ _ => exec_hybCommand_of_not_letter .dec, fun _ _ => exec_hybCommand_of_not_ready .dec⟩

end Sys2Proof.Machine
end

section
/-! The hybrid combiner (spec/43_hybrid.md), second part: whole messages. A hybrid message is its two halves (R109), and it is
given back by the receiver (R110). -/

namespace Sys2Proof.Machine

open Sys2Proof.Safety Sys2Proof.Reference

/-! ### Positions (R103) -/

theorem oddPosition_eq_true_iff (e : Engine) : oddPosition e = true ↔ e.pos.toNat % 2 = 1 := beq_iff_eq

theorem oddPosition_eq_false_iff (e : Engine) : oddPosition e = false ↔ e.pos.toNat % 2 = 0 := by
  rw [← Bool.not_eq_true, oddPosition_eq_true_iff]
  omega

/-- Every other symbol of a message, from its first one or from its second one. -/
def everyOther (fromFirst : Bool) (m : List Byte) : List Byte := if fromFirst then oddPositions m else evenPositions m

theorem positions_cons (b : Byte) (m : List Byte) :
    oddPositions (b :: m) = b :: evenPositions m ∧ evenPositions (b :: m) = oddPositions m := by
  induction m generalizing b with
  | nil => exact ⟨rfl, rfl⟩
  | cons c m ih =>
    obtain ⟨hodd, heven⟩ := ih c
    exact ⟨congrArg (b :: ·) heven.symm, hodd.symm⟩

@[simp] theorem everyOther_nil (fromFirst : Bool) : everyOther fromFirst [] = [] := by cases fromFirst <;> rfl

@[simp] theorem everyOther_true_cons (b : Byte) (m : List Byte) : everyOther true (b :: m) = b :: everyOther false m :=
  (positions_cons b m).1

@[simp] theorem everyOther_false_cons (b : Byte) (m : List Byte) : everyOther false (b :: m) = everyOther true m :=
  (positions_cons b m).2

/-! ### What a hybrid data command that succeeds has done (R107, R108) -/

/-- R107, R108: a hybrid data command that succeeds had a session, and took its symbol through the half of its position. -/
theorem symbol_of_succeeds_hybCommand {dir : Direction} {b : Byte} {s t : State} (h : Succeeds (hybCommand dir b) s t) :
    s.engine.hybrdy = true ∧
      (oddPosition s.engine = true ∧ t = movedOn (afterData dir 8 b s) ∨
        oddPosition s.engine = false ∧ ∃ o e₁, akSymbol dir b s.engine = .ok (o, e₁) ∧
          t = movedOn (afterSymbol o e₁ s)) := by
  have hnext {u : State} (hexec : exec (hybCommand dir b) s = .next u) : t = u := by
    cases h.1.symm.trans hexec
    rfl
  cases hr : s.engine.hybrdy with
  | false => exact absurd h (not_succeeds_of_failed (by decide) (exec_hybCommand_of_not_ready dir hr))
  | true =>
    refine ⟨rfl, ?_⟩
    cases hodd : oddPosition s.engine with
    | true =>
      exact .inl ⟨rfl, hnext (exec_hybCommand_of_odd dir hr ((oddPosition_eq_true_iff _).mp hodd))⟩
    | false =>
      have hpos := (oddPosition_eq_false_iff _).mp hodd
      cases hs : akSymbol dir b s.engine with
      | ok r => exact .inr ⟨rfl, r.1, r.2, rfl, hnext (exec_hybCommand_of_even dir hr hpos hs)⟩
      | error c => exact absurd h (not_succeeds_of_failed (code_ne_zero c) (exec_hybCommand_of_refused dir hr hpos hs))

theorem succeeds_hybCommand_of_odd (dir : Direction) (b : Byte) {s : State} (hr : s.engine.hybrdy = true)
    (hodd : oddPosition s.engine = true) : Succeeds (hybCommand dir b) s (movedOn (afterData dir 8 b s)) :=
  ⟨exec_hybCommand_of_odd dir hr ((oddPosition_eq_true_iff _).mp hodd), rfl⟩

theorem succeeds_hybCommand_of_even {dir : Direction} {b o : Byte} {s : State} {e₁ : Engine}
    (hr : s.engine.hybrdy = true) (hodd : oddPosition s.engine = false) (hs : akSymbol dir b s.engine = .ok (o, e₁)) :
    Succeeds (hybCommand dir b) s (movedOn (afterSymbol o e₁ s)) :=
  ⟨exec_hybCommand_of_even dir hr ((oddPosition_eq_false_iff _).mp hodd) hs, rfl⟩

/-- R38, R104: what a symbol that was taken leaves of the session, and where it moves the position. -/
theorem session_of_succeeds_hybCommand {dir : Direction} {b : Byte} {s t : State} (h : Succeeds (hybCommand dir b) s t) :
    t.engine.hybrdy = s.engine.hybrdy ∧ t.engine.cfg = s.engine.cfg ∧ t.engine.pos = s.engine.pos + 1 := by
  obtain ⟨e', he, rfl⟩ := effect_of_succeeds h
  have hdata : hybData s.params dir b s.engine = .ok e' := by cases dir <;> exact he
  obtain ⟨_, _, rfl⟩ | ⟨_, _, -, rfl⟩ := hybData_ok hdata <;> exact ⟨rfl, rfl, rfl⟩

/-- R35, R103: the parities of successive positions alternate. -/
theorem oddPosition_of_succeeds_hybCommand {dir : Direction} {b : Byte} {s t : State}
    (h : Succeeds (hybCommand dir b) s t) : oddPosition t.engine = !oddPosition s.engine := by
  obtain ⟨-, -, hpos⟩ := session_of_succeeds_hybCommand h
  have hparity := pos_add_one_parity s.engine.pos
  rw [← hpos] at hparity
  cases hodd : oddPosition s.engine with
  | true =>
    rw [oddPosition_eq_true_iff] at hodd
    rw [Bool.not_true, oddPosition_eq_false_iff]
    omega
  | false =>
    rw [oddPosition_eq_false_iff] at hodd
    rw [Bool.not_false, oddPosition_eq_true_iff]
    omega

/-! ### The CFB half (R90) -/

/-- The bits of a byte are all of it. -/
theorem dataBits_injective {b b' : Byte} (h : dataBits 8 b = dataBits 8 b') : b = b' := by
  apply BitVec.eq_of_getLsbD_eq
  intro i hi
  have hbit := getElem_dataBits 8 b (7 - i) (by rw [dataBits_length]; omega)
  simp only [h, getElem_dataBits] at hbit
  rwa [show 8 - 1 - (7 - i) = i by omega, eq_comm] at hbit

section
variable {s s' : State} (hp : s'.params = s.params) (h : CfbAlike s.engine s'.engine)
include hp h

/-- Engines that are alike put out the same byte and stay alike. -/
theorem CfbAlike.afterData_byte (dir : Direction) (b : Byte) :
    (afterData dir 8 b s').engine.dout = (afterData dir 8 b s).engine.dout ∧
      CfbAlike (afterData dir 8 b s).engine (afterData dir 8 b s').engine := by
  have hs := afterData_alike dir 8 b s
  have hs' := afterData_alike dir 8 b s'
  rw [hp] at hs'
  refine ⟨dataBits_injective ?_, (hs.symm.trans (h.stream_snd _)).trans hs'⟩
  have hout := dataBits_afterData_dout dir (n := 8) (by decide) b s
  have hout' := dataBits_afterData_dout dir (n := 8) (by decide) b s'
  rw [hp] at hout'
  exact hout'.trans ((h.stream_fst _).symm.trans hout.symm)

/-- R90: the second takes back the byte the first put out, and they stay alike. -/
theorem CfbAlike.afterData_dec_enc (b : Byte) :
    (afterData .dec 8 (afterData .enc 8 b s).engine.dout s').engine.dout = b ∧
      CfbAlike (afterData .enc 8 b s).engine (afterData .dec 8 (afterData .enc 8 b s).engine.dout s').engine := by
  have hs := afterData_alike .enc 8 b s
  have hs' := afterData_alike .dec 8 (afterData .enc 8 b s).engine.dout s'
  have hout := dataBits_afterData_dout .enc (n := 8) (by decide) b s
  have hout' := dataBits_afterData_dout .dec (n := 8) (by decide) (afterData .enc 8 b s).engine.dout s'
  rw [hp, hout] at hs' hout'
  exact ⟨dataBits_injective (hout'.trans (h.cfbBits_dec_enc _)), (hs.symm.trans (h.cfbBits_enc_dec _)).trans hs'⟩

end

/-! ### The keystream half (R97) -/

/-- R97: a symbol that the generator takes changes KA, KB and AKJ. -/
theorem akSymbol_frame {dir : Direction} {b o : Byte} {e e₁ : Engine} (hs : akSymbol dir b e = .ok (o, e₁)) :
    ∃ x y z, e₁ = { e with ka := x, kb := y, akj := z } :=
  ⟨_, _, _, akSymbol_ok hs⟩

/-- R97: generators that are alike put out the same symbol and stay alike. -/
theorem AkAlike.akSymbol_ok {dir : Direction} {e e' e₁ : Engine} {b o : Byte} (h : AkAlike e e')
    (hs : akSymbol dir b e = .ok (o, e₁)) : ∃ e₁', akSymbol dir b e' = .ok (o, e₁') ∧ AkAlike e₁ e₁' := by
  have ⟨_, _, hstrict, hka, _, _⟩ := h
  rcases akSymbol_cases dir b e with ⟨-, -, hk⟩ | ⟨hc, hpass, hk⟩ | ⟨c, idx, -, -, hc, hk⟩ <;> rw [hk] at hs <;>
    cases hs
  · exact ⟨e', by rw [akSymbol_of_passthrough hc, ← hstrict, hpass]; rfl, h⟩
  · exact ⟨akAdvance e', by rw [akSymbol_of_letter hc, hka], h.advance⟩

/-! ### The two halves (R109) -/

/-- A hybrid state with a CFB session and a keystream session, each at the same point as the half it stands for. -/
structure HalvesAlike (s sc sk : State) : Prop where
  params : sc.params = s.params
  cfbReady : sc.engine.cfbrdy = true
  akReady : sk.engine.akrdy = true
  cfb : CfbAlike s.engine sc.engine
  ak : AkAlike s.engine sk.engine

section
variable {s sc sk : State} (h : HalvesAlike s sc sk)
include h

/-- An odd-position symbol touches the CFB half alone. -/
theorem HalvesAlike.odd_symbol (dir : Direction) (b : Byte) :
    Succeeds (cfbCommand dir 8 b) sc (afterData dir 8 b sc) ∧
      (afterData dir 8 b sc).engine.dout = (movedOn (afterData dir 8 b s)).engine.dout ∧
      HalvesAlike (movedOn (afterData dir 8 b s)) (afterData dir 8 b sc) sk := by
  obtain ⟨hp, hcr, hkr, hcfb, ⟨hready, hrule, hstrict, hstream⟩⟩ := h
  obtain ⟨hdout, ⟨hmode, hfbw, hkey, hsr⟩⟩ := hcfb.afterData_byte hp dir b
  exact ⟨⟨exec_cfbCommand_of_ready dir b (by decide) hcr, rfl⟩, hdout,
    ⟨hp, hcr, hkr, ⟨hmode, hfbw, hkey, hsr⟩, ⟨hready, hrule, hstrict, hstream⟩⟩⟩

/-- An even-position symbol touches the keystream half alone. -/
theorem HalvesAlike.even_symbol {dir : Direction} {b o : Byte} {e₁ : Engine}
    (hs : akSymbol dir b s.engine = .ok (o, e₁)) :
    ∃ tk, Succeeds (akgCommand dir b) sk tk ∧ tk.engine.dout = o ∧
      HalvesAlike (movedOn (afterSymbol o e₁ s)) sc tk := by
  obtain ⟨hp, hcr, hkr, ⟨hmode, hfbw, hkey, hsr⟩, hak⟩ := h
  obtain ⟨e₁', hs', ⟨hready, hrule, hstrict, hstream⟩⟩ := hak.akSymbol_ok hs
  refine ⟨_, succeeds_akgCommand hkr hs', rfl, hp, hcr, ?_, ?_, ⟨hready, hrule, hstrict, hstream⟩⟩
  · obtain ⟨_, _, _, rfl⟩ := akSymbol_frame hs'
    exact hkr
  · obtain ⟨_, _, _, rfl⟩ := akSymbol_frame hs
    exact ⟨hmode, hfbw, hkey, hsr⟩

end

/-- R109: a hybrid message from any position is its odd-position symbols through the CFB session and its even-position symbols
through the keystream session. -/
theorem HalvesAlike.hostMessage_split {dir : Direction} {m out : List Byte} {s sc sk t : State}
    (h : HalvesAlike s sc sk) (hrun : hostMessage (hybCommand dir) m s = some (out, t)) :
    ∃ tc tk,
      hostMessage (cfbCommand dir 8) (everyOther (oddPosition s.engine) m) sc =
        some (everyOther (oddPosition s.engine) out, tc) ∧
      hostMessage (akgCommand dir) (everyOther (!oddPosition s.engine) m) sk =
        some (everyOther (!oddPosition s.engine) out, tk) ∧
      HalvesAlike t tc tk := by
  induction m generalizing out s sc sk with
  | nil =>
    cases hrun
    exact ⟨sc, sk, by simp [hostMessage], by simp [hostMessage], h⟩
  | cons b m ih =>
    obtain ⟨s₁, out', hsucc, hrest, rfl⟩ := succeeds_of_hostMessage_cons hrun
    have hnext := oddPosition_of_succeeds_hybCommand hsucc
    obtain ⟨-, ⟨hodd, rfl⟩ | ⟨hodd, o, e₁, hs, rfl⟩⟩ := symbol_of_succeeds_hybCommand hsucc
    · obtain ⟨hc, hdout, h₁⟩ := h.odd_symbol dir b
      obtain ⟨tc, tk, htc, htk, ht⟩ := ih h₁ hrest
      rw [hnext, hodd] at htc htk
      rw [hodd]
      refine ⟨tc, tk, ?_, ?_, ht⟩
      · rw [everyOther_true_cons, everyOther_true_cons, hostMessage_cons hc, hdout]
        exact congrArg (Option.map _) htc
      · rw [Bool.not_true, everyOther_false_cons, everyOther_false_cons]
        exact htk
    · obtain ⟨sk₁, hk, hdout, h₁⟩ := h.even_symbol hs
      obtain ⟨tc, tk, htc, htk, ht⟩ := ih h₁ hrest
      rw [hnext, hodd] at htc htk
      rw [hodd]
      refine ⟨tc, tk, ?_, ?_, ht⟩
      · rw [everyOther_false_cons, everyOther_false_cons]
        exact htc
      · rw [Bool.not_false, everyOther_true_cons, everyOther_true_cons, hostMessage_cons hk, hdout]
        exact congrArg (Option.map _) htk

/-- R106: what HYB_INIT has done where it succeeds. -/
theorem eq_of_succeeds_hybInit {s u : State} (h : Succeeds .hybInit s u) :
    u = { s with engine := succeed { startKeystream (startCfb s.engine) with
      pos := 1, cfbrdy := true, akrdy := true, hybrdy := true } } := by
  obtain ⟨e', he, rfl⟩ := effect_of_succeeds h
  obtain ⟨-, -, -, rfl⟩ := hybInitEffect_ok he
  rfl

theorem start_of_succeeds_hybInit {s u : State} (h : Succeeds .hybInit s u) :
    u.engine.hybrdy = true ∧ oddPosition u.engine = true ∧ u.engine.cfg = s.engine.cfg := by
  rw [eq_of_succeeds_hybInit h]
  exact ⟨rfl, rfl, rfl⟩

/-- R98: what AKG_LOAD has done where it succeeds. -/
theorem eq_of_succeeds_akgLoad {k0 k1 : BitVec 5} {s u : State} (h : Succeeds (.akgLoad k0 k1) s u) :
    u = { s with engine := succeed (startKeystream { s.engine with
      ak0 := k0, ak1 := k1, akv := true, akrdy := true, hybrdy := false }) } := by
  obtain ⟨e', he, rfl⟩ := effect_of_succeeds h
  obtain ⟨-, -, rfl⟩ := akgLoadEffect_ok he
  rfl

/-- R80: IVVAL is a function of MODE and IVREG. -/
theorem ivVal_congr {e e' : Engine} (hcfg : e.cfg = e'.cfg) (hiv : e.ivreg = e'.ivreg) : ivVal e = ivVal e' := by
  rw [ivVal, ivVal, hcfg, hiv]

/-- R106, R109: HYB_INIT starts both halves as CFB_INIT and AKG_LOAD start sessions of their own. -/
theorem halvesAlike_of_init {s sc sk u uc uk : State} (hu : Succeeds .hybInit s u) (huc : Succeeds .cfbInit sc uc)
    (huk : Succeeds (.akgLoad s.engine.ak0 s.engine.ak1) sk uk) (hp : sc.params = s.params)
    (hcfg : sc.engine.cfg = s.engine.cfg) (hcfgk : sk.engine.cfg = s.engine.cfg) (hkey : SameKey sc.engine s.engine)
    (hiv : sc.engine.ivreg = s.engine.ivreg) : HalvesAlike u uc uk := by
  rw [eq_of_succeeds_hybInit hu, eq_of_succeeds_cfbInit huc, eq_of_succeeds_akgLoad huk]
  obtain ⟨h0, h1, h2, h3⟩ := hkey
  exact ⟨hp, rfl, rfl,
    ⟨congrArg Cfg.mode hcfg.symm, congrArg Cfg.fbw hcfg.symm, ⟨h0.symm, h1.symm, h2.symm, h3.symm⟩,
      ivVal_congr hcfg.symm hiv.symm, rfl, rfl⟩,
    ⟨rfl, congrArg Cfg.akrule hcfgk.symm, congrArg Cfg.strict hcfgk.symm, rfl, rfl, rfl⟩⟩

/-- Settles O48: both halves are alike after the three starts, and after every symbol. -/
theorem hybridEqualsSplitAndMerge : Obligations.HybridEqualsSplitAndMerge := by
  intro dir s sc sk u uc uk t m out hu huc huk hp hcfg hcfgk hkey hiv hrun
  obtain ⟨-, hodd, -⟩ := start_of_succeeds_hybInit hu
  obtain ⟨tc, tk, htc, htk, ht⟩ := (halvesAlike_of_init hu huc huk hp hcfg hcfgk hkey hiv).hostMessage_split hrun
  rw [hodd] at htc htk
  exact ⟨tc, tk, htc, htk, ht.cfb.stream, ht.ak.stream⟩

/-! ### The round trip (R110) -/

/-- Two hybrid states of one HCE at the same point of a message: the same parameters, session and position, and halves that
behave alike. -/
structure HybridAlike (s s' : State) : Prop where
  params : s'.params = s.params
  ready : s'.engine.hybrdy = s.engine.hybrdy
  pos : s'.engine.pos = s.engine.pos
  cfb : CfbAlike s.engine s'.engine
  ak : AkAlike s.engine s'.engine

/-- R110: the second takes back the symbol the first put out, and they stay alike. -/
theorem HybridAlike.succeeds_hybDec {s s' t : State} {b : Byte} (h : HybridAlike s s')
    (henc : Succeeds (hybCommand .enc b) s t) :
    ∃ t', Succeeds (hybCommand .dec t.engine.dout) s' t' ∧ t'.engine.dout = b ∧ HybridAlike t t' := by
  obtain ⟨hp, hready, hpos, hcfb, hak⟩ := h
  have hparity : oddPosition s'.engine = oddPosition s.engine := by rw [oddPosition, hpos, oddPosition]
  obtain ⟨hr, ⟨hodd, rfl⟩ | ⟨heven, o, e₁, hs, rfl⟩⟩ := symbol_of_succeeds_hybCommand henc
  · obtain ⟨hdout, ⟨hmode, hfbw, hkey, hsr⟩⟩ := hcfb.afterData_dec_enc hp b
    obtain ⟨hakr, hrule, hstrict, hstream⟩ := hak
    exact ⟨_, succeeds_hybCommand_of_odd .dec _ (hready.trans hr) (hparity.trans hodd), hdout,
      ⟨hp, hready, congrArg (· + 1) hpos, ⟨hmode, hfbw, hkey, hsr⟩, ⟨hakr, hrule, hstrict, hstream⟩⟩⟩
  · obtain ⟨e₁', hs', ⟨hakr, hrule, hstrict, hstream⟩⟩ := hak.akSymbol_dec_enc hs
    refine ⟨_, succeeds_hybCommand_of_even (hready.trans hr) (hparity.trans heven) hs', rfl, ?_⟩
    obtain ⟨hmode, hfbw, hkey, hsr⟩ := hcfb
    obtain ⟨_, _, _, rfl⟩ := akSymbol_frame hs
    obtain ⟨_, _, _, rfl⟩ := akSymbol_frame hs'
    exact ⟨hp, hready, congrArg (· + 1) hpos, ⟨hmode, hfbw, hkey, hsr⟩, ⟨hakr, hrule, hstrict, hstream⟩⟩

/-- R110: a whole message through both. -/
theorem HybridAlike.hostMessage_hybDec {m out : List Byte} {s s' t : State} (h : HybridAlike s s')
    (henc : hostMessage (hybCommand .enc) m s = some (out, t)) :
    ∃ t', hostMessage (hybCommand .dec) out s' = some (m, t') := by
  induction m generalizing out s s' with
  | nil =>
    cases henc
    exact ⟨s', rfl⟩
  | cons b m ih =>
    obtain ⟨s₁, out', hsucc, hrest, rfl⟩ := succeeds_of_hostMessage_cons henc
    obtain ⟨s₁', hsucc', hdout, h₁⟩ := h.succeeds_hybDec hsucc
    obtain ⟨t', hrest'⟩ := ih h₁ hrest
    exact ⟨t', by rw [hostMessage_cons hsucc', hrest', hdout]; rfl⟩

/-- R106: hybrid messages started with the same CFG, key, IV and stream keys are alike. -/
theorem hybInit_alike {s s' u u' : State} (hu : Succeeds .hybInit s u) (hu' : Succeeds .hybInit s' u')
    (hp : s.params = s'.params) (hcfg : s.engine.cfg = s'.engine.cfg) (hkey : SameKey s.engine s'.engine)
    (hiv : s.engine.ivreg = s'.engine.ivreg) (hak0 : s.engine.ak0 = s'.engine.ak0)
    (hak1 : s.engine.ak1 = s'.engine.ak1) : HybridAlike u u' := by
  rw [eq_of_succeeds_hybInit hu, eq_of_succeeds_hybInit hu']
  exact ⟨hp.symm, rfl, rfl,
    ⟨congrArg Cfg.mode hcfg, congrArg Cfg.fbw hcfg, hkey, ivVal_congr hcfg hiv, rfl, rfl⟩,
    ⟨rfl, congrArg Cfg.akrule hcfg, congrArg Cfg.strict hcfg, hak0, hak1, rfl⟩⟩

/-! ### Messages that never fail (R110, R121) -/

/-- R97: the generator refuses a symbol only when STRICT = 1, and never a letter. -/
theorem exists_akSymbol_ok (dir : Direction) {b : Byte} {e : Engine} (h : e.cfg.strict = false ∨ isLetter b = true) :
    ∃ o e₁, akSymbol dir b e = .ok (o, e₁) := by
  rcases akSymbol_cases dir b e with ⟨hc, hs, -⟩ | ⟨-, -, hk⟩ | ⟨_, _, -, -, -, hk⟩
  · simp [isLetter, hc, hs] at h
  · exact ⟨_, _, hk⟩
  · exact ⟨_, _, hk⟩

theorem exists_succeeds_hybCommand (dir : Direction) {b : Byte} {s : State} (hr : s.engine.hybrdy = true)
    (h : oddPosition s.engine = true ∨ s.engine.cfg.strict = false ∨ isLetter b = true) :
    ∃ t, Succeeds (hybCommand dir b) s t := by
  cases hodd : oddPosition s.engine with
  | true => exact ⟨_, succeeds_hybCommand_of_odd dir b hr hodd⟩
  | false =>
    obtain ⟨o, e₁, hs⟩ := exists_akSymbol_ok dir (h.resolve_left (by simp [hodd]))
    exact ⟨_, succeeds_hybCommand_of_even hr hodd hs⟩

/-- R121: the check of a message's even-position symbols is a check of its first symbol, if that is one, and of the rest. -/
theorem all_everyOther_cons {odd : Bool} {b : Byte} {m : List Byte}
    (hall : (everyOther (!odd) (b :: m)).all isLetter = true) :
    (odd = true ∨ isLetter b = true) ∧ (everyOther odd m).all isLetter = true := by
  cases odd with
  | true =>
    rw [Bool.not_true, everyOther_false_cons] at hall
    exact ⟨.inl rfl, hall⟩
  | false =>
    rw [Bool.not_false, everyOther_true_cons, List.all_cons, Bool.and_eq_true] at hall
    exact ⟨.inr hall.1, hall.2⟩

/-- R121: a message from any position in a session whose even-position symbols pass the host's check runs to its end. -/
theorem hostMessage_hybCommand_length (dir : Direction) {m : List Byte} {s : State} (hr : s.engine.hybrdy = true)
    (hcheck : s.engine.cfg.strict = false ∨ (everyOther (!oddPosition s.engine) m).all isLetter = true) :
    ∃ out t, hostMessage (hybCommand dir) m s = some (out, t) ∧ out.length = m.length := by
  induction m generalizing s with
  | nil => exact ⟨[], s, rfl, rfl⟩
  | cons b m ih =>
    have hfirst : oddPosition s.engine = true ∨ s.engine.cfg.strict = false ∨ isLetter b = true := by
      rcases hcheck with hstrict | hall
      · exact .inr (.inl hstrict)
      · exact (all_everyOther_cons hall).1.imp_right .inr
    obtain ⟨t, hsucc⟩ := exists_succeeds_hybCommand dir hr hfirst
    obtain ⟨hready, hcfg, -⟩ := session_of_succeeds_hybCommand hsucc
    have hcheck' : t.engine.cfg.strict = false ∨ (everyOther (!oddPosition t.engine) m).all isLetter = true := by
      rw [hcfg, oddPosition_of_succeeds_hybCommand hsucc, Bool.not_not]
      exact hcheck.imp_right fun hall => (all_everyOther_cons hall).2
    obtain ⟨out, u, hrun, hlen⟩ := ih (hready.trans hr) hcheck'
    rw [hostMessage_cons hsucc, hrun]
    exact ⟨_, u, rfl, by simp [hlen]⟩

/-- Settles O49: the two states are alike after HYB_INIT and after every symbol, and the check lets no symbol be refused. -/
theorem hybDecryptionInvertsEncryption : Obligations.HybDecryptionInvertsEncryption := by
  intro s s' u u' m hu hu' hp hcfg hkey hiv hak0 hak1
  refine ⟨fun out t henc => (hybInit_alike hu hu' hp hcfg hkey hiv hak0 hak1).hostMessage_hybDec henc,
    fun hcheck => ?_⟩
  obtain ⟨hr, hodd, hcfgu⟩ := start_of_succeeds_hybInit hu
  rw [← hcfgu] at hcheck
  obtain ⟨out, t, hrun, -⟩ := hostMessage_hybCommand_length .enc (m := m) hr (by rw [hodd]; exact hcheck)
  exact ⟨out, t, hrun⟩

end Sys2Proof.Machine
end

section
/-! The engine control commands NOP, CLRERR and SETCFG (spec/44_control.md). -/

namespace Sys2Proof.Machine

open Sys2Proof.Reference

/-! ### NOP and CLRERR (R113, R115) -/

/-- Settles O18: NOP has no check and no effect but its success. -/
theorem nopOnlyClearsLasterr : Obligations.NopOnlyClearsLasterr :=
  ⟨rfl, mbzBitsIllegal_of_rowOf (opc := 0x00) rfl, fun _ => rfl⟩

/-- Settles O19: CLRERR has no check, and an illegal word of its opcode raises an error as any other does. -/
theorem clrerrClearsTheStickyError : Obligations.ClrerrClearsTheStickyError :=
  ⟨rfl, mbzBitsIllegal_of_rowOf (opc := 0x02) rfl, fun _ => rfl⟩

/-! ### SETCFG (R61, R116) -/

theorem modeBit_toNat (m : Mode) : m.bit.toNat = if m = .toy then 1 else 0 := by cases m <;> rfl

theorem two_mul_akRuleBit_toNat (r : AkRule) : 2 * r.bit.toNat = if r = .mul then 2 else 0 := by cases r <;> rfl

/-- R61: SETCFG's operands stand at the bits 8, 2, 1 and 0 of its word. -/
theorem encode_setcfg_toNat (m : Mode) (r : AkRule) (st : Bool) (c : BitVec 7) :
    (encode (.setcfg m r st c)).toNat = 0x03000000 + 2 ^ 8 * c.toNat + 4 * st.toNat +
      (if r = .mul then 2 else 0) + (if m = .toy then 1 else 0) := by
  rw [← two_mul_akRuleBit_toNat, ← modeBit_toNat]
  exact wordC_toNat 0x03 m r st c

section
variable (c : Cfg)

/-- R116: SETCFG refuses no width but 0 and those above RW of the new mode. -/
theorem illegalWidth_iff :
    (c.fbw = 0 ∨ registerWidth c.mode < c.fbw.toNat) ↔ (c.fbw.toNat = 0 ∨ widthOf c.mode < c.fbw.toNat) := by
  rw [widthOf_eq_registerWidth]
  exact or_congr_left BitVec.toNat_inj.symm

theorem setcfgEffect_of_legal (e : Engine) (hlow : 1 ≤ c.fbw.toNat) (hhigh : c.fbw.toNat ≤ widthOf c.mode) :
    setcfgEffect c e = .ok (endAllSessions { e with cfg := c, sr := 0, ks := 0, bcout := 0, phase := 0 }) :=
  if_neg (mt (illegalWidth_iff c).mp (by omega))

theorem setcfgEffect_of_illegal (e : Engine) (h : c.fbw.toNat = 0 ∨ widthOf c.mode < c.fbw.toNat) :
    setcfgEffect c e = .error .invalidFeedbackWidth :=
  if_pos ((illegalWidth_iff c).mpr h)

end

/-- Settles O20, by the two outcomes of the width check. -/
theorem setcfgWritesCfgOrRefusesTheWidth : Obligations.SetcfgWritesCfgOrRefusesTheWidth := by
  refine ⟨encode_setcfg_toNat, mbzBitsIllegal_of_rowOf (opc := 0x03) rfl, fun m r st c s hlow hhigh => ?_,
    fun m r st c s hbad => ?_⟩
  · rw [exec_eq_finish, commandEffect, setcfgEffect_of_legal ⟨m, r, st, c⟩ s.engine hlow hhigh]
    rfl
  · rw [exec_eq_finish, commandEffect, setcfgEffect_of_illegal ⟨m, r, st, c⟩ s.engine hbad]
    rfl

end Sys2Proof.Machine
end

section
/-! The end of every command (R118 to R120 of spec/60_exceptions.md): the code a command reports, and that a failure leaves no
other trace. -/

namespace Sys2Proof.Machine

open Sys2Proof.Reference

variable {p : Config.CipherParams} {e e' : Engine}

/-! ### The code of each effect (R119) -/

/-- The result code that an effect comes to (R117). -/
def codeOf {α : Type} : Except ErrorCode α → Byte
  | .ok _ => okCode
  | .error c => c.code

theorem conclude_lasterr (e : Engine) (r : Except ErrorCode Engine) : (conclude e r).lasterr = codeOf r := by
  cases r <;> rfl

theorem keyOk_eq_false_iff (e : Engine) : keyOk e = false ↔ e.keycnt.toNat ≠ 16 := by
  rw [← Bool.not_eq_true, keyOk_iff]
  exact not_congr BitVec.toNat_inj.symm

/-- R75, R78: the key's length is the one check of BC_ENC. -/
theorem codeOf_bcEncEffect : codeOf (bcEncEffect p e) = if e.keycnt.toNat ≠ 16 then 0x02 else 0x00 := by
  rw [bcEncEffect]
  cases hkey : keyOk e with
  | true => exact (if_neg (mt (keyOk_eq_false_iff e).mpr (by simp [hkey]))).symm
  | false => exact (if_pos ((keyOk_eq_false_iff e).mp hkey)).symm

/-- R83, R106: the checks that CFB_INIT and HYB_INIT share, the key and then the IV, come before any other. -/
theorem codeOf_keyIvChecks (r : Except ErrorCode Engine) :
    codeOf (if keyOk e then if ivOk e then r else .error .invalidIvLength else .error .invalidKeyLength) =
      if keyIvCode e ≠ 0x00 then keyIvCode e else codeOf r := by
  rw [keyIvCode, ivOk_eq_ivLengthOk]
  cases hkey : keyOk e with
  | false =>
    rw [if_pos ((keyOk_eq_false_iff e).mp hkey)]
    rfl
  | true =>
    rw [if_neg (mt (keyOk_eq_false_iff e).mpr (by simp [hkey]))]
    cases ivLengthOk e <;> rfl

theorem codeOf_cfbInitEffect : codeOf (cfbInitEffect e) = keyIvCode e := by
  rw [cfbInitEffect, codeOf_keyIvChecks]
  exact ite_eq_left_iff.mpr fun h => (not_not.mp h).symm

theorem codeOf_hybInitEffect :
    codeOf (hybInitEffect e) = if keyIvCode e ≠ 0x00 then keyIvCode e else if e.akv = false then 0x04 else 0x00 := by
  rw [hybInitEffect, codeOf_keyIvChecks]
  cases e.akv <;> rfl

/-- R86, R87: a count above 8 comes before the session check. -/
theorem codeOf_cfbData (dir : Direction) (n : BitVec 4) (d : Byte) :
    codeOf (cfbData p dir n d e) = if 8 < n.toNat then 0x01 else symbolCode e.cfbrdy false 0 := by
  rcases cfbData_cases p dir n d e with ⟨hn, h⟩ | ⟨hn, hr, h⟩ | ⟨hn, hr, h⟩ <;> rw [h]
  · exact (if_pos hn).symm
  · rw [if_neg (Nat.not_lt.mpr hn), hr]
    rfl
  · rw [if_neg (Nat.not_lt.mpr hn), hr]
    rfl

/-- R97: the generator refuses a symbol that is no letter when STRICT = 1. -/
theorem codeOf_akSymbol (dir : Direction) (b : Byte) :
    codeOf (akSymbol dir b e) = if e.cfg.strict && !isLetterCode b then 0x06 else 0x00 := by
  cases hletter : isLetterCode b with
  | false =>
    rw [akSymbol_of_passthrough (classify_of_not_isLetterCode hletter)]
    cases e.cfg.strict <;> rfl
  | true =>
    cases hclass : classify b with
    | letter c idx =>
      rw [akSymbol_of_letter hclass, Bool.not_true, Bool.and_false]
      rfl
    | passthrough =>
      obtain ⟨hupper, hlower⟩ := (classify_eq_passthrough_iff b).mp hclass
      simp [isLetterCode, hupper, hlower] at hletter

theorem codeOf_putSymbol (r : Except ErrorCode (Byte × Engine)) : codeOf (putSymbol r) = codeOf r := by
  cases r <;> rfl

theorem codeOf_akgData (dir : Direction) (b : Byte) :
    codeOf (akgData dir b e) = symbolCode e.akrdy e.cfg.strict b := by
  rw [akgData]
  cases e.akrdy with
  | false => rfl
  | true => exact (codeOf_putSymbol _).trans (codeOf_akSymbol dir b)

/-- R104: a hybrid symbol is refused at an even position only, where the generator refuses it. -/
theorem codeOf_hybSymbol (dir : Direction) (b : Byte) :
    codeOf (hybSymbol p dir b e) =
      if decide (e.pos.toNat % 2 = 0) && e.cfg.strict && !isLetterCode b then 0x06 else 0x00 := by
  rcases Nat.mod_two_eq_zero_or_one e.pos.toNat with hpos | hpos
  · rw [hybSymbol_even p hpos, decide_eq_true hpos, Bool.true_and, ← codeOf_akSymbol dir]
    cases akSymbol dir b e <;> rfl
  · rw [hybSymbol_odd p hpos, hpos]
    rfl

theorem codeOf_hybData (dir : Direction) (b : Byte) :
    codeOf (hybData p dir b e) = symbolCode e.hybrdy (decide (e.pos.toNat % 2 = 0) && e.cfg.strict) b := by
  rw [hybData]
  cases e.hybrdy with
  | false => rfl
  | true => exact (codeOf_putSymbol _).trans (codeOf_hybSymbol dir b)

/-- R119: the code of every command is that of the first of its checks that fails. -/
theorem codeOf_commandEffect (i : Instr) : codeOf (commandEffect p i e) = resultCode i e := by
  cases i with
  | nop | softrst | clrerr | clrkey | ldkeyb | clriv | ldivb => rfl
  | setcfg m r st c => exact (apply_ite codeOf _ _ _).trans (if_congr (illegalWidth_iff ⟨m, r, st, c⟩) rfl rfl)
  | akgLoad k0 k1 => exact apply_ite codeOf _ _ _
  | bcEnc => exact codeOf_bcEncEffect
  | cfbInit => exact codeOf_cfbInitEffect
  | cfbEnc n d => exact codeOf_cfbData .enc n d
  | cfbDec n d => exact codeOf_cfbData .dec n d
  | akgEnc b => exact codeOf_akgData .enc b
  | akgDec b => exact codeOf_akgData .dec b
  | hybInit => exact codeOf_hybInitEffect
  | hybEnc b => exact codeOf_hybData .enc b
  | hybDec b => exact codeOf_hybData .dec b

theorem exec_lasterr {i : Instr} {s t : State} (h : exec i s = .next t) : t.engine.lasterr = resultCode i s.engine := by
  obtain rfl := (exec_next_iff i s t).mp h
  exact (conclude_lasterr _ _).trans (codeOf_commandEffect i)

/-- Settles O52, by the code of each command's effect; an illegal word ends in ILLEGAL_COMMAND whatever the state. -/
theorem resultCodeFollowsThePrecedence : Obligations.ResultCodeFollowsThePrecedence :=
  ⟨fun i s => ⟨_, exec_eq_finish i s, exec_lasterr (exec_eq_finish i s)⟩,
    fun _ s hill => ⟨_, executeWord_of_illegalWord hill s, rfl⟩⟩

/-! ### Failures (R118, R120) -/

theorem wordEffect_ok {v : Word} (h : wordEffect p v e = .ok e') :
    ∃ i, decode v = .ok i ∧ commandEffect p i e = .ok e' := by
  unfold wordEffect at h
  split at h
  · exact ⟨_, ‹_›, h⟩
  · cases h

/-- R38: only CLRERR and SOFTRST write ERRSEEN when they succeed. -/
theorem flagsAfter_errseen {i : Instr} (hclr : i ≠ .clrerr) (hrst : i ≠ .softrst) (f : Flags) :
    (flagsAfter i f).errseen = f.errseen := by
  cases i with
  | clrerr => exact absurd rfl hclr
  | softrst => exact absurd rfl hrst
  | _ => rfl

/-- R118: a word that failed wrote its code to LASTERR and 1 to ERRSEEN, and nothing else. -/
theorem eq_failed_of_executeWord {v : Word} {s t : State} (h : executeWord v s = .next t) (hfail : t.engine.lasterr ≠ 0) :
    t = failed t.engine.lasterr s := by
  rw [executeWord_eq] at h
  cases h
  cases hr : wordEffect s.params v s.engine with
  | ok e' => exact absurd ((conclude_lasterr_eq_zero_iff _ _).mpr ⟨e', hr⟩) hfail
  | error c => rfl

/-- R118: a word that succeeded left ERRSEEN, but for CLRERR and SOFTRST. -/
theorem errseen_of_executeWord {v : Word} {s t : State} (h : executeWord v s = .next t) (hok : t.engine.lasterr = 0)
    (hclr : decode v ≠ .ok .clrerr) (hrst : decode v ≠ .ok .softrst) : t.engine.errseen = s.engine.errseen := by
  rw [executeWord_eq] at h
  cases h
  obtain ⟨e', hr⟩ := (conclude_lasterr_eq_zero_iff _ _).mp hok
  obtain ⟨i, hdec, heff⟩ := wordEffect_ok hr
  rw [hr]
  calc e'.errseen
      = (flagsAfter i (flagsOf s.engine)).errseen := congrArg Flags.errseen (commandEffect_flags heff)
    _ = s.engine.errseen :=
        flagsAfter_errseen (fun hi => hclr (hi ▸ hdec)) (fun hi => hrst (hi ▸ hdec)) (flagsOf s.engine)

/-- Settles O51, by the two ends of a command word. -/
theorem failedCommandHasNoOtherEffect : Obligations.FailedCommandHasNoOtherEffect :=
  fun _ _ _ h => ⟨eq_failed_of_executeWord h, errseen_of_executeWord h⟩

/-- R119: no check reads LASTERR or ERRSEEN. -/
theorem resultCode_failed (i : Instr) (code : Byte) (s : State) :
    resultCode i (failed code s).engine = resultCode i s.engine := by
  cases i <;> rfl

/-- R120: a failed word reports its code again in the state it left, since no check reads what the failure wrote. -/
theorem lasterr_of_failed_again {v : Word} {s t u : State} (h : executeWord v s = .next t) (hfail : t.engine.lasterr ≠ 0)
    (hagain : executeWord v t = .next u) : u.engine.lasterr = t.engine.lasterr := by
  cases hdec : decode v with
  | error err =>
    rw [executeWord_of_error hdec] at h hagain
    cases h
    cases hagain
    rfl
  | ok i =>
    rw [executeWord_of_decode hdec] at hagain
    calc u.engine.lasterr
        = resultCode i t.engine := exec_lasterr hagain
      _ = resultCode i s.engine := by rw [eq_failed_of_executeWord h hfail, resultCode_failed]
      _ = t.engine.lasterr := (exec_lasterr ((executeWord_of_decode hdec s).symm.trans h)).symm

/-- Settles O54: the word fails with the same code, and writing that code once more changes nothing. -/
theorem failedWordFailsAgain : Obligations.FailedWordFailsAgain := by
  intro v s t h hfail
  obtain ⟨u, hagain⟩ : ∃ u, executeWord v t = .next u := ⟨_, executeWord_eq v t⟩
  have hcode := lasterr_of_failed_again h hfail hagain
  have hu : u = failed t.engine.lasterr t := hcode ▸ eq_failed_of_executeWord hagain (hcode ▸ hfail)
  have ht : failed t.engine.lasterr t = t := by
    rw [eq_failed_of_executeWord h hfail]
    rfl
  rw [hagain, hu, ht]

end Sys2Proof.Machine
end

section
/-! Messages that passed the host's check (R121), the idle machine (R128), and runs to their end (R130). -/

namespace Sys2Proof.Machine

open Sys2Proof.Safety

/-- Settles O50: HYB_INIT starts a session at an odd position, and the check lets no symbol of the message be refused. -/
theorem checkedMessageNeverFails : Obligations.CheckedMessageNeverFails := by
  intro dir s u m hu hcheck
  obtain ⟨hr, hodd, hcfg⟩ := start_of_succeeds_hybInit hu
  rw [← hcfg] at hcheck
  exact hostMessage_hybCommand_length dir hr (by rw [hodd]; exact hcheck)

theorem step_of_idle {s : State} (h : s.inputs = []) : step s = .next s := by
  rw [step, h]

/-- Settles O8: with no input waiting there is nothing to serve. -/
theorem idleMachineHoldsItsState : Obligations.IdleMachineHoldsItsState := fun _ => step_of_idle

/-- R118, R130: every input but an overlapping transaction is served in one step, and the inputs after it still wait. -/
theorem exists_step_next {s : State} {input : HostInput} {rest : List HostInput} (hin : s.inputs = input :: rest)
    (hov : ∀ t, input ≠ .resetOverlapping t) : ∃ t, step s = .next t ∧ t.inputs = rest := by
  have hstep : step s = serve input { s with inputs := rest } := by rw [step, hin]
  rw [hstep]
  match input with
  | .transaction (.read a size) =>
    obtain ⟨r, h⟩ := hostRead_eq a size { s with inputs := rest }
    exact ⟨_, h, rfl⟩
  | .transaction (.write a size v) =>
    obtain ⟨-, -, h⟩ | ⟨r, h⟩ := hostWrite_cases a size v { s with inputs := rest }
    · exact ⟨_, h, rfl⟩
    · exact ⟨_, h, rfl⟩
  | .reset => exact ⟨_, rfl, rfl⟩
  | .resetOverlapping t => exact absurd rfl (hov t)

theorem run_succ_of_step {M : Host.Core} {s t : M.State} (h : M.step s = .next t) (k : Nat) :
    M.run (k + 1) s = M.run k t := by
  rw [Host.Core.run, h]

/-- R130: as many steps as inputs wait serve them all. -/
theorem exists_run_next {inputs : List HostInput} (hov : ∀ t, HostInput.resetOverlapping t ∉ inputs) {s : State}
    (hin : s.inputs = inputs) : ∃ u : State, Sys2Proof.core.run inputs.length s = .next u ∧ u.inputs = [] := by
  induction inputs generalizing s with
  | nil => exact ⟨s, rfl, hin⟩
  | cons input rest ih =>
    obtain ⟨t, hstep, ht⟩ := exists_step_next hin fun x hx => hov x (hx ▸ List.mem_cons_self)
    obtain ⟨u, hrun, hu⟩ := ih (fun x hx => hov x (List.mem_cons_of_mem _ hx)) ht
    exact ⟨u, (run_succ_of_step (M := Sys2Proof.core) hstep rest.length).trans hrun, hu⟩

/-- Settles O16, by induction on the inputs that wait at the start of the run. -/
theorem everyRunServesAllItsInputs : Obligations.EveryRunServesAllItsInputs :=
  fun _ _ hov => exists_run_next hov rfl

end Sys2Proof.Machine
end

section
/-! How many cipher calls a stream of bits makes (R137), the reset (R114, R131, R132), and the command order that makes a hybrid
session ready (R134). -/

namespace Sys2Proof.Machine

open Sys2Proof.Safety Sys2Proof.Reference

/-! ### Cipher calls (R84, R137) -/

/-- The position in its chunk of the bit before the next one: PHASE - 1 mod c. -/
def phaseBefore (e : Engine) : Nat := if e.phase.toNat = 0 then e.cfg.fbw.toNat - 1 else e.phase.toNat - 1

theorem phaseBefore_lt {e : Engine} (h : e.phase.toNat < e.cfg.fbw.toNat) : phaseBefore e < e.cfg.fbw.toNat := by
  unfold phaseBefore
  split <;> omega

/-- R84: one bit on, the bit before is the one at PHASE. -/
theorem phaseBefore_cfbBit (p : Config.CipherParams) (dir : Direction) (b : Bool) {e : Engine}
    (h : e.phase.toNat < e.cfg.fbw.toNat) : phaseBefore (cfbBit p dir b e).2 = e.phase.toNat := by
  have hnext : (cfbBit p dir b e).2.phase.toNat = (e.phase.toNat + 1) % e.cfg.fbw.toNat := by
    rw [cfbBit_phase, nextPhase_toNat (by omega)]
  rw [phaseBefore, hnext, cfbBit_snd]
  obtain hlast | hlater : e.phase.toNat + 1 = e.cfg.fbw.toNat ∨ e.phase.toNat + 1 < e.cfg.fbw.toNat := by omega
  · rw [hlast, Nat.mod_self, if_pos rfl]
    exact Nat.sub_eq_of_eq_add hlast.symm
  · rw [Nat.mod_eq_of_lt hlater, if_neg (Nat.succ_ne_zero _), Nat.add_sub_cancel]

/-- R84: exactly how many cipher calls a stream makes. Counted on from the bit before it, each c-th bit starts a chunk. -/
theorem cipherCalls_eq (p : Config.CipherParams) (bits : List (Direction × Bool)) {e : Engine}
    (h : e.phase.toNat < e.cfg.fbw.toNat) :
    cipherCalls p bits e = (bits.length + phaseBefore e) / e.cfg.fbw.toNat := by
  induction bits generalizing e with
  | nil => rw [cipherCalls, List.length_nil, Nat.zero_add, Nat.div_eq_of_lt (phaseBefore_lt h)]
  | cons x rest ih =>
    obtain ⟨dir, b⟩ := x
    have hrest : cipherCalls p rest (cfbBit p dir b e).2 = (rest.length + e.phase.toNat) / e.cfg.fbw.toNat := by
      rw [ih (nextPhase_toNat_lt (by omega) e.phase), phaseBefore_cfbBit p dir b h, cfbBit_snd]
    rw [cipherCalls, hrest, List.length_cons, phaseBefore]
    have hzero : e.phase = 0 ↔ e.phase.toNat = 0 := BitVec.toNat_inj.symm
    by_cases hstart : e.phase.toNat = 0
    · have hwhole : rest.length + 1 + (e.cfg.fbw.toNat - 1) = rest.length + e.cfg.fbw.toNat := by omega
      rw [if_pos (hzero.mpr hstart), if_pos hstart, hwhole, Nat.add_div_right _ (by omega), hstart, Nat.add_zero,
        Nat.add_comm]
    · have hbefore : rest.length + 1 + (e.phase.toNat - 1) = rest.length + e.phase.toNat := by omega
      rw [if_neg (mt hzero.mp hstart), if_neg hstart, hbefore, Nat.zero_add]

/-- Settles O38: the bit before is at most the last of its chunk. -/
theorem cipherCallsAreBounded : Obligations.CipherCallsAreBounded := by
  intro p bits e h
  rw [cipherCalls_eq p bits h]
  have := phaseBefore_lt h
  exact Nat.div_le_div_right (by omega)

/-! ### Reset (R114, R131, R132) -/

/-- Settles O15: serving an overlapping transaction is the refusal. -/
theorem overlappingTransactionIsRefused : Obligations.OverlappingTransactionIsRefused :=
  fun _ _ _ hin => step_of_inputs_cons hin

/-- R132: after a reset three registers of the window do not read 0: CFG, POS and ID. -/
theorem readRegister_reset (a : BitVec 8) (ha : a.toNat % 4 = 0) : readRegister State.reset.engine a =
    if a = 0x08 then 0x00000100 else if a = 0x4C then 0x00000001 else if a = 0x50 then 0x48434531 else 0 := by
  revert a
  decide

/-- Settles O17: both resets write the record of R18 whatever the state was, and the window shows it. -/
theorem resetRestoresEveryField : Obligations.ResetRestoresEveryField :=
  ⟨fun _ _ hin => step_of_inputs_cons hin, fun _ => rfl, rfl, mbzBitsIllegal_of_rowOf (opc := 0x01) rfl, rfl,
    readRegister_reset⟩

/-! ### The expansion of LDIV (R68, R82) -/

/-- IVREG and IVCNT after commands that wrote them: the CFB and hybrid sessions have ended, LASTERR is 0. -/
def withIv (s : State) (iv : DWord) (count : BitVec 4) : State :=
  { s with engine := { s.engine with ivreg := iv, ivcnt := count, cfbrdy := false, hybrdy := false, lasterr := 0 } }

theorem execAll_cons {i : Instr} {s t : State} (h : exec i s = .next t) (is : List Instr) :
    execAll (i :: is) s = execAll is t := by
  rw [execAll, h]

theorem exec_ldivb_withIv (s : State) (x : DWord) (n : BitVec 4) (b : Byte) :
    exec (.ldivb b) (withIv s x n) = .next (withIv s ((x <<< 8) ||| b.setWidth 64) (nextIvCount n)) := rfl

/-- The four bytes of a word, shifted in one after the other, shift in the word. -/
theorem shiftLeft_or_wordBytes (x : DWord) (k : Word) :
    (((((((x <<< 8) ||| (k.extractLsb' 24 8).setWidth 64) <<< 8) ||| (k.extractLsb' 16 8).setWidth 64) <<< 8) |||
      (k.extractLsb' 8 8).setWidth 64) <<< 8) ||| (k.extractLsb' 0 8).setWidth 64 = (x <<< 32) ||| k.setWidth 64 := by
  apply BitVec.eq_of_getLsbD_eq
  intro i hi
  simp only [BitVec.getLsbD_or, BitVec.getLsbD_shiftLeft, BitVec.getLsbD_setWidth, BitVec.getLsbD_extractLsb']
  grind

/-- R82: four IV bytes shift a word into IVREG and count four times. -/
theorem load_ivWord (s : State) (x : DWord) (n : BitVec 4) (k : Word) :
    execAll ((wordBytes k).map .ldivb) (withIv s x n) =
      .next (withIv s ((x <<< 32) ||| k.setWidth 64) (nextIvCount^[4] n)) := by
  simp only [wordBytes, List.map_cons, List.map_nil, execAll, exec_ldivb_withIv, shiftLeft_or_wordBytes]
  rfl

/-- A 64-bit value is its two words, shifted in one after the other. -/
theorem shiftLeft_or_halves (x iv : DWord) :
    (((x <<< 32) ||| (iv.extractLsb' 32 32).setWidth 64) <<< 32) ||| (iv.extractLsb' 0 32).setWidth 64 = iv := by
  apply BitVec.eq_of_getLsbD_eq
  intro i hi
  simp only [BitVec.getLsbD_or, BitVec.getLsbD_shiftLeft, BitVec.getLsbD_setWidth, BitVec.getLsbD_extractLsb']
  grind

/-- R68: LDIV loads exactly its value, with IVCNT = 8. -/
theorem execAll_pseudoLdiv (iv : DWord) (s : State) : execAll (pseudoLdiv iv) s = .next (withIv s iv 8) := by
  have hclear : exec .clriv s = .next (withIv s 0 0) := rfl
  rw [pseudoLdiv, dwordBytes, List.map_append, execAll_cons hclear, execAll_append (load_ivWord ..), load_ivWord,
    shiftLeft_or_halves]
  rfl

/-! ### The order of R134 -/

/-- Settles O56: SETCFG and AKG_LOAD pass their range checks, and what the two expansions load passes the checks of HYB_INIT. -/
theorem bootOrderMakesTheHybridReady : Obligations.BootOrderMakesTheHybridReady := by
  intro s r st c k0 k1 k2 k3 iv a b hlow hhigh ha hb
  obtain ⟨-, -, hsetcfg, -⟩ := setcfgWritesCfgOrRefusesTheWidth
  obtain ⟨-, -, hload, -⟩ := akgLoadRestartsTheKeystream
  obtain ⟨-, -, hinit, -⟩ := hybInitRestartsBothHalves
  rw [execAll_cons (hsetcfg .byte r st c s hlow hhigh), execAll_append (ldkeyExpansionLoadsTheKey ..),
    execAll_append (execAll_pseudoLdiv ..), execAll_cons (hload a b _ ha hb), execAll_cons (hinit _ rfl rfl rfl)]
  have hiv : BitVec.ofNat 64 (iv.toNat % 2 ^ 64) = iv := by rw [Nat.mod_eq_of_lt iv.isLt, BitVec.ofNat_toNat, BitVec.setWidth_eq]
  exact ⟨_, rfl, rfl, rfl, hiv, rfl, rfl, rfl, rfl, rfl, rfl, rfl, rfl, rfl⟩

end Sys2Proof.Machine
end

section
/-! The block cipher on the test vectors of the spec (spec/95_test_vectors.md, section 2.4). -/

namespace Sys2Proof.Machine

/-- Settles O26: the 32 rounds of each vector are run, in BYTE mode under the zero key (V-BC1) and under K87 (V-BC6), and in TOY
mode (V-BC11). -/
theorem blockCipherGivesTheDerivedVectors : Obligations.BlockCipherGivesTheDerivedVectors := by
  refine ⟨?vbc1, ?vbc6, ?vbc11⟩
  case vbc1 => decide
  case vbc6 => decide
  case vbc11 => decide

end Sys2Proof.Machine
end
